-- ==== Sys2Proof/Word.lean ====
section
/-! DEFINITION. The two word types of the machine (spec/00_scope.md rules R4, R5): an 8-bit data
value and a 16-bit address. Arithmetic on them wraps modulo 256 and modulo 65536, which is what
`+` and `-` of a bit vector do. The helpers that take words apart and put them together stand in
Sys2Proof/Decode.lean. -/

namespace Sys2Proof

/-- An 8-bit value: A, X, Y, SP, P, one memory cell, one instruction byte (R4, R5). -/
abbrev Byte := BitVec 8

/-- A 16-bit value: PC, an address, `addr_abs`, `addr_rel` (R4, R5). -/
abbrev Addr := BitVec 16

end Sys2Proof
end

