-- ==== Sys2Proof/Config.lean ====
section
/-! DEFINITION. The fixed vocabulary of the machine and its parameters: the twelve addressing modes,
the operand that goes with each, the 57 operation names, the instruction descriptor, and the named
parameters of spec/00_scope.md rule R4. The VALUES of the parameters are given where they can be
mended: `params` in Sys2Proof/Machine/Ops.lean, the descriptor table `desc` (DESC with ILL_DESC) and
`opExtra` (OP_EXTRA) in Sys2Proof/Decode.lean. The spec leaves no free value: "Nothing in this
machine is `any value` or `stuck`" (spec/93_implementation_defined.md). -/

namespace Sys2Proof

/-- The twelve addressing modes (R63). There is no Accumulator mode: the accumulator forms of the
shifts are Implied. -/
inductive Mode where
  | imp | imm | zp0 | zpx | zpy | rel | abs | abx | aby | ind | izx | izy
deriving DecidableEq, Repr

/-- An operand as the instruction's bytes give it: one form per addressing mode (R60, R62), with the
operand byte, or the two operand bytes assembled little-endian. -/
inductive Operand where
  /-- Implied: no operand byte. -/
  | imp
  /-- Immediate: the operand is the byte itself. -/
  | imm (value : Byte)
  /-- Zero-page. -/
  | zp0 (addr : Byte)
  /-- Zero-page,X. -/
  | zpx (addr : Byte)
  /-- Zero-page,Y. -/
  | zpy (addr : Byte)
  /-- Relative: a signed 8-bit offset. -/
  | rel (offset : Byte)
  /-- Absolute. -/
  | abs (addr : Addr)
  /-- Absolute,X. -/
  | abx (addr : Addr)
  /-- Absolute,Y. -/
  | aby (addr : Addr)
  /-- Indirect: a pointer. -/
  | ind (pointer : Addr)
  /-- (Indirect,X): the base of a zero-page pointer. -/
  | izx (pointer : Byte)
  /-- (Indirect),Y: a zero-page pointer. -/
  | izy (pointer : Byte)
deriving DecidableEq, Repr

/-- The 56 legal operations, named by their mnemonics, and ILL, the no-op of the unused opcodes
(R1, R64, R65, R79). -/
inductive Operation where
  | lda | ldx | ldy | sta | stx | sty | tax | tay | txa | tya | tsx | txs
  | adc | sbc | and | ora | eor | bit
  | asl | lsr | rol | ror | inc | inx | iny | dec | dex | dey
  | cmp | cpx | cpy | bcc | bcs | beq | bmi | bne | bpl | bvc | bvs
  | pha | php | pla | plp | jmp | jsr | rts | rti | brk
  | clc | cld | cli | clv | sec | sed | sei | nop | ill
deriving DecidableEq, Repr

/-- An instruction descriptor, the entry of DESC that an opcode byte selects (R26). The mnemonic of
the source's tuple is "diagnostic only"; here the operation carries it as its name. -/
structure Descriptor where
  operation  : Operation
  mode       : Mode
  baseCycles : Nat
deriving DecidableEq, Repr

/-- The scalar parameters of rule R4 that the spec fixes by decision or leaves open with a default. -/
structure Params where
  /-- `STACK_BASE`, the first address of the stack page (R48). -/
  stackBase   : Addr
  /-- `VEC_NMI` (R50). -/
  vecNmi      : Addr
  /-- `VEC_RESET` (R50). -/
  vecReset    : Addr
  /-- `VEC_IRQ`, shared by IRQ and BRK (R50). -/
  vecIrq      : Addr
  /-- `INT_CYCLES`, the ticks of an IRQ or NMI sequence (R216). -/
  intCycles   : Nat
  /-- `RESET_CYCLES`, the ticks of the reset sequence (R241). -/
  resetCycles : Nat
deriving DecidableEq, Repr

end Sys2Proof
end

