-- ==== Sys2Proof/Syntax.lean ====
section
/-! DEFINITION. The syntax of the instruction set. One constructor per instruction of
spec/opcode_table.json; an instruction that the table pairs with several addressing modes takes its
operand form as an argument, so that every one of the table's 256 rows is exactly one constructor
with one operand form (log entry 1). Which forms go with which instruction is checked in
Sys2Proof/WellFormed.lean. -/

namespace Sys2Proof

/-- An instruction: one of the 56 legal ones (R64), with its operand, or an unused opcode (R65). -/
inductive Instr where
  /-- LDA, load accumulator (R100): A9 IMM, A5 ZP0, B5 ZPX, AD ABS, BD ABX, B9 ABY, A1 IZX, B1 IZY. -/
  | lda (operand : Operand)
  /-- LDX, load X (R101): A2 IMM, A6 ZP0, B6 ZPY, AE ABS, BE ABY. -/
  | ldx (operand : Operand)
  /-- LDY, load Y (R102): A0 IMM, A4 ZP0, B4 ZPX, AC ABS, BC ABX. -/
  | ldy (operand : Operand)
  /-- STA, store accumulator (R103): 85 ZP0, 95 ZPX, 8D ABS, 9D ABX, 99 ABY, 81 IZX, 91 IZY. -/
  | sta (operand : Operand)
  /-- STX, store X (R104): 86 ZP0, 96 ZPY, 8E ABS. -/
  | stx (operand : Operand)
  /-- STY, store Y (R105): 84 ZP0, 94 ZPX, 8C ABS. -/
  | sty (operand : Operand)
  /-- TAX, X <- A (R106): AA IMP. -/
  | tax
  /-- TAY, Y <- A (R107): A8 IMP. -/
  | tay
  /-- TXA, A <- X (R108): 8A IMP. -/
  | txa
  /-- TYA, A <- Y (R109): 98 IMP. -/
  | tya
  /-- TSX, X <- SP (R110): BA IMP. -/
  | tsx
  /-- TXS, SP <- X (R111): 9A IMP. -/
  | txs
  /-- ADC, add with carry (R120): 69 IMM, 65 ZP0, 75 ZPX, 6D ABS, 7D ABX, 79 ABY, 61 IZX, 71 IZY. -/
  | adc (operand : Operand)
  /-- SBC, subtract with borrow (R121): E9 IMM, E5 ZP0, F5 ZPX, ED ABS, FD ABX, F9 ABY, E1 IZX, F1 IZY. -/
  | sbc (operand : Operand)
  /-- AND, logical and (R122): 29 IMM, 25 ZP0, 35 ZPX, 2D ABS, 3D ABX, 39 ABY, 21 IZX, 31 IZY. -/
  | and (operand : Operand)
  /-- ORA, inclusive or (R123): 09 IMM, 05 ZP0, 15 ZPX, 0D ABS, 1D ABX, 19 ABY, 01 IZX, 11 IZY. -/
  | ora (operand : Operand)
  /-- EOR, exclusive or (R124): 49 IMM, 45 ZP0, 55 ZPX, 4D ABS, 5D ABX, 59 ABY, 41 IZX, 51 IZY. -/
  | eor (operand : Operand)
  /-- BIT, bit test (R125): 24 ZP0, 2C ABS. -/
  | bit (operand : Operand)
  /-- ASL, arithmetic shift left (R130): 0A IMP, 06 ZP0, 16 ZPX, 0E ABS, 1E ABX. -/
  | asl (operand : Operand)
  /-- LSR, logical shift right (R131): 4A IMP, 46 ZP0, 56 ZPX, 4E ABS, 5E ABX. -/
  | lsr (operand : Operand)
  /-- ROL, rotate left through Carry (R132): 2A IMP, 26 ZP0, 36 ZPX, 2E ABS, 3E ABX. -/
  | rol (operand : Operand)
  /-- ROR, rotate right through Carry (R133): 6A IMP, 66 ZP0, 76 ZPX, 6E ABS, 7E ABX. -/
  | ror (operand : Operand)
  /-- INC, increment memory (R134): E6 ZP0, F6 ZPX, EE ABS, FE ABX. -/
  | inc (operand : Operand)
  /-- INX, increment X (R135): E8 IMP. -/
  | inx
  /-- INY, increment Y (R136): C8 IMP. -/
  | iny
  /-- DEC, decrement memory (R137): C6 ZP0, D6 ZPX, CE ABS, DE ABX. -/
  | dec (operand : Operand)
  /-- DEX, decrement X (R138): CA IMP. -/
  | dex
  /-- DEY, decrement Y (R139): 88 IMP. -/
  | dey
  /-- CMP, compare accumulator (R150): C9 IMM, C5 ZP0, D5 ZPX, CD ABS, DD ABX, D9 ABY, C1 IZX, D1 IZY. -/
  | cmp (operand : Operand)
  /-- CPX, compare X (R151): E0 IMM, E4 ZP0, EC ABS. -/
  | cpx (operand : Operand)
  /-- CPY, compare Y (R152): C0 IMM, C4 ZP0, CC ABS. -/
  | cpy (operand : Operand)
  /-- BCC, branch if Carry clear (R155): 90 REL. -/
  | bcc (offset : Byte)
  /-- BCS, branch if Carry set (R156): B0 REL. -/
  | bcs (offset : Byte)
  /-- BEQ, branch if Zero set (R157): F0 REL. -/
  | beq (offset : Byte)
  /-- BMI, branch if Negative set (R158): 30 REL. -/
  | bmi (offset : Byte)
  /-- BNE, branch if Zero clear (R159): D0 REL. -/
  | bne (offset : Byte)
  /-- BPL, branch if Negative clear (R160): 10 REL. -/
  | bpl (offset : Byte)
  /-- BVC, branch if Overflow clear (R161): 50 REL. -/
  | bvc (offset : Byte)
  /-- BVS, branch if Overflow set (R162): 70 REL. -/
  | bvs (offset : Byte)
  /-- PHA, push accumulator (R170): 48 IMP. -/
  | pha
  /-- PHP, push processor status (R171): 08 IMP. -/
  | php
  /-- PLA, pull accumulator (R172): 68 IMP. -/
  | pla
  /-- PLP, pull processor status (R173): 28 IMP. -/
  | plp
  /-- JMP, jump (R180): 4C ABS, 6C IND. -/
  | jmp (operand : Operand)
  /-- JSR, jump to subroutine (R181): 20 ABS. -/
  | jsr (target : Addr)
  /-- RTS, return from subroutine (R182): 60 IMP. -/
  | rts
  /-- RTI, return from interrupt (R183): 40 IMP. -/
  | rti
  /-- BRK, break (software interrupt) (R184): 00 IMP. -/
  | brk
  /-- CLC, clear Carry (R190): 18 IMP. -/
  | clc
  /-- CLD, clear Decimal (R191): D8 IMP. -/
  | cld
  /-- CLI, clear Interrupt-disable (R192): 58 IMP. -/
  | cli
  /-- CLV, clear Overflow (R193): B8 IMP. -/
  | clv
  /-- SEC, set Carry (R194): 38 IMP. -/
  | sec
  /-- SED, set Decimal (R195): F8 IMP. -/
  | sed
  /-- SEI, set Interrupt-disable (R196): 78 IMP. -/
  | sei
  /-- NOP, no operation (R200): EA IMP. -/
  | nop
  /-- ILL, any of the 105 unused opcode bytes (R65, R201), with the byte itself. -/
  | ill (opcode : Byte)
deriving DecidableEq, Repr

/-- The operation of an instruction, the `Operate` half of its descriptor (R79). -/
def Instr.operation : Instr → Operation
  | .lda _ => .lda
  | .ldx _ => .ldx
  | .ldy _ => .ldy
  | .sta _ => .sta
  | .stx _ => .stx
  | .sty _ => .sty
  | .tax => .tax
  | .tay => .tay
  | .txa => .txa
  | .tya => .tya
  | .tsx => .tsx
  | .txs => .txs
  | .adc _ => .adc
  | .sbc _ => .sbc
  | .and _ => .and
  | .ora _ => .ora
  | .eor _ => .eor
  | .bit _ => .bit
  | .asl _ => .asl
  | .lsr _ => .lsr
  | .rol _ => .rol
  | .ror _ => .ror
  | .inc _ => .inc
  | .inx => .inx
  | .iny => .iny
  | .dec _ => .dec
  | .dex => .dex
  | .dey => .dey
  | .cmp _ => .cmp
  | .cpx _ => .cpx
  | .cpy _ => .cpy
  | .bcc _ => .bcc
  | .bcs _ => .bcs
  | .beq _ => .beq
  | .bmi _ => .bmi
  | .bne _ => .bne
  | .bpl _ => .bpl
  | .bvc _ => .bvc
  | .bvs _ => .bvs
  | .pha => .pha
  | .php => .php
  | .pla => .pla
  | .plp => .plp
  | .jmp _ => .jmp
  | .jsr _ => .jsr
  | .rts => .rts
  | .rti => .rti
  | .brk => .brk
  | .clc => .clc
  | .cld => .cld
  | .cli => .cli
  | .clv => .clv
  | .sec => .sec
  | .sed => .sed
  | .sei => .sei
  | .nop => .nop
  | .ill _ => .ill

/-- The operand of an instruction, which fixes the `Resolve` half of its descriptor (R79). -/
def Instr.operand : Instr → Operand
  | .lda o | .ldx o | .ldy o | .sta o | .stx o | .sty o | .adc o => o
  | .sbc o | .and o | .ora o | .eor o | .bit o | .asl o | .lsr o => o
  | .rol o | .ror o | .inc o | .dec o | .cmp o | .cpx o | .cpy o => o
  | .jmp o => o
  | .bcc d | .bcs d | .beq d | .bmi d | .bne d | .bpl d | .bvc d => .rel d
  | .bvs d => .rel d
  | .jsr w => .abs w
  | .tax | .tay | .txa | .tya | .tsx | .txs | .inx => .imp
  | .iny | .dex | .dey | .pha | .php | .pla | .plp => .imp
  | .rts | .rti | .brk | .clc | .cld | .cli | .clv => .imp
  | .sec | .sed | .sei | .nop => .imp
  | .ill _ => .imp

end Sys2Proof
end

