-- ==== Sys2Proof/WellFormed.lean ====
section
/-! DEFINITION. Which instructions are well formed: the pairs of operation and addressing mode that
the opcode table has (R64, R95), and the opcode bytes that are unused (R65). An ill-formed term has
no encoding and no meaning ("no operation is defined for a mode the table does not pair it with",
R95). -/

namespace Sys2Proof

/-- The mode of an operand form (R62). -/
def Operand.mode : Operand → Mode
  | .imp => .imp | .imm _ => .imm | .zp0 _ => .zp0 | .zpx _ => .zpx | .zpy _ => .zpy
  | .rel _ => .rel | .abs _ => .abs | .abx _ => .abx | .aby _ => .aby | .ind _ => .ind
  | .izx _ => .izx | .izy _ => .izy

/-- The modes the opcode table pairs an operation with (R64, the table by mnemonic; R65 for ILL). -/
def Operation.modes : Operation → List Mode
  | .lda | .adc | .sbc | .and | .ora | .eor | .cmp => [.imm, .zp0, .zpx, .abs, .abx, .aby, .izx, .izy]
  | .ldx => [.imm, .zp0, .zpy, .abs, .aby]
  | .ldy => [.imm, .zp0, .zpx, .abs, .abx]
  | .sta => [.zp0, .zpx, .abs, .abx, .aby, .izx, .izy]
  | .stx => [.zp0, .zpy, .abs]
  | .sty => [.zp0, .zpx, .abs]
  | .tax | .tay | .txa | .tya | .tsx | .txs | .inx | .iny | .dex => [.imp]
  | .dey | .pha | .php | .pla | .plp | .rts | .rti | .brk | .clc => [.imp]
  | .cld | .cli | .clv | .sec | .sed | .sei | .nop | .ill => [.imp]
  | .bit => [.zp0, .abs]
  | .asl | .lsr | .rol | .ror => [.imp, .zp0, .zpx, .abs, .abx]
  | .inc | .dec => [.zp0, .zpx, .abs, .abx]
  | .cpx | .cpy => [.imm, .zp0, .abs]
  | .bcc | .bcs | .beq | .bmi | .bne | .bpl | .bvc | .bvs => [.rel]
  | .jmp => [.abs, .ind]
  | .jsr => [.abs]

/-- The 105 opcode bytes that no legal instruction uses (R65). -/
def unusedOpcodes : List Byte :=
  [0x02, 0x03, 0x04, 0x07, 0x0B, 0x0C, 0x0F, 0x12, 0x13, 0x14, 0x17, 0x1A, 0x1B, 0x1C, 0x1F] ++
  [0x22, 0x23, 0x27, 0x2B, 0x2F, 0x32, 0x33, 0x34, 0x37, 0x3A, 0x3B, 0x3C, 0x3F] ++
  [0x42, 0x43, 0x44, 0x47, 0x4B, 0x4F, 0x52, 0x53, 0x54, 0x57, 0x5A, 0x5B, 0x5C, 0x5F] ++
  [0x62, 0x63, 0x64, 0x67, 0x6B, 0x6F, 0x72, 0x73, 0x74, 0x77, 0x7A, 0x7B, 0x7C, 0x7F] ++
  [0x80, 0x82, 0x83, 0x87, 0x89, 0x8B, 0x8F, 0x92, 0x93, 0x97, 0x9B, 0x9C, 0x9E, 0x9F] ++
  [0xA3, 0xA7, 0xAB, 0xAF, 0xB2, 0xB3, 0xB7, 0xBB, 0xBF] ++
  [0xC2, 0xC3, 0xC7, 0xCB, 0xCF, 0xD2, 0xD3, 0xD4, 0xD7, 0xDA, 0xDB, 0xDC, 0xDF] ++
  [0xE2, 0xE3, 0xE7, 0xEB, 0xEF, 0xF2, 0xF3, 0xF4, 0xF7, 0xFA, 0xFB, 0xFC, 0xFF]

/-- An unused opcode is one of the 105; any other instruction has an operand of a mode that the table
pairs its operation with. -/
def Instr.wellFormed : Instr → Bool
  | .ill opcode => unusedOpcodes.contains opcode
  | i => i.operation.modes.contains i.operand.mode

end Sys2Proof
end

