-- ==== Sys2Proof/Decode.lean ====
section
/-! DEFINITION. The encoding: byte helpers, the descriptor table DESC with ILL_DESC (R26, R64, R65),
OP_EXTRA (R69), the decoder, total on any bytes (R61, R66, R202), and after it the encoder. The
decoder is written from rule R64's matrix, the encoder from rule R64's table by mnemonic; that they
agree is a statement of Sys2Proof/Certificates/Slice0/Obligations.lean. -/

namespace Sys2Proof

/-- `{hi, lo}`, the 16-bit value with `hi` in bits 15:8 (R5). -/
def word (hi lo : Byte) : Addr := hi ++ lo

/-- `v[7:0]` of a 16-bit value (R5). -/
def lowByte (v : Addr) : Byte := v.extractLsb' 0 8

/-- `v[15:8]` of a 16-bit value, which is also `page(v)` (R5). -/
def highByte (v : Addr) : Byte := v.extractLsb' 8 8

/-- `page(a)` (R5, R9). -/
def page (a : Addr) : Byte := highByte a

/-- `zext_16(b)` (R6). -/
def zext (b : Byte) : Addr := b.setWidth 16

/-- `sext_16(b)` (R6): `b` where bit 7 is 0, else `0xFF00 + b`. -/
def sext (b : Byte) : Addr := b.signExtend 16

/-- How many operand bytes a mode has (R60, R62). -/
def Mode.operandBytes : Mode → Nat
  | .imp => 0
  | .imm | .zp0 | .zpx | .zpy | .rel | .izx | .izy => 1
  | .abs | .abx | .aby | .ind => 2

/-- The length of an instruction in bytes: 1 plus its operand bytes (R60). -/
def Instr.length (i : Instr) : Nat := 1 + i.operand.mode.operandBytes

/-- A cell of the matrix of R64, or of R65 where the operation is `ill`. -/
def cell (op : Operation) (mode : Mode) (baseCycles : Nat) : Descriptor := ⟨op, mode, baseCycles⟩

/-- `ILL_DESC` of an unused opcode (R65, default of decision D6): a no-op, Implied. -/
def unused (baseCycles : Nat) : Descriptor := ⟨.ill, .imp, baseCycles⟩

/-- Opcodes 00 to 0F (R64, R65). -/
def opcodeRow0 : List Descriptor := [
  cell .brk .imp 7, cell .ora .izx 6, unused 2, unused 8,
  unused 3, cell .ora .zp0 3, cell .asl .zp0 5, unused 5,
  cell .php .imp 3, cell .ora .imm 2, cell .asl .imp 2, unused 2,
  unused 4, cell .ora .abs 4, cell .asl .abs 6, unused 6]

/-- Opcodes 10 to 1F (R64, R65). -/
def opcodeRow1 : List Descriptor := [
  cell .bpl .rel 2, cell .ora .izy 5, unused 2, unused 8,
  unused 4, cell .ora .zpx 4, cell .asl .zpx 6, unused 6,
  cell .clc .imp 2, cell .ora .aby 4, unused 2, unused 7,
  unused 4, cell .ora .abx 4, cell .asl .abx 7, unused 7]

/-- Opcodes 20 to 2F (R64, R65). -/
def opcodeRow2 : List Descriptor := [
  cell .jsr .abs 6, cell .and .izx 6, unused 2, unused 8,
  cell .bit .zp0 3, cell .and .zp0 3, cell .rol .zp0 5, unused 5,
  cell .plp .imp 4, cell .and .imm 2, cell .rol .imp 2, unused 2,
  cell .bit .abs 4, cell .and .abs 4, cell .rol .abs 6, unused 6]

/-- Opcodes 30 to 3F (R64, R65). -/
def opcodeRow3 : List Descriptor := [
  cell .bmi .rel 2, cell .and .izy 5, unused 2, unused 8,
  unused 4, cell .and .zpx 4, cell .rol .zpx 6, unused 6,
  cell .sec .imp 2, cell .and .aby 4, unused 2, unused 7,
  unused 4, cell .and .abx 4, cell .rol .abx 7, unused 7]

/-- Opcodes 40 to 4F (R64, R65). -/
def opcodeRow4 : List Descriptor := [
  cell .rti .imp 6, cell .eor .izx 6, unused 2, unused 8,
  unused 3, cell .eor .zp0 3, cell .lsr .zp0 5, unused 5,
  cell .pha .imp 3, cell .eor .imm 2, cell .lsr .imp 2, unused 2,
  cell .jmp .abs 3, cell .eor .abs 4, cell .lsr .abs 6, unused 6]

/-- Opcodes 50 to 5F (R64, R65). -/
def opcodeRow5 : List Descriptor := [
  cell .bvc .rel 2, cell .eor .izy 5, unused 2, unused 8,
  unused 4, cell .eor .zpx 4, cell .lsr .zpx 6, unused 6,
  cell .cli .imp 2, cell .eor .aby 4, unused 2, unused 7,
  unused 4, cell .eor .abx 4, cell .lsr .abx 7, unused 7]

/-- Opcodes 60 to 6F (R64, R65). -/
def opcodeRow6 : List Descriptor := [
  cell .rts .imp 6, cell .adc .izx 6, unused 2, unused 8,
  unused 3, cell .adc .zp0 3, cell .ror .zp0 5, unused 5,
  cell .pla .imp 4, cell .adc .imm 2, cell .ror .imp 2, unused 2,
  cell .jmp .ind 5, cell .adc .abs 4, cell .ror .abs 6, unused 6]

/-- Opcodes 70 to 7F (R64, R65). -/
def opcodeRow7 : List Descriptor := [
  cell .bvs .rel 2, cell .adc .izy 5, unused 2, unused 8,
  unused 4, cell .adc .zpx 4, cell .ror .zpx 6, unused 6,
  cell .sei .imp 2, cell .adc .aby 4, unused 2, unused 7,
  unused 4, cell .adc .abx 4, cell .ror .abx 7, unused 7]

/-- Opcodes 80 to 8F (R64, R65). -/
def opcodeRow8 : List Descriptor := [
  unused 2, cell .sta .izx 6, unused 2, unused 6,
  cell .sty .zp0 3, cell .sta .zp0 3, cell .stx .zp0 3, unused 3,
  cell .dey .imp 2, unused 2, cell .txa .imp 2, unused 2,
  cell .sty .abs 4, cell .sta .abs 4, cell .stx .abs 4, unused 4]

/-- Opcodes 90 to 9F (R64, R65). -/
def opcodeRow9 : List Descriptor := [
  cell .bcc .rel 2, cell .sta .izy 6, unused 2, unused 6,
  cell .sty .zpx 4, cell .sta .zpx 4, cell .stx .zpy 4, unused 4,
  cell .tya .imp 2, cell .sta .aby 5, cell .txs .imp 2, unused 5,
  unused 5, cell .sta .abx 5, unused 5, unused 5]

/-- Opcodes A0 to AF (R64, R65). -/
def opcodeRowA : List Descriptor := [
  cell .ldy .imm 2, cell .lda .izx 6, cell .ldx .imm 2, unused 6,
  cell .ldy .zp0 3, cell .lda .zp0 3, cell .ldx .zp0 3, unused 3,
  cell .tay .imp 2, cell .lda .imm 2, cell .tax .imp 2, unused 2,
  cell .ldy .abs 4, cell .lda .abs 4, cell .ldx .abs 4, unused 4]

/-- Opcodes B0 to BF (R64, R65). -/
def opcodeRowB : List Descriptor := [
  cell .bcs .rel 2, cell .lda .izy 5, unused 2, unused 5,
  cell .ldy .zpx 4, cell .lda .zpx 4, cell .ldx .zpy 4, unused 4,
  cell .clv .imp 2, cell .lda .aby 4, cell .tsx .imp 2, unused 4,
  cell .ldy .abx 4, cell .lda .abx 4, cell .ldx .aby 4, unused 4]

/-- Opcodes C0 to CF (R64, R65). -/
def opcodeRowC : List Descriptor := [
  cell .cpy .imm 2, cell .cmp .izx 6, unused 2, unused 8,
  cell .cpy .zp0 3, cell .cmp .zp0 3, cell .dec .zp0 5, unused 5,
  cell .iny .imp 2, cell .cmp .imm 2, cell .dex .imp 2, unused 2,
  cell .cpy .abs 4, cell .cmp .abs 4, cell .dec .abs 6, unused 6]

/-- Opcodes D0 to DF (R64, R65). -/
def opcodeRowD : List Descriptor := [
  cell .bne .rel 2, cell .cmp .izy 5, unused 2, unused 8,
  unused 4, cell .cmp .zpx 4, cell .dec .zpx 6, unused 6,
  cell .cld .imp 2, cell .cmp .aby 4, unused 2, unused 7,
  unused 4, cell .cmp .abx 4, cell .dec .abx 7, unused 7]

/-- Opcodes E0 to EF (R64, R65). -/
def opcodeRowE : List Descriptor := [
  cell .cpx .imm 2, cell .sbc .izx 6, unused 2, unused 8,
  cell .cpx .zp0 3, cell .sbc .zp0 3, cell .inc .zp0 5, unused 5,
  cell .inx .imp 2, cell .sbc .imm 2, cell .nop .imp 2, unused 2,
  cell .cpx .abs 4, cell .sbc .abs 4, cell .inc .abs 6, unused 6]

/-- Opcodes F0 to FF (R64, R65). -/
def opcodeRowF : List Descriptor := [
  cell .beq .rel 2, cell .sbc .izy 5, unused 2, unused 8,
  unused 4, cell .sbc .zpx 4, cell .inc .zpx 6, unused 6,
  cell .sed .imp 2, cell .sbc .aby 4, unused 2, unused 7,
  unused 4, cell .sbc .abx 4, cell .inc .abx 7, unused 7]

/-- The opcode matrix: row = high nibble, column = low nibble (R64, R65). -/
def opcodeMatrix : List (List Descriptor) :=
  [opcodeRow0, opcodeRow1, opcodeRow2, opcodeRow3, opcodeRow4, opcodeRow5, opcodeRow6, opcodeRow7,
   opcodeRow8, opcodeRow9, opcodeRowA, opcodeRowB, opcodeRowC, opcodeRowD, opcodeRowE, opcodeRowF]

/-- `DESC[opcode]` (R26, R61, R72): a 256-entry look-up. The two defaults are never reached, since
the matrix has 16 rows of 16 cells. -/
def desc (opcode : Byte) : Descriptor :=
  (opcodeMatrix.getD (opcode.toNat / 16) []).getD (opcode.toNat % 16) (unused 2)

/-- `OP_EXTRA[mnemonic]` (R69): whether the operation can take the page-crossing cycle. -/
def opExtra : Operation → Bool
  | .lda | .ldx | .ldy | .adc | .sbc | .and | .ora | .eor | .cmp => true
  | _ => false

/-- The operand that a mode assembles from the bytes after the opcode (R62): none, `b1`, or
`{b2, b1}`, little-endian. -/
def assembleOperand (mode : Mode) (b1 b2 : Byte) : Operand :=
  match mode with
  | .imp => .imp
  | .imm => .imm b1
  | .zp0 => .zp0 b1
  | .zpx => .zpx b1
  | .zpy => .zpy b1
  | .rel => .rel b1
  | .abs => .abs (word b2 b1)
  | .abx => .abx (word b2 b1)
  | .aby => .aby (word b2 b1)
  | .ind => .ind (word b2 b1)
  | .izx => .izx b1
  | .izy => .izy b1

/-- The instruction that an operation is, given its opcode byte, the operand its mode assembled and
the operand bytes. -/
def assembleInstr (opcode : Byte) (op : Operation) (o : Operand) (b1 b2 : Byte) : Instr :=
  match op with
  | .lda => .lda o
  | .ldx => .ldx o
  | .ldy => .ldy o
  | .sta => .sta o
  | .stx => .stx o
  | .sty => .sty o
  | .tax => .tax
  | .tay => .tay
  | .txa => .txa
  | .tya => .tya
  | .tsx => .tsx
  | .txs => .txs
  | .adc => .adc o
  | .sbc => .sbc o
  | .and => .and o
  | .ora => .ora o
  | .eor => .eor o
  | .bit => .bit o
  | .asl => .asl o
  | .lsr => .lsr o
  | .rol => .rol o
  | .ror => .ror o
  | .inc => .inc o
  | .inx => .inx
  | .iny => .iny
  | .dec => .dec o
  | .dex => .dex
  | .dey => .dey
  | .cmp => .cmp o
  | .cpx => .cpx o
  | .cpy => .cpy o
  | .bcc => .bcc b1
  | .bcs => .bcs b1
  | .beq => .beq b1
  | .bmi => .bmi b1
  | .bne => .bne b1
  | .bpl => .bpl b1
  | .bvc => .bvc b1
  | .bvs => .bvs b1
  | .pha => .pha
  | .php => .php
  | .pla => .pla
  | .plp => .plp
  | .jmp => .jmp o
  | .jsr => .jsr (word b2 b1)
  | .rts => .rts
  | .rti => .rti
  | .brk => .brk
  | .clc => .clc
  | .cld => .cld
  | .cli => .cli
  | .clv => .clv
  | .sec => .sec
  | .sed => .sed
  | .sei => .sei
  | .nop => .nop
  | .ill => .ill opcode

/-- The instruction that a byte and the two bytes after it are (R61, R66): the first byte selects the
descriptor, whose mode says how many of the others count. Total: no byte is reserved. -/
def decodeBytes (opcode b1 b2 : Byte) : Instr :=
  let d := desc opcode
  assembleInstr opcode d.operation (assembleOperand d.mode b1 b2) b1 b2

/-- Why a sequence of bytes is not an instruction: it is too short. No opcode byte is a reason (R202). -/
inductive DecodeError where
  /-- There is no opcode byte. -/
  | noBytes
  /-- Operand bytes of this opcode are missing. -/
  | truncated (opcode : Byte)
deriving DecidableEq, Repr

/-- The decoder on any list of bytes: the first instruction and the bytes after it, or the name of
what is missing (R60, R66). -/
def decode : List Byte → Except DecodeError (Instr × List Byte)
  | [] => .error .noBytes
  | opcode :: rest =>
    match (desc opcode).mode.operandBytes, rest with
    | 0, rest => .ok (decodeBytes opcode 0 0, rest)
    | 1, b1 :: rest => .ok (decodeBytes opcode b1 0, rest)
    | 2, b1 :: b2 :: rest => .ok (decodeBytes opcode b1 b2, rest)
    | _, _ => .error (.truncated opcode)

/-- The opcode bytes of an operation, one per addressing mode (R64, the table by mnemonic). ILL has its
105 bytes in `unusedOpcodes`. -/
def Operation.opcodes : Operation → List (Mode × Byte)
  | .lda => [(.imm, 0xA9), (.zp0, 0xA5), (.zpx, 0xB5), (.abs, 0xAD), (.abx, 0xBD), (.aby, 0xB9),
      (.izx, 0xA1), (.izy, 0xB1)]
  | .ldx => [(.imm, 0xA2), (.zp0, 0xA6), (.zpy, 0xB6), (.abs, 0xAE), (.aby, 0xBE)]
  | .ldy => [(.imm, 0xA0), (.zp0, 0xA4), (.zpx, 0xB4), (.abs, 0xAC), (.abx, 0xBC)]
  | .sta => [(.zp0, 0x85), (.zpx, 0x95), (.abs, 0x8D), (.abx, 0x9D), (.aby, 0x99), (.izx, 0x81),
      (.izy, 0x91)]
  | .stx => [(.zp0, 0x86), (.zpy, 0x96), (.abs, 0x8E)]
  | .sty => [(.zp0, 0x84), (.zpx, 0x94), (.abs, 0x8C)]
  | .tax => [(.imp, 0xAA)]
  | .tay => [(.imp, 0xA8)]
  | .txa => [(.imp, 0x8A)]
  | .tya => [(.imp, 0x98)]
  | .tsx => [(.imp, 0xBA)]
  | .txs => [(.imp, 0x9A)]
  | .adc => [(.imm, 0x69), (.zp0, 0x65), (.zpx, 0x75), (.abs, 0x6D), (.abx, 0x7D), (.aby, 0x79),
      (.izx, 0x61), (.izy, 0x71)]
  | .sbc => [(.imm, 0xE9), (.zp0, 0xE5), (.zpx, 0xF5), (.abs, 0xED), (.abx, 0xFD), (.aby, 0xF9),
      (.izx, 0xE1), (.izy, 0xF1)]
  | .and => [(.imm, 0x29), (.zp0, 0x25), (.zpx, 0x35), (.abs, 0x2D), (.abx, 0x3D), (.aby, 0x39),
      (.izx, 0x21), (.izy, 0x31)]
  | .ora => [(.imm, 0x09), (.zp0, 0x05), (.zpx, 0x15), (.abs, 0x0D), (.abx, 0x1D), (.aby, 0x19),
      (.izx, 0x01), (.izy, 0x11)]
  | .eor => [(.imm, 0x49), (.zp0, 0x45), (.zpx, 0x55), (.abs, 0x4D), (.abx, 0x5D), (.aby, 0x59),
      (.izx, 0x41), (.izy, 0x51)]
  | .bit => [(.zp0, 0x24), (.abs, 0x2C)]
  | .asl => [(.imp, 0x0A), (.zp0, 0x06), (.zpx, 0x16), (.abs, 0x0E), (.abx, 0x1E)]
  | .lsr => [(.imp, 0x4A), (.zp0, 0x46), (.zpx, 0x56), (.abs, 0x4E), (.abx, 0x5E)]
  | .rol => [(.imp, 0x2A), (.zp0, 0x26), (.zpx, 0x36), (.abs, 0x2E), (.abx, 0x3E)]
  | .ror => [(.imp, 0x6A), (.zp0, 0x66), (.zpx, 0x76), (.abs, 0x6E), (.abx, 0x7E)]
  | .inc => [(.zp0, 0xE6), (.zpx, 0xF6), (.abs, 0xEE), (.abx, 0xFE)]
  | .inx => [(.imp, 0xE8)]
  | .iny => [(.imp, 0xC8)]
  | .dec => [(.zp0, 0xC6), (.zpx, 0xD6), (.abs, 0xCE), (.abx, 0xDE)]
  | .dex => [(.imp, 0xCA)]
  | .dey => [(.imp, 0x88)]
  | .cmp => [(.imm, 0xC9), (.zp0, 0xC5), (.zpx, 0xD5), (.abs, 0xCD), (.abx, 0xDD), (.aby, 0xD9),
      (.izx, 0xC1), (.izy, 0xD1)]
  | .cpx => [(.imm, 0xE0), (.zp0, 0xE4), (.abs, 0xEC)]
  | .cpy => [(.imm, 0xC0), (.zp0, 0xC4), (.abs, 0xCC)]
  | .bcc => [(.rel, 0x90)]
  | .bcs => [(.rel, 0xB0)]
  | .beq => [(.rel, 0xF0)]
  | .bmi => [(.rel, 0x30)]
  | .bne => [(.rel, 0xD0)]
  | .bpl => [(.rel, 0x10)]
  | .bvc => [(.rel, 0x50)]
  | .bvs => [(.rel, 0x70)]
  | .pha => [(.imp, 0x48)]
  | .php => [(.imp, 0x08)]
  | .pla => [(.imp, 0x68)]
  | .plp => [(.imp, 0x28)]
  | .jmp => [(.abs, 0x4C), (.ind, 0x6C)]
  | .jsr => [(.abs, 0x20)]
  | .rts => [(.imp, 0x60)]
  | .rti => [(.imp, 0x40)]
  | .brk => [(.imp, 0x00)]
  | .clc => [(.imp, 0x18)]
  | .cld => [(.imp, 0xD8)]
  | .cli => [(.imp, 0x58)]
  | .clv => [(.imp, 0xB8)]
  | .sec => [(.imp, 0x38)]
  | .sed => [(.imp, 0xF8)]
  | .sei => [(.imp, 0x78)]
  | .nop => [(.imp, 0xEA)]
  | .ill => []

/-- The opcode byte of an instruction (R64, R65); none for an ill-formed pair of operation and mode. -/
def Instr.opcodeByte (i : Instr) : Option Byte :=
  match i with
  | .ill opcode => if unusedOpcodes.contains opcode then some opcode else none
  | i => i.operation.opcodes.lookup i.operand.mode

/-- The operand bytes of an operand, in memory order: none, `b1`, or low byte then high byte (R60). -/
def Operand.bytes : Operand → List Byte
  | .imp => []
  | .imm b | .zp0 b | .zpx b | .zpy b | .rel b | .izx b | .izy b => [b]
  | .abs w | .abx w | .aby w | .ind w => [lowByte w, highByte w]

/-- The bytes of a well-formed instruction, at ascending addresses (R60); no byte for an ill-formed
one. -/
def encode (i : Instr) : List Byte :=
  match i.opcodeByte with
  | some opcode => opcode :: i.operand.bytes
  | none => []

/-- The three bytes whose bits are `w`, bit 0 the least significant bit of the first byte, with every
bit from `nbits` on taken as 0: the longest instruction has three bytes (R60). -/
def tableBytes (nbits w : Nat) : List Byte :=
  let v := w % 2 ^ nbits
  [BitVec.ofNat 8 v, BitVec.ofNat 8 (v / 256), BitVec.ofNat 8 (v / 65536)]

/-- What the decoder reads from an instruction whose bits are `w`, numbered as
spec/opcode_table.json numbers them, `nbits` of them given by the table and the rest 0. -/
def decodeTableWord (nbits w : Nat) : Option Instr :=
  match decode (tableBytes nbits w) with
  | .ok (i, _) => some i
  | .error _ => none

end Sys2Proof
end

