-- ==== Sys2Proof/Machine/State.lean ====
section
/-! DEFINITION. The state of the machine (spec/10_state.md), as plain data: the six registers, the
transient decode state and the remaining-cycles counter, the three pending latches, the bus condition,
and the memory of the base bus. Then the ways a step can stop, and the power-on state. -/

namespace Sys2Proof.Machine

open Sys2Proof

/-- The eight named flags of P (R15). Their bit positions are in Sys2Proof/Machine/Flags.lean. -/
inductive Flag where
  /-- Carry. -/
  | c
  /-- Zero. -/
  | z
  /-- Interrupt-disable. -/
  | i
  /-- Decimal, present but inert. -/
  | d
  /-- Break. -/
  | b
  /-- Unused, always set. -/
  | u
  /-- Overflow. -/
  | v
  /-- Negative. -/
  | n
deriving DecidableEq, Repr

/-- The base bus (R58): the cells whose byte is not `0x00`, in strictly rising order of address. An
address not listed holds `0x00`, the byte that every cell holds at power-on. -/
abbrev Memory := List Host.Cell

/-- Everything the spec gives the machine. -/
@[ext]
structure State where
  /-- Accumulator (R10). -/
  a            : Byte
  /-- Index register X (R11). -/
  x            : Byte
  /-- Index register Y (R12). -/
  y            : Byte
  /-- Stack pointer (R13). -/
  sp           : Byte
  /-- Program counter (R14). -/
  pc           : Addr
  /-- Status register P, the eight flags (R15). -/
  p            : Byte
  /-- The opcode byte of the last instruction fetched (R27). -/
  opcode       : Byte
  /-- `addr_abs`, the resolved absolute address (R28). -/
  addrAbs      : Addr
  /-- `addr_rel`, the resolved relative offset, sign-extended (R29). -/
  addrRel      : Addr
  /-- The fetched operand byte (R30). -/
  fetched      : Byte
  /-- Remaining cycles of the in-flight instruction (R31). -/
  cycles       : Nat
  /-- Latch of a `reset` event (R33). -/
  resetPending : Bool
  /-- Latch of an `nmi` event (R33). -/
  nmiPending   : Bool
  /-- Latch of an `irq` event (R33). -/
  irqPending   : Bool
  /-- Whether a bus is attached (R34): constant during a run. -/
  busConnected : Bool
  /-- The bytes on the base bus (R58). -/
  mem          : Memory
deriving DecidableEq, Repr

/-- Why the machine faults. -/
inductive Fault where
  /-- `NoBus` (R55, R219): raised by a fetch tick, and by any instruction's meaning, when no bus is
  connected. It is the machine's only fault, and the spec's own. Safe. -/
  | noBus
deriving DecidableEq, Repr

/-- Why the model gives a term no meaning. -/
inductive Refusal where
  /-- Raised by an arm of `exec` for an instruction that has no meaning yet. No arm raises it. Safe. -/
  | notModelled (mnemonic : String)
  /-- Raised by a meaning for an ill-formed term: an operation with a mode that the opcode table does
  not pair it with, or ILL with a byte that is not unused (R95; "refuse", I15 of
  spec/93_implementation_defined.md). No bytes decode to such a term, so no step raises it. Safe. -/
  | unpairedMode
deriving DecidableEq, Repr

/-- The three outcomes of a step (R7). -/
abbrev Result := Host.Outcome State Fault Refusal

/-- The power-on state (R36, R240), ready for its first fetch tick. It is also the state in which the
reset sequence and its ticks leave a power-on machine whose reset vector is zero (R247). -/
def State.reset : State where
  a            := 0x00
  x            := 0x00
  y            := 0x00
  sp           := 0xFD
  pc           := 0x0000
  p            := 0x24
  opcode       := 0x00
  addrAbs      := 0x0000
  addrRel      := 0x0000
  fetched      := 0x00
  cycles       := 0
  resetPending := false
  nmiPending   := false
  irqPending   := false
  busConnected := true
  mem          := []

end Sys2Proof.Machine
end

