-- ==== Sys2Proof/Machine/Flags.lean ====
section
/-! DEFINITION. The status register: bit positions (R15), reads and writes of one flag and of all of P
(R25), SetZN (R24), and the flag and result computations of the arithmetic, compare, shift and rotate
operations, each over exact integers or single bits as the spec writes them. -/

namespace Sys2Proof.Machine

open Sys2Proof

/-- The bit of P that holds a flag (R15). -/
def Flag.position : Flag → Nat
  | .c => 0 | .z => 1 | .i => 2 | .d => 3 | .b => 4 | .u => 5 | .v => 6 | .n => 7

/-- The mask of a flag (R15). -/
def Flag.mask (f : Flag) : Byte := 1#8 <<< f.position

/-- One flag of a status byte. -/
def flagOf (f : Flag) (p : Byte) : Bool := p.getLsbD f.position

/-- A status byte with one flag written; the other bits stay (R25). -/
def withFlag (f : Flag) (value : Bool) (p : Byte) : Byte :=
  if value then p ||| f.mask else p &&& ~~~ f.mask

/-- `P.f` (R6). -/
def State.flag (s : State) (f : Flag) : Bool := flagOf f s.p

/-- `P.f <- value`: changes bit `f` only (R25). -/
def State.setFlag (f : Flag) (value : Bool) (s : State) : State := { s with p := withFlag f value s.p }

/-- The byte that a whole-register write of P stores: `v OR 0x20` (R25). -/
def statusOf (v : Byte) : Byte := v ||| Flag.u.mask

/-- `P <- v`, a whole-register write (R25): PLP, RTI. -/
def State.loadP (v : Byte) (s : State) : State := { s with p := statusOf v }

/-- `SetZN(v)` (R24). -/
def State.setZN (v : Byte) (s : State) : State := (s.setFlag .z (v == 0)).setFlag .n v.msb

/-- The status byte that PHP and BRK push: B and U forced to 1 (R171, R184). -/
def pushedByInstruction (p : Byte) : Byte := p ||| (Flag.b.mask ||| Flag.u.mask)

/-- The status byte that the IRQ and NMI sequences push: B = 0, U = 1 (R216). -/
def pushedBySignal (p : Byte) : Byte := (p &&& ~~~ Flag.b.mask) ||| Flag.u.mask

/-- `A + m + P.C` as an exact integer (R120). -/
def sumExact (a m : Byte) (carry : Bool) : Nat := a.toNat + m.toNat + carry.toNat

/-- `sum[7:0]` (R120). -/
def sumResult (a m : Byte) (carry : Bool) : Byte := BitVec.ofNat 8 (sumExact a m carry)

/-- `P.C` after an addition: the exact sum does not fit eight bits (R120). -/
def sumCarry (a m : Byte) (carry : Bool) : Bool := decide (sumExact a m carry > 0xFF)

/-- `P.V` after an addition: the addends have one sign and the result the other (R120). -/
def sumOverflow (a m : Byte) (carry : Bool) : Bool :=
  a.msb == m.msb && (sumResult a m carry).msb != a.msb

/-- One's complement of an operand, which SBC adds (R121). -/
def complement (m : Byte) : Byte := m ^^^ 0xFF

/-- `P.C` after a compare: `reg >= m`, unsigned (R153). -/
def compareCarry (reg m : Byte) : Bool := decide (reg.toNat ≥ m.toNat)

/-- Result of ASL: bits 6:0 move to 7:1, bit 0 is 0 (R130). -/
def shiftLeft (m : Byte) : Byte := m <<< 1

/-- Result of LSR: bits 7:1 move to 6:0, bit 7 is 0 (R131). -/
def shiftRight (m : Byte) : Byte := m >>> 1

/-- Result of ROL: as ASL, bit 0 from the old Carry (R132). -/
def rotateLeft (m : Byte) (carry : Bool) : Byte := shiftLeft m ||| (if carry then 0x01 else 0x00)

/-- Result of ROR: as LSR, bit 7 from the old Carry (R133). -/
def rotateRight (m : Byte) (carry : Bool) : Byte := shiftRight m ||| (if carry then 0x80 else 0x00)

end Sys2Proof.Machine
end

