-- ==== Sys2Proof/Machine/Ops.lean ====
section
/-! DEFINITION. The named operations over memory and registers: the parameters' values (R4), the cells
of the base bus (R41, R42, R58), `Read16` (R44), the stack (R48, R49), fetching an instruction
(R53, R72), the test of the bus condition (R55), taking an exception and returning from one (R184,
R216, R218), and the extra-cycle addition and decrement of `cycles` (R73, R74). -/

namespace Sys2Proof.Machine

open Sys2Proof

/-- The values of the parameters of R4: the spec's decisions D2, D3 and the defaults of D12. -/
def params : Params where
  stackBase   := 0x0100
  vecNmi      := 0xFFFA
  vecReset    := 0xFFFC
  vecIrq      := 0xFFFE
  intCycles   := 7
  resetCycles := 7

/-- What a cell that is not listed holds: `0x00`, "zero-initialized" (R58). -/
def blankByte : Byte := 0x00

/-- The byte at an address. The list is in rising order, so the search stops at a greater address. -/
def Memory.read : Memory → Nat → Byte
  | [], _ => blankByte
  | (k, v) :: m, n => if n < k then blankByte else if n = k then v else Memory.read m n

/-- The memory with one byte written, again in canonical form: in order, and no blank byte listed. -/
def Memory.write : Memory → Nat → Byte → Memory
  | [], n, v => if v = blankByte then [] else [(n, v)]
  | (k, w) :: m, n, v =>
    if n < k then (if v = blankByte then (k, w) :: m else (n, v) :: (k, w) :: m)
    else if n = k then (if v = blankByte then m else (n, v) :: m)
    else (k, w) :: Memory.write m n v

/-- Every address of the list is above a bound, the addresses rise, none is beyond the address space,
and no listed byte is blank. -/
def Memory.wfFrom : Nat → Memory → Bool
  | _, [] => true
  | low, (k, v) :: m => decide (low ≤ k) && decide (k < 65536) && v != blankByte && Memory.wfFrom (k + 1) m

/-- The canonical form, so that equal memories are equal lists. -/
def Memory.wf (m : Memory) : Bool := Memory.wfFrom 0 m

/-- `MemRead(addr, 1)` with the bus connected (R41). On the base bus it is also the probe read, which
has no side effect (R43). -/
def State.read (s : State) (addr : Addr) : Byte := Memory.read s.mem addr.toNat

/-- `MemWrite(addr, 1, v)` with the bus connected (R42). -/
def State.write (addr : Addr) (v : Byte) (s : State) : State :=
  { s with mem := Memory.write s.mem addr.toNat v }

/-- `Read16(addr)`: little-endian (R44). -/
def State.read16 (s : State) (addr : Addr) : Addr := word (s.read (addr + 1)) (s.read addr)

/-- The cell that a stack pointer value indexes: `STACK_BASE + zext_16(SP)` (R48). -/
def stackCell (sp : Byte) : Addr := params.stackBase + zext sp

/-- `Push(v)`: write, then decrement (R48). -/
def State.push (v : Byte) (s : State) : State :=
  { s.write (stackCell s.sp) v with sp := s.sp - 1 }

/-- The byte that `Pull()` returns (R49). -/
def State.pulled (s : State) : Byte := s.read (stackCell (s.sp + 1))

/-- What `Pull()` does to SP: increment (R49). -/
def State.pull (s : State) : State := { s with sp := s.sp + 1 }

/-- Push of an address: high byte, then low byte (R48, R181, R216). -/
def State.pushAddr (addr : Addr) (s : State) : State := (s.push (highByte addr)).push (lowByte addr)

/-- The address that two pulls give: low byte, then high byte (R49, R182). -/
def State.pulledAddr (s : State) : Addr := word s.pull.pulled s.pulled

/-- What two pulls do to SP. -/
def State.pullAddr (s : State) : State := s.pull.pull

/-- TAKING AN EXCEPTION, the part BRK, IRQ and NMI share (R184, R216): push the return address and a
status byte, set Interrupt-disable, load PC from the vector. -/
def State.takeException (ret : Addr) (status : Byte) (vector : Addr) (s : State) : State :=
  let s := ((s.pushAddr ret).push status).setFlag .i true
  { s with pc := s.read16 vector }

/-- RETURNING FROM AN EXCEPTION (R183, R218): pull P, then PC. -/
def State.returnFromException (s : State) : State :=
  let s := s.pull.loadP s.pulled
  { s.pullAddr with pc := s.pulledAddr }

/-- The instruction whose bytes lie at PC and the addresses after it, modulo 65536 (R53, R60, R72). -/
def State.fetchInstr (s : State) : Instr :=
  decodeBytes (s.read s.pc) (s.read (s.pc + 1)) (s.read (s.pc + 2))

/-- A sequence that accesses the bus: the next state where a bus is connected, else `NoBus` (R55: "A
model may therefore test `bus_connected` once at the start of a fetch tick"). -/
def onBus (s : State) (next : State) : Result :=
  if s.busConnected then .next next else .fault .noBus

/-- The decrement that ends every tick (R74). -/
def tickDown : Result → Result
  | .next s => .next { s with cycles := s.cycles - 1 }
  | .fault r => .fault r
  | .refused r => .refused r

/-- Bytes stored at ascending addresses modulo 65536: how a program comes into memory (R54, R242). -/
def State.place (addr : Addr) : List Byte → State → State
  | [], s => s
  | b :: bs, s => State.place (addr + 1) bs (s.write addr b)

/-- The machine about to run, in its next step, the instruction whose bytes are `bytes`: a bus
connected, no instruction in flight, no signal pending, the bytes at PC. -/
def State.readyToRun (bytes : List Byte) (s : State) : State :=
  State.place s.pc bytes
    { s with cycles := 0, resetPending := false, nmiPending := false, irqPending := false,
             busConnected := true }

end Sys2Proof.Machine
end

