-- ==== Sys2Proof/Machine/Operands.lean ====
section
/-! DEFINITION. The twelve addressing modes (spec/41_addressing_modes.md), the operand fetch and the
write-back (R93, R94), and the frame that every instruction runs in (R72, R73): opcode latch, PC past
the opcode, `cycles` loaded, resolver, operation, extra-cycle addition. The operand bytes stand in the
instruction, where the fetch has put them, so a resolver moves PC past them and does not read them
again (log entry 3). -/

namespace Sys2Proof.Machine

open Sys2Proof

/-- Indirect: the address read through a pointer, whose second byte comes from the start of the same
page where the pointer's low byte is `0xFF` (R90). -/
def State.throughPointer (s : State) (ptr : Addr) : Addr :=
  let lo := s.read ptr
  let hi := if lowByte ptr = 0xFF then s.read (word (highByte ptr) 0x00) else s.read (ptr + 1)
  word hi lo

/-- The address that two pointer bytes in page 0 hold, the second wrapped within page 0 (R91, R92). -/
def State.throughZeroPage (s : State) (t : Byte) : Addr :=
  word (s.read (zext (t + 1))) (s.read (zext t))

/-- The address that a resolver leaves in `addr_abs`, in the state the resolver sees (PC past the
opcode byte): R82 to R85, R87 to R92. Implied and Relative leave it as it is (R81, R86). -/
def effAddr : Operand → State → Addr
  | .imp, s => s.addrAbs
  | .imm _, s => s.pc
  | .zp0 b, _ => zext b
  | .zpx b, s => zext (b + s.x)
  | .zpy b, s => zext (b + s.y)
  | .rel _, s => s.addrAbs
  | .abs w, _ => w
  | .abx w, s => w + zext s.x
  | .aby w, s => w + zext s.y
  | .ind w, s => s.throughPointer w
  | .izx b, s => s.throughZeroPage (b + s.x)
  | .izy b, s => s.throughZeroPage b + zext s.y

/-- The flag a resolver returns: 1 from Absolute,X, Absolute,Y and (Indirect),Y where the index
addition changes the page (R88, R89, R92), 0 from the other nine (R80). -/
def pageCross : Operand → State → Bool
  | .abx w, s => page (w + zext s.x) != page w
  | .aby w, s => page (w + zext s.y) != page w
  | .izy b, s => page (s.throughZeroPage b + zext s.y) != page (s.throughZeroPage b)
  | _, _ => false

/-- The mode resolver (R80 to R92): PC past the operand bytes, and `fetched`, `addr_rel` or `addr_abs`
written. -/
def resolve (o : Operand) (s : State) : State :=
  match o with
  | .imp => { s with fetched := s.a }
  | .rel d => { s with addrRel := sext d, pc := s.pc + 1 }
  | .abs w => { s with addrAbs := effAddr (.abs w) s, pc := s.pc + 2 }
  | .abx w => { s with addrAbs := effAddr (.abx w) s, pc := s.pc + 2 }
  | .aby w => { s with addrAbs := effAddr (.aby w) s, pc := s.pc + 2 }
  | .ind w => { s with addrAbs := effAddr (.ind w) s, pc := s.pc + 2 }
  | .imm b => { s with addrAbs := effAddr (.imm b) s, pc := s.pc + 1 }
  | .zp0 b => { s with addrAbs := effAddr (.zp0 b) s, pc := s.pc + 1 }
  | .zpx b => { s with addrAbs := effAddr (.zpx b) s, pc := s.pc + 1 }
  | .zpy b => { s with addrAbs := effAddr (.zpy b) s, pc := s.pc + 1 }
  | .izx b => { s with addrAbs := effAddr (.izx b) s, pc := s.pc + 1 }
  | .izy b => { s with addrAbs := effAddr (.izy b) s, pc := s.pc + 1 }

/-- The operand byte `m` of an operation: A in Implied mode, the byte itself in Immediate mode, else
the byte at the effective address (R62, R93). -/
def operandByte (o : Operand) (s : State) : Byte :=
  match o with
  | .imp => s.a
  | .imm b => b
  | o => s.read (effAddr o s)

/-- `Fetch()` after the resolver has run (R93): nothing in Implied mode, where `fetched` already holds
A; else `fetched` takes the byte at `addr_abs`, which in Immediate mode is the operand byte itself. -/
def fetchOperand (o : Operand) (s : State) : State :=
  match o with
  | .imp => s
  | .imm b => { s with fetched := b }
  | _ => { s with fetched := s.read s.addrAbs }

/-- `WriteBack(v)` (R94): to A in Implied mode, else to the byte at `addr_abs`. -/
def writeBack (o : Operand) (v : Byte) (s : State) : State :=
  match o with
  | .imp => { s with a := v }
  | _ => s.write s.addrAbs v

/-- The first lines of FetchExecute (R72): the opcode latched, PC past it, `cycles` loaded with the
base count of its descriptor. -/
def beginInstr (opcode : Byte) (s : State) : State :=
  { s with opcode := opcode, pc := s.pc + 1, cycles := (desc opcode).baseCycles }

/-- The last line of FetchExecute (R72, R73): one more cycle where both flags are 1. -/
def addExtraCycle (modeFlag opFlag : Bool) (s : State) : State :=
  { s with cycles := s.cycles + (modeFlag && opFlag).toNat }

/-- FetchExecute of an instruction whose operation handler is `operate` (R72), in a state at a fetch
tick, PC at the opcode byte. -/
def runInstr (i : Instr) (operate : State → State) (s : State) : Result :=
  match i.opcodeByte with
  | none => .refused .unpairedMode
  | some opcode =>
    onBus s (addExtraCycle (pageCross i.operand s) (opExtra i.operation)
      (operate (resolve i.operand (beginInstr opcode s))))

end Sys2Proof.Machine
end

