-- ==== Sys2Proof/Machine/Arith.lean ====
section
/-! DEFINITION. Arithmetic and logic (spec/43_arithmetic_logic.md). Binary whatever P.D holds (R126).
Each instruction has its operation
handler, which runs after the mode resolver, and its meaning, which runs the handler in the frame of
`runInstr`. -/

namespace Sys2Proof.Machine

open Sys2Proof

/-- The addition that ADC and SBC share (R120, R121): C, V, A, then Z and N, all from the values
before the write. -/
def addToA (m : Byte) (s : State) : State :=
  let r := sumResult s.a m (s.flag .c)
  let s' := (s.setFlag .c (sumCarry s.a m (s.flag .c))).setFlag .v (sumOverflow s.a m (s.flag .c))
  State.setZN r { s' with a := r }

/-- A logical result in A, with Z and N (R122, R123, R124). -/
def logicToA (r : Byte) (s : State) : State := State.setZN r { s with a := r }

/-- ADC (R120): `A <- A + m + P.C`. -/
def opAdc (o : Operand) (s : State) : State :=
  let s := fetchOperand o s
  addToA s.fetched s

/-- Meaning of ADC (R120). -/
def execAdc (o : Operand) (s : State) : Result := runInstr (.adc o) (opAdc o) s

/-- SBC (R121): ADC of the one's complement of the operand. -/
def opSbc (o : Operand) (s : State) : State :=
  let s := fetchOperand o s
  addToA (complement s.fetched) s

/-- Meaning of SBC (R121). -/
def execSbc (o : Operand) (s : State) : Result := runInstr (.sbc o) (opSbc o) s

/-- AND (R122): `A <- A AND Fetch()`. -/
def opAnd (o : Operand) (s : State) : State :=
  let s := fetchOperand o s
  logicToA (s.a &&& s.fetched) s

/-- Meaning of AND (R122). -/
def execAnd (o : Operand) (s : State) : Result := runInstr (.and o) (opAnd o) s

/-- ORA (R123): `A <- A OR Fetch()`. -/
def opOra (o : Operand) (s : State) : State :=
  let s := fetchOperand o s
  logicToA (s.a ||| s.fetched) s

/-- Meaning of ORA (R123). -/
def execOra (o : Operand) (s : State) : Result := runInstr (.ora o) (opOra o) s

/-- EOR (R124): `A <- A XOR Fetch()`. -/
def opEor (o : Operand) (s : State) : State :=
  let s := fetchOperand o s
  logicToA (s.a ^^^ s.fetched) s

/-- Meaning of EOR (R124). -/
def execEor (o : Operand) (s : State) : Result := runInstr (.eor o) (opEor o) s

/-- BIT (R125): Z from `A AND m`, V and N from bits 6 and 7 of `m`. -/
def opBit (o : Operand) (s : State) : State :=
  let s := fetchOperand o s
  let m := s.fetched
  ((s.setFlag .z (s.a &&& m == 0)).setFlag .v (m.getLsbD 6)).setFlag .n (m.getLsbD 7)

/-- Meaning of BIT (R125). -/
def execBit (o : Operand) (s : State) : Result := runInstr (.bit o) (opBit o) s

end Sys2Proof.Machine
end

