-- ==== Sys2Proof/Machine/CompareBranch.lean ====
section
/-! DEFINITION. Compare and branch (spec/45_compare_branch.md).
Each instruction has its operation
handler, which runs after the mode resolver, and its meaning, which runs the handler in the frame of
`runInstr`. -/

namespace Sys2Proof.Machine

open Sys2Proof

/-- `Compare(reg)` with the operand already in `fetched` (R153). -/
def compareWith (reg : Byte) (s : State) : State :=
  let m := s.fetched
  ((s.setFlag .c (compareCarry reg m)).setFlag .z (reg == m)).setFlag .n (reg - m).msb

/-- `Branch(cond)` (R154): PC is the address of the following instruction, and its page is the page
that the target's is compared with. -/
def branchIf (cond : Bool) (s : State) : State :=
  let target := s.pc + s.addrRel
  let otherPage := page target != page s.pc
  if cond then { s with pc := target, cycles := s.cycles + 1 + otherPage.toNat } else s

/-- CMP (R150): `Compare(A)`. -/
def opCmp (o : Operand) (s : State) : State :=
  let s := fetchOperand o s
  compareWith s.a s

/-- Meaning of CMP (R150). -/
def execCmp (o : Operand) (s : State) : Result := runInstr (.cmp o) (opCmp o) s

/-- CPX (R151): `Compare(X)`. -/
def opCpx (o : Operand) (s : State) : State :=
  let s := fetchOperand o s
  compareWith s.x s

/-- Meaning of CPX (R151). -/
def execCpx (o : Operand) (s : State) : Result := runInstr (.cpx o) (opCpx o) s

/-- CPY (R152): `Compare(Y)`. -/
def opCpy (o : Operand) (s : State) : State :=
  let s := fetchOperand o s
  compareWith s.y s

/-- Meaning of CPY (R152). -/
def execCpy (o : Operand) (s : State) : Result := runInstr (.cpy o) (opCpy o) s

/-- BCC (R155): `Branch(P.C == 0)`. -/
def opBcc (s : State) : State :=
  branchIf (!s.flag .c) s

/-- Meaning of BCC (R155). -/
def execBcc (offset : Byte) (s : State) : Result := runInstr (.bcc offset) opBcc s

/-- BCS (R156): `Branch(P.C == 1)`. -/
def opBcs (s : State) : State :=
  branchIf (s.flag .c) s

/-- Meaning of BCS (R156). -/
def execBcs (offset : Byte) (s : State) : Result := runInstr (.bcs offset) opBcs s

/-- BEQ (R157): `Branch(P.Z == 1)`. -/
def opBeq (s : State) : State :=
  branchIf (s.flag .z) s

/-- Meaning of BEQ (R157). -/
def execBeq (offset : Byte) (s : State) : Result := runInstr (.beq offset) opBeq s

/-- BMI (R158): `Branch(P.N == 1)`. -/
def opBmi (s : State) : State :=
  branchIf (s.flag .n) s

/-- Meaning of BMI (R158). -/
def execBmi (offset : Byte) (s : State) : Result := runInstr (.bmi offset) opBmi s

/-- BNE (R159): `Branch(P.Z == 0)`. -/
def opBne (s : State) : State :=
  branchIf (!s.flag .z) s

/-- Meaning of BNE (R159). -/
def execBne (offset : Byte) (s : State) : Result := runInstr (.bne offset) opBne s

/-- BPL (R160): `Branch(P.N == 0)`. -/
def opBpl (s : State) : State :=
  branchIf (!s.flag .n) s

/-- Meaning of BPL (R160). -/
def execBpl (offset : Byte) (s : State) : Result := runInstr (.bpl offset) opBpl s

/-- BVC (R161): `Branch(P.V == 0)`. -/
def opBvc (s : State) : State :=
  branchIf (!s.flag .v) s

/-- Meaning of BVC (R161). -/
def execBvc (offset : Byte) (s : State) : Result := runInstr (.bvc offset) opBvc s

/-- BVS (R162): `Branch(P.V == 1)`. -/
def opBvs (s : State) : State :=
  branchIf (s.flag .v) s

/-- Meaning of BVS (R162). -/
def execBvs (offset : Byte) (s : State) : Result := runInstr (.bvs offset) opBvs s

end Sys2Proof.Machine
end

