-- ==== Sys2Proof/Machine/FlagOps.lean ====
section
/-! DEFINITION. Flag set and clear (spec/48_flags.md). Each instruction has its operation
handler, which runs after the mode resolver, and its meaning, which runs the handler in the frame of
`runInstr`. -/

namespace Sys2Proof.Machine

open Sys2Proof

/-- CLC (R190): `P.C <- 0`. -/
def opClc (s : State) : State :=
  s.setFlag .c false

/-- Meaning of CLC (R190). -/
def execClc (s : State) : Result := runInstr .clc opClc s

/-- CLD (R191): `P.D <- 0`. -/
def opCld (s : State) : State :=
  s.setFlag .d false

/-- Meaning of CLD (R191). -/
def execCld (s : State) : Result := runInstr .cld opCld s

/-- CLI (R192): `P.I <- 0`. -/
def opCli (s : State) : State :=
  s.setFlag .i false

/-- Meaning of CLI (R192). -/
def execCli (s : State) : Result := runInstr .cli opCli s

/-- CLV (R193): `P.V <- 0`. -/
def opClv (s : State) : State :=
  s.setFlag .v false

/-- Meaning of CLV (R193). -/
def execClv (s : State) : Result := runInstr .clv opClv s

/-- SEC (R194): `P.C <- 1`. -/
def opSec (s : State) : State :=
  s.setFlag .c true

/-- Meaning of SEC (R194). -/
def execSec (s : State) : Result := runInstr .sec opSec s

/-- SED (R195): `P.D <- 1`. -/
def opSed (s : State) : State :=
  s.setFlag .d true

/-- Meaning of SED (R195). -/
def execSed (s : State) : Result := runInstr .sed opSed s

/-- SEI (R196): `P.I <- 1`. -/
def opSei (s : State) : State :=
  s.setFlag .i true

/-- Meaning of SEI (R196). -/
def execSei (s : State) : Result := runInstr .sei opSei s

end Sys2Proof.Machine
end

