-- ==== Sys2Proof/Machine/Jump.lean ====
section
/-! DEFINITION. Jump, subroutine, return and break (spec/47_jump_subroutine.md). BRK takes an
exception and RTI returns from one through the shared operations of Sys2Proof/Machine/Ops.lean. Each instruction has its operation
handler, which runs after the mode resolver, and its meaning, which runs the handler in the frame of
`runInstr`. -/

namespace Sys2Proof.Machine

open Sys2Proof

/-- JMP (R180): `PC <- addr_abs`. -/
def opJmp (s : State) : State :=
  { s with pc := s.addrAbs }

/-- Meaning of JMP (R180). -/
def execJmp (o : Operand) (s : State) : Result := runInstr (.jmp o) opJmp s

/-- JSR (R181): push PC - 1, the address of its own last byte, then `PC <- addr_abs`. -/
def opJsr (s : State) : State :=
  let s := s.pushAddr (s.pc - 1)
  { s with pc := s.addrAbs }

/-- Meaning of JSR (R181). -/
def execJsr (target : Addr) (s : State) : Result := runInstr (.jsr target) opJsr s

/-- RTS (R182): PC <- the pulled address + 1. -/
def opRts (s : State) : State :=
  { s.pullAddr with pc := s.pulledAddr + 1 }

/-- Meaning of RTS (R182). -/
def execRts (s : State) : Result := runInstr .rts opRts s

/-- RTI (R183): pull P, then PC, with no + 1. -/
def opRti (s : State) : State :=
  s.returnFromException

/-- Meaning of RTI (R183). -/
def execRti (s : State) : Result := runInstr .rti opRti s

/-- BRK (R184): skip the padding byte, then enter through VEC_IRQ with B = 1 in the pushed status. -/
def opBrk (s : State) : State :=
  let s := { s with pc := s.pc + 1 }
  s.takeException s.pc (pushedByInstruction s.p) params.vecIrq

/-- Meaning of BRK (R184). -/
def execBrk (s : State) : Result := runInstr .brk opBrk s

end Sys2Proof.Machine
end

