-- ==== Sys2Proof/Machine/LoadStore.lean ====
section
/-! DEFINITION. Load, store and transfer (spec/42_load_store_transfer.md). Each instruction has its operation
handler, which runs after the mode resolver, and its meaning, which runs the handler in the frame of
`runInstr`. -/

namespace Sys2Proof.Machine

open Sys2Proof

/-- LDA (R100): `A <- Fetch(); SetZN(A)`. -/
def opLda (o : Operand) (s : State) : State :=
  let s := fetchOperand o s
  (State.setZN s.fetched { s with a := s.fetched })

/-- Meaning of LDA (R100). -/
def execLda (o : Operand) (s : State) : Result := runInstr (.lda o) (opLda o) s

/-- LDX (R101): `X <- Fetch(); SetZN(X)`. -/
def opLdx (o : Operand) (s : State) : State :=
  let s := fetchOperand o s
  (State.setZN s.fetched { s with x := s.fetched })

/-- Meaning of LDX (R101). -/
def execLdx (o : Operand) (s : State) : Result := runInstr (.ldx o) (opLdx o) s

/-- LDY (R102): `Y <- Fetch(); SetZN(Y)`. -/
def opLdy (o : Operand) (s : State) : State :=
  let s := fetchOperand o s
  (State.setZN s.fetched { s with y := s.fetched })

/-- Meaning of LDY (R102). -/
def execLdy (o : Operand) (s : State) : Result := runInstr (.ldy o) (opLdy o) s

/-- STA (R103): `MemWrite(addr_abs, 1, A)`, no flag. -/
def opSta (s : State) : State :=
  s.write s.addrAbs s.a

/-- Meaning of STA (R103). -/
def execSta (o : Operand) (s : State) : Result := runInstr (.sta o) opSta s

/-- STX (R104): `MemWrite(addr_abs, 1, X)`, no flag. -/
def opStx (s : State) : State :=
  s.write s.addrAbs s.x

/-- Meaning of STX (R104). -/
def execStx (o : Operand) (s : State) : Result := runInstr (.stx o) opStx s

/-- STY (R105): `MemWrite(addr_abs, 1, Y)`, no flag. -/
def opSty (s : State) : State :=
  s.write s.addrAbs s.y

/-- Meaning of STY (R105). -/
def execSty (o : Operand) (s : State) : Result := runInstr (.sty o) opSty s

/-- TAX (R106): `X <- A; SetZN(X)`. -/
def opTax (s : State) : State :=
  State.setZN s.a { s with x := s.a }

/-- Meaning of TAX (R106). -/
def execTax (s : State) : Result := runInstr .tax opTax s

/-- TAY (R107): `Y <- A; SetZN(Y)`. -/
def opTay (s : State) : State :=
  State.setZN s.a { s with y := s.a }

/-- Meaning of TAY (R107). -/
def execTay (s : State) : Result := runInstr .tay opTay s

/-- TXA (R108): `A <- X; SetZN(A)`. -/
def opTxa (s : State) : State :=
  State.setZN s.x { s with a := s.x }

/-- Meaning of TXA (R108). -/
def execTxa (s : State) : Result := runInstr .txa opTxa s

/-- TYA (R109): `A <- Y; SetZN(A)`. -/
def opTya (s : State) : State :=
  State.setZN s.y { s with a := s.y }

/-- Meaning of TYA (R109). -/
def execTya (s : State) : Result := runInstr .tya opTya s

/-- TSX (R110): `X <- SP; SetZN(X)`. -/
def opTsx (s : State) : State :=
  State.setZN s.sp { s with x := s.sp }

/-- Meaning of TSX (R110). -/
def execTsx (s : State) : Result := runInstr .tsx opTsx s

/-- TXS (R111): `SP <- X`, no flag. -/
def opTxs (s : State) : State :=
  { s with sp := s.x }

/-- Meaning of TXS (R111). -/
def execTxs (s : State) : Result := runInstr .txs opTxs s

end Sys2Proof.Machine
end

