-- ==== Sys2Proof/Machine/NopIll.lean ====
section
/-! DEFINITION. NOP and the unused opcodes (spec/49_nop_illegal.md). Each instruction has its operation
handler, which runs after the mode resolver, and its meaning, which runs the handler in the frame of
`runInstr`. -/

namespace Sys2Proof.Machine

open Sys2Proof

/-- NOP (R200): nothing beyond what every fetch tick writes. -/
def opNop (s : State) : State :=
  s

/-- Meaning of NOP (R200). -/
def execNop (s : State) : Result := runInstr .nop opNop s

/-- ILL (R201): the same no-op; only the base count differs (R65). -/
def opIll (s : State) : State :=
  s

/-- Meaning of ILL (R201). -/
def execIll (opcode : Byte) (s : State) : Result := runInstr (.ill opcode) opIll s

end Sys2Proof.Machine
end

