-- ==== Sys2Proof/Machine/Shift.lean ====
section
/-! DEFINITION. Shift, rotate, increment and decrement (spec/44_shift_rotate_incdec.md).
Each instruction has its operation
handler, which runs after the mode resolver, and its meaning, which runs the handler in the frame of
`runInstr`. -/

namespace Sys2Proof.Machine

open Sys2Proof

/-- The end that the four shifts share (R130 to R133): C, then Z and N from the result, then the
result written back. -/
def shiftTo (o : Operand) (carry : Bool) (r : Byte) (s : State) : State :=
  writeBack o r (State.setZN r (s.setFlag .c carry))

/-- The end that INC and DEC share (R134, R137): the result written to `addr_abs`, then Z and N. -/
def stepMemory (r : Byte) (s : State) : State := State.setZN r (s.write s.addrAbs r)

/-- ASL (R130): one bit to the left, 0 in, bit 7 to Carry. -/
def opAsl (o : Operand) (s : State) : State :=
  let s := fetchOperand o s
  shiftTo o s.fetched.msb (shiftLeft s.fetched) s

/-- Meaning of ASL (R130). -/
def execAsl (o : Operand) (s : State) : Result := runInstr (.asl o) (opAsl o) s

/-- LSR (R131): one bit to the right, 0 in, bit 0 to Carry. -/
def opLsr (o : Operand) (s : State) : State :=
  let s := fetchOperand o s
  shiftTo o (s.fetched.getLsbD 0) (shiftRight s.fetched) s

/-- Meaning of LSR (R131). -/
def execLsr (o : Operand) (s : State) : Result := runInstr (.lsr o) (opLsr o) s

/-- ROL (R132): one bit to the left, old Carry in, bit 7 to Carry. -/
def opRol (o : Operand) (s : State) : State :=
  let s := fetchOperand o s
  shiftTo o s.fetched.msb (rotateLeft s.fetched (s.flag .c)) s

/-- Meaning of ROL (R132). -/
def execRol (o : Operand) (s : State) : Result := runInstr (.rol o) (opRol o) s

/-- ROR (R133): one bit to the right, old Carry in, bit 0 to Carry. -/
def opRor (o : Operand) (s : State) : State :=
  let s := fetchOperand o s
  shiftTo o (s.fetched.getLsbD 0) (rotateRight s.fetched (s.flag .c)) s

/-- Meaning of ROR (R133). -/
def execRor (o : Operand) (s : State) : Result := runInstr (.ror o) (opRor o) s

/-- INC (R134): `r <- Fetch() +_8 1`, to memory. -/
def opInc (o : Operand) (s : State) : State :=
  let s := fetchOperand o s
  stepMemory (s.fetched + 1) s

/-- Meaning of INC (R134). -/
def execInc (o : Operand) (s : State) : Result := runInstr (.inc o) (opInc o) s

/-- INX (R135): `X <- X +_8 1; SetZN(X)`. -/
def opInx (s : State) : State :=
  State.setZN (s.x + 1) { s with x := s.x + 1 }

/-- Meaning of INX (R135). -/
def execInx (s : State) : Result := runInstr .inx opInx s

/-- INY (R136): `Y <- Y +_8 1; SetZN(Y)`. -/
def opIny (s : State) : State :=
  State.setZN (s.y + 1) { s with y := s.y + 1 }

/-- Meaning of INY (R136). -/
def execIny (s : State) : Result := runInstr .iny opIny s

/-- DEC (R137): `r <- Fetch() -_8 1`, to memory. -/
def opDec (o : Operand) (s : State) : State :=
  let s := fetchOperand o s
  stepMemory (s.fetched - 1) s

/-- Meaning of DEC (R137). -/
def execDec (o : Operand) (s : State) : Result := runInstr (.dec o) (opDec o) s

/-- DEX (R138): `X <- X -_8 1; SetZN(X)`. -/
def opDex (s : State) : State :=
  State.setZN (s.x - 1) { s with x := s.x - 1 }

/-- Meaning of DEX (R138). -/
def execDex (s : State) : Result := runInstr .dex opDex s

/-- DEY (R139): `Y <- Y -_8 1; SetZN(Y)`. -/
def opDey (s : State) : State :=
  State.setZN (s.y - 1) { s with y := s.y - 1 }

/-- Meaning of DEY (R139). -/
def execDey (s : State) : Result := runInstr .dey opDey s

end Sys2Proof.Machine
end

