-- ==== Sys2Proof/Machine/Stack.lean ====
section
/-! DEFINITION. Stack instructions (spec/46_stack.md). Each instruction has its operation
handler, which runs after the mode resolver, and its meaning, which runs the handler in the frame of
`runInstr`. -/

namespace Sys2Proof.Machine

open Sys2Proof

/-- PHA (R170): `Push(A)`. -/
def opPha (s : State) : State :=
  s.push s.a

/-- Meaning of PHA (R170). -/
def execPha (s : State) : Result := runInstr .pha opPha s

/-- PHP (R171): `Push(P OR 0x30)`, P itself unchanged. -/
def opPhp (s : State) : State :=
  s.push (pushedByInstruction s.p)

/-- Meaning of PHP (R171). -/
def execPhp (s : State) : Result := runInstr .php opPhp s

/-- PLA (R172): `A <- Pull(); SetZN(A)`. -/
def opPla (s : State) : State :=
  State.setZN s.pulled { s.pull with a := s.pulled }

/-- Meaning of PLA (R172). -/
def execPla (s : State) : Result := runInstr .pla opPla s

/-- PLP (R173): `P <- Pull() OR 0x20`. -/
def opPlp (s : State) : State :=
  s.pull.loadP s.pulled

/-- Meaning of PLP (R173). -/
def execPlp (s : State) : Result := runInstr .plp opPlp s

end Sys2Proof.Machine
end

