-- ==== Sys2Proof/Machine/Dispatch.lean ====
section
/-! DEFINITION. The dispatch: one arm per instruction, each one direct call of its meaning (R79). -/

namespace Sys2Proof.Machine

open Sys2Proof

def exec (i : Instr) (s : State) : Host.Outcome State Fault Refusal :=
  match i with
  | .lda operand => Sys2Proof.Machine.execLda operand s
  | .ldx operand => Sys2Proof.Machine.execLdx operand s
  | .ldy operand => Sys2Proof.Machine.execLdy operand s
  | .sta operand => Sys2Proof.Machine.execSta operand s
  | .stx operand => Sys2Proof.Machine.execStx operand s
  | .sty operand => Sys2Proof.Machine.execSty operand s
  | .tax => Sys2Proof.Machine.execTax s
  | .tay => Sys2Proof.Machine.execTay s
  | .txa => Sys2Proof.Machine.execTxa s
  | .tya => Sys2Proof.Machine.execTya s
  | .tsx => Sys2Proof.Machine.execTsx s
  | .txs => Sys2Proof.Machine.execTxs s
  | .adc operand => Sys2Proof.Machine.execAdc operand s
  | .sbc operand => Sys2Proof.Machine.execSbc operand s
  | .and operand => Sys2Proof.Machine.execAnd operand s
  | .ora operand => Sys2Proof.Machine.execOra operand s
  | .eor operand => Sys2Proof.Machine.execEor operand s
  | .bit operand => Sys2Proof.Machine.execBit operand s
  | .asl operand => Sys2Proof.Machine.execAsl operand s
  | .lsr operand => Sys2Proof.Machine.execLsr operand s
  | .rol operand => Sys2Proof.Machine.execRol operand s
  | .ror operand => Sys2Proof.Machine.execRor operand s
  | .inc operand => Sys2Proof.Machine.execInc operand s
  | .inx => Sys2Proof.Machine.execInx s
  | .iny => Sys2Proof.Machine.execIny s
  | .dec operand => Sys2Proof.Machine.execDec operand s
  | .dex => Sys2Proof.Machine.execDex s
  | .dey => Sys2Proof.Machine.execDey s
  | .cmp operand => Sys2Proof.Machine.execCmp operand s
  | .cpx operand => Sys2Proof.Machine.execCpx operand s
  | .cpy operand => Sys2Proof.Machine.execCpy operand s
  | .bcc offset => Sys2Proof.Machine.execBcc offset s
  | .bcs offset => Sys2Proof.Machine.execBcs offset s
  | .beq offset => Sys2Proof.Machine.execBeq offset s
  | .bmi offset => Sys2Proof.Machine.execBmi offset s
  | .bne offset => Sys2Proof.Machine.execBne offset s
  | .bpl offset => Sys2Proof.Machine.execBpl offset s
  | .bvc offset => Sys2Proof.Machine.execBvc offset s
  | .bvs offset => Sys2Proof.Machine.execBvs offset s
  | .pha => Sys2Proof.Machine.execPha s
  | .php => Sys2Proof.Machine.execPhp s
  | .pla => Sys2Proof.Machine.execPla s
  | .plp => Sys2Proof.Machine.execPlp s
  | .jmp operand => Sys2Proof.Machine.execJmp operand s
  | .jsr target => Sys2Proof.Machine.execJsr target s
  | .rts => Sys2Proof.Machine.execRts s
  | .rti => Sys2Proof.Machine.execRti s
  | .brk => Sys2Proof.Machine.execBrk s
  | .clc => Sys2Proof.Machine.execClc s
  | .cld => Sys2Proof.Machine.execCld s
  | .cli => Sys2Proof.Machine.execCli s
  | .clv => Sys2Proof.Machine.execClv s
  | .sec => Sys2Proof.Machine.execSec s
  | .sed => Sys2Proof.Machine.execSed s
  | .sei => Sys2Proof.Machine.execSei s
  | .nop => Sys2Proof.Machine.execNop s
  | .ill opcode => Sys2Proof.Machine.execIll opcode s

end Sys2Proof.Machine
end

