-- ==== Sys2Proof/Machine/Signals.lean ====
section
/-! DEFINITION. The sequences that a fetch tick runs for a pending signal (spec/60_exceptions.md,
spec/70_reset_and_hazards.md rule R241) and the arrival of a signal (R211). -/

namespace Sys2Proof.Machine

open Sys2Proof

/-- Arrival of a `reset` event (R211). -/
def State.raiseReset (s : State) : State := { s with resetPending := true }

/-- Arrival of an `nmi` event (R211). -/
def State.raiseNmi (s : State) : State := { s with nmiPending := true }

/-- Arrival of an `irq` event (R211): the latch is set whatever P.I holds. -/
def State.raiseIrq (s : State) : State := { s with irqPending := true }

/-- `IntSeq(vec)` (R216): the pushed PC is the address of the next instruction, the pushed P has B = 0. -/
def intSeq (vector : Addr) (s : State) : State :=
  { s.takeException s.pc (pushedBySignal s.p) vector with cycles := params.intCycles }

/-- `IrqSequence` (R214). -/
def irqSequence (s : State) : Result :=
  onBus s (intSeq params.vecIrq { s with irqPending := false })

/-- `NmiSequence` (R215). `irq_pending` is left as it is (R212). -/
def nmiSequence (s : State) : Result :=
  onBus s (intSeq params.vecNmi { s with nmiPending := false })

/-- `ResetSequence` (R241): the latches cleared, the registers at their power-on values, PC from the
reset vector. `opcode`, memory and the bus condition keep their values. -/
def resetSequence (s : State) : Result :=
  onBus s { s with
    resetPending := false, nmiPending := false, irqPending := false,
    a := 0x00, x := 0x00, y := 0x00, sp := 0xFD, p := 0x24,
    addrAbs := 0x0000, addrRel := 0x0000, fetched := 0x00,
    pc := s.read16 params.vecReset, cycles := params.resetCycles }

end Sys2Proof.Machine
end

