-- ==== Sys2Proof/Machine/Tick.lean ====
section
/-! DEFINITION. The clock state machine (spec/40_clock_dispatch.md): what a tick does in
`Idle-between-instructions` (`cycles == 0`, a fetch tick) and in `Executing` (an idle tick). -/

namespace Sys2Proof.Machine

open Sys2Proof

/-- A fetch tick before its decrement (R71, R212): at most one signal sequence, in the order reset,
NMI, unmasked IRQ; else a masked IRQ request is discarded and one instruction is fetched and executed. -/
def fetchTick (s : State) : Result :=
  if s.resetPending then resetSequence s
  else if s.nmiPending then nmiSequence s
  else if s.irqPending && !s.flag .i then irqSequence s
  else exec s.fetchInstr { s with irqPending := false }

/-- `tick` (R71, R74). -/
def tick (s : State) : Result :=
  if s.cycles = 0 then tickDown (fetchTick s) else tickDown (.next s)

end Sys2Proof.Machine
end

