-- ==== Sys2Proof/Machine/Step.lean ====
section
/-! DEFINITION. One step of the machine is one `tick` event (spec/40_clock_dispatch.md rule R71). The
other three events of spec/00_scope.md rule R3 are in Sys2Proof/Machine/Events.lean. -/

namespace Sys2Proof.Machine

open Sys2Proof

/-- One step: one clock pulse. -/
def step (s : State) : Host.Outcome State Fault Refusal := tick s

/-- The state with the instruction whose bits are `w` stored at PC, where the next step fetches it:
its bytes at PC and the two addresses after it, no instruction in flight, no signal pending, the bus
connected. -/
def State.withFetchWord (s : State) (nbits w : Nat) : State := s.readyToRun (tableBytes nbits w)

end Sys2Proof.Machine
end

