-- ==== Sys2Proof/Machine/Events.lean ====
section
/-! DEFINITION. What the environment can do to the machine (spec/00_scope.md rule R3) and a run as a
sequence of events (spec/40_clock_dispatch.md rule R78). -/

namespace Sys2Proof.Machine

open Sys2Proof

/-- The four input events of R3. -/
inductive Event where
  | tick | reset | irq | nmi
deriving DecidableEq, Repr

/-- What one event does (R3, R71, R211). -/
def Event.apply : Event → State → Result
  | .tick, s => step s
  | .reset, s => .next s.raiseReset
  | .irq, s => .next s.raiseIrq
  | .nmi, s => .next s.raiseNmi

/-- A finite run, stopping at the first fault (R78, R246). -/
def runEvents : List Event → State → Result
  | [], s => .next s
  | e :: es, s =>
    match e.apply s with
    | .next s' => runEvents es s'
    | .fault r => .fault r
    | .refused r => .refused r

end Sys2Proof.Machine
end

