-- ==== Sys2Proof/Safety.lean ====
section
/-! DEFINITION. The terms that the claims about the machine use: the invariant of every reachable state
(R35), what it is for a tick to run an instruction, and short names for "these flags follow the value"
and "all other flags and cells are as before". -/

namespace Sys2Proof.Machine

open Sys2Proof

/-- The invariant of every reachable state (R21, R31, R35): memory in canonical form, P.U set, at most
seven cycles left between ticks. The widths of R35 are the types of the fields. -/
structure Inv (s : State) : Prop where
  /-- Equal memories are equal lists. -/
  memoryCanonical : s.mem.wf = true
  /-- `P.U == 1` (R21). -/
  unusedSet : s.flag .u = true
  /-- `cycles` is in 0..7 between ticks. -/
  cyclesBounded : s.cycles ≤ 7

/-- The next tick fetches and executes an instruction: no instruction is in flight, and no reset, no
NMI and no unmasked IRQ is pending (R212, item 4). -/
structure RunsInstr (s : State) : Prop where
  noneInFlight : s.cycles = 0
  noReset : s.resetPending = false
  noNmi : s.nmiPending = false
  noIrq : s.irqPending = false ∨ s.flag .i = true

/-- Z and N follow a value, as SetZN writes them (R24). -/
def FollowZN (v : Byte) (t : State) : Prop :=
  (t.flag .z = true ↔ v = 0) ∧ t.flag .n = v.getLsbD 7

/-- Every flag but the listed ones is as before. -/
def KeepFlags (written : List Flag) (s t : State) : Prop := ∀ f, f ∉ written → t.flag f = s.flag f

/-- Every cell but the listed ones reads as before. -/
def KeepCells (written : List Addr) (s t : State) : Prop := ∀ a, a ∉ written → t.read a = s.read a

/-- The stack cell that a stack pointer value indexes, in page `0x01` (R48). -/
def stackAddr (sp : Byte) : Addr := word 0x01 sp

/-- The value of `addr_abs` after the resolver, from the state before the instruction: in Immediate
mode the address after the opcode byte (R82), else the effective address, which does not depend on PC. -/
def operandAddr (o : Operand) (s : State) : Addr :=
  match o with
  | .imm _ => s.pc + 1
  | o => effAddr o s

/-- What the fetch tick of a one-byte (Implied) instruction writes before its operation (R72, R81). -/
def afterImplied (opcode : Byte) (ticks : Nat) (s : State) : State :=
  { s with opcode := opcode, pc := s.pc + 1, fetched := s.a, cycles := ticks }

/-- What the fetch tick of an instruction with an operand form writes before its operation, where the
operation fetches its operand byte (R72, R82 to R93). -/
def afterOperand (o : Operand) (opcode : Byte) (ticks : Nat) (s : State) : State :=
  { s with opcode := opcode, pc := s.pc + 1 + BitVec.ofNat 16 o.mode.operandBytes,
           addrAbs := operandAddr o s, fetched := operandByte o s, cycles := ticks }

/-- What the fetch tick of an instruction with an operand form writes before its operation, where the
operation does not fetch an operand byte (stores, JMP: R72, R93). -/
def afterAddress (o : Operand) (opcode : Byte) (ticks : Nat) (s : State) : State :=
  { s with opcode := opcode, pc := s.pc + 1 + BitVec.ofNat 16 o.mode.operandBytes,
           addrAbs := operandAddr o s, cycles := ticks }

end Sys2Proof.Machine
end

