-- ==== Sys2Proof/Certificates/Slice0/Obligations.lean ====
section
/-! DEFINITION. The statements about the machine that the provers are asked for. Each docstring says what
the statement claims; OBLIGATIONS.json holds its tier, its basis and the rules or sections it rests on.
Opcode bytes and base counts are written out from the rules. Where a statement says "the spec's own
decision D<n>", the clause rests on that entry of spec/92_eei_decisions.md. -/

namespace Sys2Proof.Machine

/-- The 105 unused opcode bytes with their base counts, the list of R65. -/
def unusedRows : List (Byte × Nat) :=
      [(0x02, 2), (0x03, 8), (0x04, 3), (0x07, 5), (0x0B, 2), (0x0C, 4), (0x0F, 6), (0x12, 2), (0x13, 8)] ++
      [(0x14, 4), (0x17, 6), (0x1A, 2), (0x1B, 7), (0x1C, 4), (0x1F, 7), (0x22, 2), (0x23, 8), (0x27, 5)] ++
      [(0x2B, 2), (0x2F, 6), (0x32, 2), (0x33, 8), (0x34, 4), (0x37, 6), (0x3A, 2), (0x3B, 7), (0x3C, 4)] ++
      [(0x3F, 7), (0x42, 2), (0x43, 8), (0x44, 3), (0x47, 5), (0x4B, 2), (0x4F, 6), (0x52, 2), (0x53, 8)] ++
      [(0x54, 4), (0x57, 6), (0x5A, 2), (0x5B, 7), (0x5C, 4), (0x5F, 7), (0x62, 2), (0x63, 8), (0x64, 3)] ++
      [(0x67, 5), (0x6B, 2), (0x6F, 6), (0x72, 2), (0x73, 8), (0x74, 4), (0x77, 6), (0x7A, 2), (0x7B, 7)] ++
      [(0x7C, 4), (0x7F, 7), (0x80, 2), (0x82, 2), (0x83, 6), (0x87, 3), (0x89, 2), (0x8B, 2), (0x8F, 4)] ++
      [(0x92, 2), (0x93, 6), (0x97, 4), (0x9B, 5), (0x9C, 5), (0x9E, 5), (0x9F, 5), (0xA3, 6), (0xA7, 3)] ++
      [(0xAB, 2), (0xAF, 4), (0xB2, 2), (0xB3, 5), (0xB7, 4), (0xBB, 4), (0xBF, 4), (0xC2, 2), (0xC3, 8)] ++
      [(0xC7, 5), (0xCB, 2), (0xCF, 6), (0xD2, 2), (0xD3, 8), (0xD4, 4), (0xD7, 6), (0xDA, 2), (0xDB, 7)] ++
      [(0xDC, 4), (0xDF, 7), (0xE2, 2), (0xE3, 8), (0xE7, 5), (0xEB, 2), (0xEF, 6), (0xF2, 2), (0xF3, 8)] ++
      [(0xF4, 4), (0xF7, 6), (0xFA, 2), (0xFB, 7), (0xFC, 4), (0xFF, 7)]

end Sys2Proof.Machine

open Sys2Proof Sys2Proof.Machine

/-- For every well-formed instruction i, with every operand at every value, and whatever bytes follow:
decoding the bytes of i followed by the rest gives i and leaves exactly the rest. The encoder follows
the table by mnemonic of rule R64 and the list of R65, the decoder the two matrices. -/
def Obligations.DecodeInvertsEncode : Prop :=
  ∀ (i : Instr) (rest : List Byte), i.wellFormed = true → decode (encode i ++ rest) = .ok (i, rest)

/-- Whatever bytes decode to an instruction i with a rest: i is well formed, and the bytes of i followed by
the rest are the bytes decoded. So no bit of an instruction is dropped, and each byte sequence has one
meaning. -/
def Obligations.EncodeInvertsDecode : Prop :=
  ∀ (bytes : List Byte) (i : Instr) (rest : List Byte), decode bytes = .ok (i, rest) →
    i.wellFormed = true ∧ encode i ++ rest = bytes

/-- Every value of byte 0 selects a descriptor: with two more bytes present, decoding gives a well-formed
instruction, consumes the opcode and the operand bytes of its mode and no other, and that instruction
never raises anything while a bus is connected: it completes in a next state from every state, with the
byte latched as opcode. -/
def Obligations.EveryOpcodeByteDecodesAndRuns : Prop :=
  ∀ (opcode b1 b2 : Byte) (rest : List Byte), ∃ i : Instr, i.wellFormed = true ∧
    decode (opcode :: b1 :: b2 :: rest) = .ok (i, (b1 :: b2 :: rest).drop i.operand.mode.operandBytes) ∧
    ∀ s : State, s.busConnected = true → ∃ t, exec i s = .next t ∧ t.opcode = opcode

/-- An Implied instruction is its opcode byte; an Immediate, zero-page, Relative or indexed-indirect one the
opcode and the operand byte; an absolute or Indirect one the opcode, the operand low byte and the
operand high byte; and the decoder takes exactly these bytes. -/
def Obligations.InstructionBytesByFormat : Prop :=
  ∀ i : Instr, i.wellFormed = true → ∃ opcode : Byte,
    (i.operand = .imp → encode i = [opcode]) ∧
    (∀ b, i.operand ∈ [.imm b, .zp0 b, .zpx b, .zpy b, .rel b, .izx b, .izy b] → encode i = [opcode, b]) ∧
    (∀ w, i.operand ∈ [.abs w, .abx w, .aby w, .ind w] →
      encode i = [opcode, BitVec.ofNat 8 w.toNat, BitVec.ofNat 8 (w.toNat / 256)]) ∧
    ∀ rest, ∃ j, decode (encode i ++ rest) = .ok (j, rest)

/-- B0 0F is BCS with offset 0F, 00 is BRK, A9 10 is LDA #$10, AD 34 12 is LDA $1234, 0A is ASL A, 96 FF is
STX $FF,Y, 6C FF 02 is JMP ($02FF), and 02 is the unused opcode 02. -/
def Obligations.SampleWordsDecode : Prop :=
  decode [0xB0, 0x0F] = .ok (.bcs 0x0F, []) ∧ decode [0x00] = .ok (.brk, []) ∧
  decode [0xA9, 0x10] = .ok (.lda (.imm 0x10), []) ∧ decode [0xAD, 0x34, 0x12] = .ok (.lda (.abs 0x1234), []) ∧
  decode [0x0A] = .ok (.asl .imp, []) ∧ decode [0x96, 0xFF] = .ok (.stx (.zpy 0xFF), []) ∧
  decode [0x6C, 0xFF, 0x02] = .ok (.jmp (.ind 0x02FF), []) ∧ decode [0x02] = .ok (.ill 0x02, [])

/-- Where no instruction is in flight and no reset, NMI or unmasked IRQ is pending, and the bytes at PC, PC
+ 1 and PC + 2 (addresses modulo 65536) decode to i, a step is exec of i with a masked IRQ request
discarded, followed by the decrement of cycles where exec gives a next state; a fault of exec is the
fault of the step. -/
def Obligations.StepRunsTheDecodedInstruction : Prop :=
  ∀ (s : State) (i : Instr) (rest : List Byte), RunsInstr s →
    decode [s.read s.pc, s.read (s.pc + 1), s.read (s.pc + 2)] = .ok (i, rest) →
    step s = tickDown (exec i { s with irqPending := false }) ∧
    (∀ t, exec i { s with irqPending := false } = .next t → step s = .next { t with cycles := t.cycles - 1 }) ∧
    (∀ r, exec i { s with irqPending := false } = .fault r → step s = .fault r)

/-- In the state Executing a tick subtracts 1 from cycles and does nothing else: no register, flag, latch,
transient variable or memory cell changes, whatever is pending, and no bus is needed. -/
def Obligations.IdleTickOnlyCountsDown : Prop :=
  ∀ s : State, 0 < s.cycles → step s = .next { s with cycles := s.cycles - 1 }

/-- Where a fetch tick executes an instruction whose FetchExecute leaves a total of n cycles, every one of
the ticks 1 to n - 1 leaves the complete effect of the instruction with n - k cycles to go, and after n
ticks cycles is 0 again and nothing else has changed. -/
def Obligations.InstructionOccupiesExactlyItsTicks : Prop :=
  ∀ (s t : State), RunsInstr s → s.busConnected = true →
    exec s.fetchInstr { s with irqPending := false } = .next t →
    Host.Core.run core t.cycles s = .next { t with cycles := 0 } ∧
    ∀ k, 1 ≤ k → k < t.cycles → Host.Core.run core k s = .next { t with cycles := t.cycles - k }

/-- Every instruction but a branch completes with the base count of its opcode, plus one cycle if and only
if its opcode is one of the 23 that rule R73 lists and its resolver returns the page-crossing flag. The
list is marked derived in the spec and rests on decision D7. -/
def Obligations.PageCrossingCycleTakenByTheListedOpcodes : Prop :=
  ∀ (i : Instr) (s : State), i.wellFormed = true → s.busConnected = true →
    i.operation ∉ [.bcc, .bcs, .beq, .bmi, .bne, .bpl, .bvc, .bvs] →
    ∃ t, exec i s = .next t ∧ t.cycles = (desc t.opcode).baseCycles +
      (if t.opcode ∈ ([0xBD, 0xB9, 0xB1, 0xBE, 0xBC, 0x7D, 0x79, 0x71, 0xFD, 0xF9, 0xF1, 0x3D, 0x39, 0x31,
          0x1D, 0x19, 0x11, 0x5D, 0x59, 0x51, 0xDD, 0xD9, 0xD1] : List Byte)
        ∧ pageCross i.operand s = true then 1 else 0)

/-- Absolute,X, Absolute,Y and (Indirect),Y report a crossing exactly where the low byte of the base plus
the index exceeds 255, also where the address wraps past 65535; the other nine modes never report one. -/
def Obligations.PageCrossIsTheCarryOfTheLowByte : Prop :=
  ∀ (s : State) (b : Byte) (w : Addr),
    (pageCross (.abx w) s = true ↔ w.toNat % 256 + s.x.toNat > 255) ∧
    (pageCross (.aby w) s = true ↔ w.toNat % 256 + s.y.toNat > 255) ∧
    (pageCross (.izy b) s = true ↔ (s.read (BitVec.ofNat 16 b.toNat)).toNat + s.y.toNat > 255) ∧
    ∀ o, o ∈ [.imp, .imm b, .zp0 b, .zpx b, .zpy b, .rel b, .abs w, .ind w, .izx b] → pageCross o s = false

/-- Every instruction of these seven modes completes with addr_abs at: the address after the opcode byte
(Immediate); the operand byte (Zero-page); the operand byte plus X or Y modulo 256, in page 0; the
operand word (Absolute); the operand word plus X or Y modulo 65536. addr_rel is unchanged. -/
def Obligations.DirectModesResolve : Prop :=
  ∀ (i : Instr) (s : State) (b : Byte) (w : Addr), i.wellFormed = true → s.busConnected = true →
    ∃ t, exec i s = .next t ∧
      (i.operand = .imm b → t.addrAbs = s.pc + 1 ∧ t.addrRel = s.addrRel) ∧
      (i.operand = .zp0 b → t.addrAbs.toNat = b.toNat ∧ t.addrRel = s.addrRel) ∧
      (i.operand = .zpx b → t.addrAbs.toNat = (b.toNat + s.x.toNat) % 256 ∧ t.addrRel = s.addrRel) ∧
      (i.operand = .zpy b → t.addrAbs.toNat = (b.toNat + s.y.toNat) % 256 ∧ t.addrRel = s.addrRel) ∧
      (i.operand = .abs w → t.addrAbs = w ∧ t.addrRel = s.addrRel) ∧
      (i.operand = .abx w → t.addrAbs.toNat = (w.toNat + s.x.toNat) % 65536 ∧ t.addrRel = s.addrRel) ∧
      (i.operand = .aby w → t.addrAbs.toNat = (w.toNat + s.y.toNat) % 65536 ∧ t.addrRel = s.addrRel)

/-- Indirect reads its low byte at the pointer and its high byte at the next address, or at the start of the
same page where the pointer's low byte is 0xFF; (Indirect,X) reads both bytes in page 0 at the operand
byte plus X, wrapped; (Indirect),Y reads both bytes in page 0 at the operand byte, wrapped, and adds Y
modulo 65536. Every instruction of these modes completes so. That (Indirect,X) and (Indirect),Y pointers
are little-endian is marked derived in the spec. -/
def Obligations.IndirectModesResolve : Prop :=
  ∀ (i : Instr) (s : State) (b : Byte) (w : Addr), i.wellFormed = true → s.busConnected = true →
    ∃ t, exec i s = .next t ∧
      (i.operand = .ind w →
        t.addrAbs = word (s.read (if w.toNat % 256 = 255 then w - 255 else w + 1)) (s.read w)) ∧
      (i.operand = .izx b →
        t.addrAbs = word (s.read (BitVec.ofNat 16 ((b.toNat + s.x.toNat + 1) % 256)))
          (s.read (BitVec.ofNat 16 ((b.toNat + s.x.toNat) % 256)))) ∧
      (i.operand = .izy b →
        t.addrAbs = word (s.read (BitVec.ofNat 16 ((b.toNat + 1) % 256))) (s.read (BitVec.ofNat 16 b.toNat))
          + BitVec.ofNat 16 s.y.toNat)

/-- Every Implied instruction completes with the accumulator from before it in fetched and addr_abs,
addr_rel unchanged. Every branch completes with its offset in addr_rel, 0x00..0x7F as it is and
0x80..0xFF as 0xFF80..0xFFFF, and addr_abs unchanged. -/
def Obligations.ImpliedAndRelativeResolve : Prop :=
  ∀ (i : Instr) (s : State), i.wellFormed = true → s.busConnected = true →
    ∃ t, exec i s = .next t ∧
      (i.operand = .imp → t.fetched = s.a ∧ t.addrAbs = s.addrAbs ∧ t.addrRel = s.addrRel) ∧
      (∀ d, i.operand = .rel d → t.addrAbs = s.addrAbs ∧ t.fetched = s.fetched ∧
        (d.toNat < 128 → t.addrRel.toNat = d.toNat) ∧ (128 ≤ d.toNat → t.addrRel.toNat = 65280 + d.toNat))

/-- For exactly the operations that call Fetch, in every mode but Implied, also Immediate: after the fetch
tick fetched holds the byte that memory held at addr_abs before the instruction, so the operand byte
that the decoded instruction carries is the byte a bus read would have returned. -/
def Obligations.FetchedOperandIsTheByteAtTheAddress : Prop :=
  ∀ (s t : State), RunsInstr s → step s = .next t →
    s.fetchInstr.operation ∈ [.lda, .ldx, .ldy, .adc, .sbc, .and, .ora, .eor, .bit, .cmp, .cpx, .cpy,
      .asl, .lsr, .rol, .ror, .inc, .dec] →
    s.fetchInstr.operand ≠ .imp → t.fetched = s.read t.addrAbs

/-- For every encoding of LDA (opcode, mode and base cycles as the rule lists them) and every operand, with
a bus connected, LDA completes: A holds the operand byte, Z and N follow it, the other flags, the other
registers, the latches and memory are unchanged, PC is past the instruction, and cycles is the base
count plus one where the mode crosses a page. -/
def Obligations.LdaLoads : Prop :=
  ∀ (s : State) (b : Byte) (w : Addr), s.busConnected = true →
    ∀ (o : Operand) (opcode : Byte) (base : Nat), (o, opcode, base) ∈
      ([(.imm b, 0xA9, 2), (.zp0 b, 0xA5, 3), (.zpx b, 0xB5, 4), (.abs w, 0xAD, 4),
       (.abx w, 0xBD, 4), (.aby w, 0xB9, 4), (.izx b, 0xA1, 6), (.izy b, 0xB1, 5)] : List (Operand × Byte × Nat)) →
      ∃ t, exec (.lda o) s = .next t ∧
        t = { afterOperand o opcode (base + (pageCross o s).toNat) s with a := operandByte o s, p := t.p } ∧
        FollowZN (operandByte o s) t ∧ KeepFlags [.z, .n] s t

/-- For every encoding of LDX and LDY and every operand, with a bus connected, the instruction completes: X
(LDX) or Y (LDY) holds the operand byte, Z and N follow it, the other flags, the other registers, the
latches and memory are unchanged, PC is past the instruction, and cycles is the base count plus one
where the mode crosses a page (LDX with Absolute,Y, LDY with Absolute,X). -/
def Obligations.LdxLdyLoad : Prop :=
  ∀ (s : State) (b : Byte) (w : Addr), s.busConnected = true →
    ∀ (i : Instr) (o : Operand) (opcode : Byte) (base : Nat), (i, o, opcode, base) ∈
      ([(.ldx (.imm b), .imm b, 0xA2, 2), (.ldx (.zp0 b), .zp0 b, 0xA6, 3),
       (.ldx (.zpy b), .zpy b, 0xB6, 4), (.ldx (.abs w), .abs w, 0xAE, 4),
       (.ldx (.aby w), .aby w, 0xBE, 4), (.ldy (.imm b), .imm b, 0xA0, 2),
       (.ldy (.zp0 b), .zp0 b, 0xA4, 3), (.ldy (.zpx b), .zpx b, 0xB4, 4),
       (.ldy (.abs w), .abs w, 0xAC, 4), (.ldy (.abx w), .abx w, 0xBC, 4)] : List (Instr × Operand × Byte × Nat)) →
      ∃ t, exec i s = .next t ∧
        (i = .ldx o → t = { afterOperand o opcode (base + (pageCross o s).toNat) s with
          x := operandByte o s, p := t.p }) ∧
        (i = .ldy o → t = { afterOperand o opcode (base + (pageCross o s).toNat) s with
          y := operandByte o s, p := t.p }) ∧
        FollowZN (operandByte o s) t ∧ KeepFlags [.z, .n] s t

/-- For every encoding of STA, STX and STY and every operand, with a bus connected, the instruction
completes in its base count, also where a page is crossed: the byte at the effective address holds A, X
or Y, every other byte reads as before, and no flag and no register but PC changes; the target is not
fetched. Memory in canonical form is assumed, an invariant stated apart. -/
def Obligations.StoresWriteOneByte : Prop :=
  ∀ (s : State) (b : Byte) (w : Addr), s.busConnected = true → s.mem.wf = true →
    ∀ (i : Instr) (o : Operand) (opcode : Byte) (base : Nat) (value : Byte), (i, o, opcode, base, value) ∈
      ([(.sta (.zp0 b), .zp0 b, 0x85, 3, s.a), (.sta (.zpx b), .zpx b, 0x95, 4, s.a),
       (.sta (.abs w), .abs w, 0x8D, 4, s.a), (.sta (.abx w), .abx w, 0x9D, 5, s.a),
       (.sta (.aby w), .aby w, 0x99, 5, s.a), (.sta (.izx b), .izx b, 0x81, 6, s.a),
       (.sta (.izy b), .izy b, 0x91, 6, s.a), (.stx (.zp0 b), .zp0 b, 0x86, 3, s.x),
       (.stx (.zpy b), .zpy b, 0x96, 4, s.x), (.stx (.abs w), .abs w, 0x8E, 4, s.x),
       (.sty (.zp0 b), .zp0 b, 0x84, 3, s.y), (.sty (.zpx b), .zpx b, 0x94, 4, s.y),
       (.sty (.abs w), .abs w, 0x8C, 4, s.y)] : List (Instr × Operand × Byte × Nat × Byte)) →
      ∃ t, exec i s = .next t ∧ t = { afterAddress o opcode base s with mem := t.mem } ∧
        t.read (effAddr o s) = value ∧ KeepCells [effAddr o s] s t

/-- With a bus connected TAX, TAY, TXA, TYA, TSX and TXS complete in 2 cycles: the destination holds the
source, Z and N follow it except for TXS, which writes no flag, and nothing else changes but what every
fetch tick writes. Which transfers write flags is the spec's own decision D19. -/
def Obligations.TransfersMoveRegisters : Prop :=
  ∀ s : State, s.busConnected = true →
    (∃ t, exec .tax s = .next t ∧ t = { afterImplied 0xAA 2 s with x := s.a, p := t.p } ∧
      FollowZN s.a t ∧ KeepFlags [.z, .n] s t) ∧
    (∃ t, exec .tay s = .next t ∧ t = { afterImplied 0xA8 2 s with y := s.a, p := t.p } ∧
      FollowZN s.a t ∧ KeepFlags [.z, .n] s t) ∧
    (∃ t, exec .txa s = .next t ∧ t = { afterImplied 0x8A 2 s with a := s.x, p := t.p } ∧
      FollowZN s.x t ∧ KeepFlags [.z, .n] s t) ∧
    (∃ t, exec .tya s = .next t ∧ t = { afterImplied 0x98 2 s with a := s.y, p := t.p } ∧
      FollowZN s.y t ∧ KeepFlags [.z, .n] s t) ∧
    (∃ t, exec .tsx s = .next t ∧ t = { afterImplied 0xBA 2 s with x := s.sp, p := t.p } ∧
      FollowZN s.sp t ∧ KeepFlags [.z, .n] s t) ∧
    (∃ t, exec .txs s = .next t ∧ t = { afterImplied 0x9A 2 s with sp := s.x })

/-- For every encoding of ADC, every operand and whatever P.D holds, with a bus connected, ADC completes: A
is A + operand + Carry modulo 256; Carry is set exactly where that sum exceeds 255; Overflow exactly
where the signed sum lies outside -128..127; Z and N follow the result; nothing else changes. The
formula of Overflow is the spec's own decision D18. -/
def Obligations.AdcAddsWithCarry : Prop :=
  ∀ (s : State) (b : Byte) (w : Addr), s.busConnected = true →
    ∀ (o : Operand) (opcode : Byte) (base : Nat), (o, opcode, base) ∈
      ([(.imm b, 0x69, 2), (.zp0 b, 0x65, 3), (.zpx b, 0x75, 4), (.abs w, 0x6D, 4),
       (.abx w, 0x7D, 4), (.aby w, 0x79, 4), (.izx b, 0x61, 6), (.izy b, 0x71, 5)] : List (Operand × Byte × Nat)) →
      ∃ t, exec (.adc o) s = .next t ∧
        t = { afterOperand o opcode (base + (pageCross o s).toNat) s with a := t.a, p := t.p } ∧
        t.a.toNat = (s.a.toNat + (operandByte o s).toNat + (s.flag .c).toNat) % 256 ∧
        (t.flag .c = true ↔ s.a.toNat + (operandByte o s).toNat + (s.flag .c).toNat > 255) ∧
        (t.flag .v = true ↔ s.a.toInt + (operandByte o s).toInt + ((s.flag .c).toNat : Int) < -128 ∨
          s.a.toInt + (operandByte o s).toInt + ((s.flag .c).toNat : Int) > 127) ∧
        FollowZN t.a t ∧ KeepFlags [.c, .v, .z, .n] s t

/-- For every encoding of SBC, every operand and whatever P.D holds, with a bus connected, SBC completes: A
is A - operand - (1 - Carry) modulo 256; Carry is set exactly where no borrow occurs, that is A >=
operand + (1 - Carry); Overflow exactly where the signed difference lies outside -128..127; Z and N
follow the result; nothing else changes. The polarity of Carry and the formula of Overflow are the
spec's own decision D18. -/
def Obligations.SbcSubtractsWithBorrow : Prop :=
  ∀ (s : State) (b : Byte) (w : Addr), s.busConnected = true →
    ∀ (o : Operand) (opcode : Byte) (base : Nat), (o, opcode, base) ∈
      ([(.imm b, 0xE9, 2), (.zp0 b, 0xE5, 3), (.zpx b, 0xF5, 4), (.abs w, 0xED, 4),
       (.abx w, 0xFD, 4), (.aby w, 0xF9, 4), (.izx b, 0xE1, 6), (.izy b, 0xF1, 5)] : List (Operand × Byte × Nat)) →
      ∃ t, exec (.sbc o) s = .next t ∧
        t = { afterOperand o opcode (base + (pageCross o s).toNat) s with a := t.a, p := t.p } ∧
        (t.a.toNat : Int) = ((s.a.toNat : Int) - (operandByte o s).toNat - (1 - (s.flag .c).toNat)) % 256 ∧
        (t.flag .c = true ↔ s.a.toNat ≥ (operandByte o s).toNat + (1 - (s.flag .c).toNat)) ∧
        (t.flag .v = true ↔ s.a.toInt - (operandByte o s).toInt - (1 - ((s.flag .c).toNat : Int)) < -128 ∨
          s.a.toInt - (operandByte o s).toInt - (1 - ((s.flag .c).toNat : Int)) > 127) ∧
        FollowZN t.a t ∧ KeepFlags [.c, .v, .z, .n] s t

/-- For every encoding of AND, ORA and EOR and every operand, with a bus connected, the instruction
completes: A holds the bitwise AND, inclusive OR or exclusive OR of A and the operand byte, Z and N
follow it, C, V and the other flags, the other registers and memory are unchanged, and a page crossing
adds one cycle. -/
def Obligations.LogicCombinesIntoA : Prop :=
  ∀ (s : State) (b : Byte) (w : Addr), s.busConnected = true →
    ∀ (i : Instr) (o : Operand) (opcode : Byte) (base : Nat) (result : Byte), (i, o, opcode, base, result) ∈
      ([(.and (.imm b), .imm b, 0x29, 2, s.a &&& operandByte (.imm b) s), (.and (.zp0 b), .zp0 b, 0x25, 3, s.a &&& operandByte (.zp0 b) s),
       (.and (.zpx b), .zpx b, 0x35, 4, s.a &&& operandByte (.zpx b) s), (.and (.abs w), .abs w, 0x2D, 4, s.a &&& operandByte (.abs w) s),
       (.and (.abx w), .abx w, 0x3D, 4, s.a &&& operandByte (.abx w) s), (.and (.aby w), .aby w, 0x39, 4, s.a &&& operandByte (.aby w) s),
       (.and (.izx b), .izx b, 0x21, 6, s.a &&& operandByte (.izx b) s), (.and (.izy b), .izy b, 0x31, 5, s.a &&& operandByte (.izy b) s),
       (.ora (.imm b), .imm b, 0x09, 2, s.a ||| operandByte (.imm b) s), (.ora (.zp0 b), .zp0 b, 0x05, 3, s.a ||| operandByte (.zp0 b) s),
       (.ora (.zpx b), .zpx b, 0x15, 4, s.a ||| operandByte (.zpx b) s), (.ora (.abs w), .abs w, 0x0D, 4, s.a ||| operandByte (.abs w) s),
       (.ora (.abx w), .abx w, 0x1D, 4, s.a ||| operandByte (.abx w) s), (.ora (.aby w), .aby w, 0x19, 4, s.a ||| operandByte (.aby w) s),
       (.ora (.izx b), .izx b, 0x01, 6, s.a ||| operandByte (.izx b) s), (.ora (.izy b), .izy b, 0x11, 5, s.a ||| operandByte (.izy b) s),
       (.eor (.imm b), .imm b, 0x49, 2, s.a ^^^ operandByte (.imm b) s), (.eor (.zp0 b), .zp0 b, 0x45, 3, s.a ^^^ operandByte (.zp0 b) s),
       (.eor (.zpx b), .zpx b, 0x55, 4, s.a ^^^ operandByte (.zpx b) s), (.eor (.abs w), .abs w, 0x4D, 4, s.a ^^^ operandByte (.abs w) s),
       (.eor (.abx w), .abx w, 0x5D, 4, s.a ^^^ operandByte (.abx w) s), (.eor (.aby w), .aby w, 0x59, 4, s.a ^^^ operandByte (.aby w) s),
       (.eor (.izx b), .izx b, 0x41, 6, s.a ^^^ operandByte (.izx b) s), (.eor (.izy b), .izy b, 0x51, 5, s.a ^^^ operandByte (.izy b) s)] : List (Instr × Operand × Byte × Nat × Byte)) →
      ∃ t, exec i s = .next t ∧
        t = { afterOperand o opcode (base + (pageCross o s).toNat) s with a := result, p := t.p } ∧
        FollowZN result t ∧ KeepFlags [.z, .n] s t

/-- For both encodings of BIT and every operand, with a bus connected, BIT completes in its base count: Z is
set exactly where A AND the operand is 0, V and N are bits 6 and 7 of the operand, and A, memory and
every other flag are unchanged. -/
def Obligations.BitTestsWithoutStoring : Prop :=
  ∀ (s : State) (b : Byte) (w : Addr), s.busConnected = true →
    ∀ (o : Operand) (opcode : Byte) (base : Nat), (o, opcode, base) ∈
      ([(.zp0 b, 0x24, 3), (.abs w, 0x2C, 4)] : List (Operand × Byte × Nat)) →
      ∃ t, exec (.bit o) s = .next t ∧
        t = { afterOperand o opcode base s with p := t.p } ∧
        (t.flag .z = true ↔ s.a &&& operandByte o s = 0) ∧ t.flag .v = (operandByte o s).getLsbD 6 ∧
        t.flag .n = (operandByte o s).getLsbD 7 ∧ KeepFlags [.z, .v, .n] s t

/-- With a bus connected the Implied forms of ASL, LSR, ROL and ROR complete in 2 cycles: A holds twice A,
half of A, twice A plus the old Carry, or half of A plus 128 times the old Carry (modulo 256), Carry is
the bit shifted out, Z and N follow the result, and nothing else changes. Direction and fill are the
spec's own decision D25. -/
def Obligations.ShiftsOfTheAccumulator : Prop :=
  ∀ s : State, s.busConnected = true →
    ∀ (i : Instr) (opcode : Byte) (result : Nat) (carry : Bool), (i, opcode, result, carry) ∈
      ([(.asl .imp, 0x0A, (s.a.toNat * 2) % 256, s.a.getLsbD 7),
       (.lsr .imp, 0x4A, s.a.toNat / 2, s.a.getLsbD 0),
       (.rol .imp, 0x2A, (s.a.toNat * 2 + (s.flag .c).toNat) % 256, s.a.getLsbD 7),
       (.ror .imp, 0x6A, s.a.toNat / 2 + 128 * (s.flag .c).toNat, s.a.getLsbD 0)] : List (Instr × Byte × Nat × Bool)) →
      ∃ t, exec i s = .next t ∧ t = { afterImplied opcode 2 s with a := t.a, p := t.p } ∧
        t.a.toNat = result ∧ t.flag .c = carry ∧ FollowZN t.a t ∧ KeepFlags [.c, .z, .n] s t

/-- For every memory form of ASL, LSR, ROL and ROR and every operand, with a bus connected and memory in
canonical form, the instruction completes in its base count, also where a page is crossed: the byte at
the effective address becomes its shifted value, Carry the bit shifted out, Z and N follow the result, A
and every other byte are unchanged. Direction and fill are the spec's own decision D25. -/
def Obligations.ShiftsOfMemory : Prop :=
  ∀ (s : State) (b : Byte) (w : Addr), s.busConnected = true → s.mem.wf = true →
    ∀ (i : Instr) (o : Operand) (opcode : Byte) (base : Nat), (i, o, opcode, base) ∈
      ([(.asl (.zp0 b), .zp0 b, 0x06, 5), (.asl (.zpx b), .zpx b, 0x16, 6),
       (.asl (.abs w), .abs w, 0x0E, 6), (.asl (.abx w), .abx w, 0x1E, 7),
       (.lsr (.zp0 b), .zp0 b, 0x46, 5), (.lsr (.zpx b), .zpx b, 0x56, 6),
       (.lsr (.abs w), .abs w, 0x4E, 6), (.lsr (.abx w), .abx w, 0x5E, 7),
       (.rol (.zp0 b), .zp0 b, 0x26, 5), (.rol (.zpx b), .zpx b, 0x36, 6),
       (.rol (.abs w), .abs w, 0x2E, 6), (.rol (.abx w), .abx w, 0x3E, 7),
       (.ror (.zp0 b), .zp0 b, 0x66, 5), (.ror (.zpx b), .zpx b, 0x76, 6),
       (.ror (.abs w), .abs w, 0x6E, 6), (.ror (.abx w), .abx w, 0x7E, 7)] : List (Instr × Operand × Byte × Nat)) →
      ∃ t, exec i s = .next t ∧ t = { afterOperand o opcode base s with mem := t.mem, p := t.p } ∧
        (i = .asl o → (t.read (effAddr o s)).toNat = ((operandByte o s).toNat * 2) % 256 ∧ t.flag .c = (operandByte o s).getLsbD 7) ∧
        (i = .lsr o → (t.read (effAddr o s)).toNat = (operandByte o s).toNat / 2 ∧ t.flag .c = (operandByte o s).getLsbD 0) ∧
        (i = .rol o → (t.read (effAddr o s)).toNat = ((operandByte o s).toNat * 2 + (s.flag .c).toNat) % 256 ∧ t.flag .c = (operandByte o s).getLsbD 7) ∧
        (i = .ror o → (t.read (effAddr o s)).toNat = (operandByte o s).toNat / 2 + 128 * (s.flag .c).toNat ∧ t.flag .c = (operandByte o s).getLsbD 0) ∧
        FollowZN (t.read (effAddr o s)) t ∧ KeepFlags [.c, .z, .n] s t ∧ KeepCells [effAddr o s] s t

/-- For every encoding of INC and DEC and every operand, with a bus connected and memory in canonical form,
the instruction completes in its base count, also where a page is crossed: the byte at the effective
address is the old byte plus or minus 1 modulo 256, Z and N follow it, C, V, the registers and every
other byte are unchanged. -/
def Obligations.IncDecStepMemory : Prop :=
  ∀ (s : State) (b : Byte) (w : Addr), s.busConnected = true → s.mem.wf = true →
    ∀ (i : Instr) (o : Operand) (opcode : Byte) (base : Nat) (result : Byte), (i, o, opcode, base, result) ∈
      ([(.inc (.zp0 b), .zp0 b, 0xE6, 5, operandByte (.zp0 b) s + 1), (.inc (.zpx b), .zpx b, 0xF6, 6, operandByte (.zpx b) s + 1),
       (.inc (.abs w), .abs w, 0xEE, 6, operandByte (.abs w) s + 1), (.inc (.abx w), .abx w, 0xFE, 7, operandByte (.abx w) s + 1),
       (.dec (.zp0 b), .zp0 b, 0xC6, 5, operandByte (.zp0 b) s - 1), (.dec (.zpx b), .zpx b, 0xD6, 6, operandByte (.zpx b) s - 1),
       (.dec (.abs w), .abs w, 0xCE, 6, operandByte (.abs w) s - 1), (.dec (.abx w), .abx w, 0xDE, 7, operandByte (.abx w) s - 1)] : List (Instr × Operand × Byte × Nat × Byte)) →
      ∃ t, exec i s = .next t ∧ t = { afterOperand o opcode base s with mem := t.mem, p := t.p } ∧
        t.read (effAddr o s) = result ∧ FollowZN result t ∧ KeepFlags [.z, .n] s t ∧
        KeepCells [effAddr o s] s t

/-- With a bus connected INX, INY, DEX and DEY complete in 2 cycles: X or Y is its old value plus or minus 1
modulo 256, Z and N follow it, and nothing else changes but what every fetch tick writes. -/
def Obligations.IndexRegistersStepByOne : Prop :=
  ∀ s : State, s.busConnected = true →
    (∃ t, exec .inx s = .next t ∧ t = { afterImplied 0xE8 2 s with x := s.x + 1, p := t.p } ∧
      FollowZN (s.x + 1) t ∧ KeepFlags [.z, .n] s t) ∧
    (∃ t, exec .iny s = .next t ∧ t = { afterImplied 0xC8 2 s with y := s.y + 1, p := t.p } ∧
      FollowZN (s.y + 1) t ∧ KeepFlags [.z, .n] s t) ∧
    (∃ t, exec .dex s = .next t ∧ t = { afterImplied 0xCA 2 s with x := s.x - 1, p := t.p } ∧
      FollowZN (s.x - 1) t ∧ KeepFlags [.z, .n] s t) ∧
    (∃ t, exec .dey s = .next t ∧ t = { afterImplied 0x88 2 s with y := s.y - 1, p := t.p } ∧
      FollowZN (s.y - 1) t ∧ KeepFlags [.z, .n] s t)

/-- For every encoding of CMP, CPX and CPY and every operand, with a bus connected, the instruction
completes: Carry is set exactly where the register is at least the operand (unsigned), Zero where they
are equal, Negative is bit 7 of the difference modulo 256; V, the registers and memory are unchanged; a
page crossing adds one cycle (only CMP has such modes). -/
def Obligations.ComparesSetCarryZeroNegative : Prop :=
  ∀ (s : State) (b : Byte) (w : Addr), s.busConnected = true →
    ∀ (i : Instr) (o : Operand) (opcode : Byte) (base : Nat) (reg : Byte), (i, o, opcode, base, reg) ∈
      ([(.cmp (.imm b), .imm b, 0xC9, 2, s.a), (.cmp (.zp0 b), .zp0 b, 0xC5, 3, s.a),
       (.cmp (.zpx b), .zpx b, 0xD5, 4, s.a), (.cmp (.abs w), .abs w, 0xCD, 4, s.a),
       (.cmp (.abx w), .abx w, 0xDD, 4, s.a), (.cmp (.aby w), .aby w, 0xD9, 4, s.a),
       (.cmp (.izx b), .izx b, 0xC1, 6, s.a), (.cmp (.izy b), .izy b, 0xD1, 5, s.a),
       (.cpx (.imm b), .imm b, 0xE0, 2, s.x), (.cpx (.zp0 b), .zp0 b, 0xE4, 3, s.x),
       (.cpx (.abs w), .abs w, 0xEC, 4, s.x), (.cpy (.imm b), .imm b, 0xC0, 2, s.y),
       (.cpy (.zp0 b), .zp0 b, 0xC4, 3, s.y), (.cpy (.abs w), .abs w, 0xCC, 4, s.y)] : List (Instr × Operand × Byte × Nat × Byte)) →
      ∃ t, exec i s = .next t ∧
        t = { afterOperand o opcode (base + (pageCross o s).toNat) s with p := t.p } ∧
        (t.flag .c = true ↔ (operandByte o s).toNat ≤ reg.toNat) ∧ (t.flag .z = true ↔ reg = operandByte o s) ∧
        t.flag .n = (reg - operandByte o s).getLsbD 7 ∧ KeepFlags [.c, .z, .n] s t

/-- Each of the eight branches, with a bus connected, completes. Where its flag is not in the tested state,
PC is the following instruction and the count is 2. Where it is, PC is the address of the branch plus 2
plus the signed offset modulo 65536, and the count is 3 where that is on the page of the following
instruction, else 4. No flag, register or memory byte changes. Which flag each mnemonic tests is the
spec's own decision D4. -/
def Obligations.BranchesTestOneFlag : Prop :=
  ∀ (s : State) (d : Byte), s.busConnected = true →
    ∀ (i : Instr) (opcode : Byte) (taken : Bool), (i, opcode, taken) ∈
      ([(.bcc d, 0x90, !s.flag .c), (.bcs d, 0xB0, s.flag .c), (.beq d, 0xF0, s.flag .z), (.bmi d, 0x30, s.flag .n),
       (.bne d, 0xD0, !s.flag .z), (.bpl d, 0x10, !s.flag .n), (.bvc d, 0x50, !s.flag .v), (.bvs d, 0x70, s.flag .v)] : List (Instr × Byte × Bool)) →
      ∃ t, exec i s = .next t ∧
        t = { s with pc := t.pc, opcode := opcode, addrRel := t.addrRel, cycles := t.cycles } ∧
        (taken = false → t.pc = s.pc + 2 ∧ t.cycles = 2) ∧
        (taken = true → (t.pc.toNat : Int) = ((s.pc.toNat : Int) + 2 + d.toInt) % 65536 ∧
          t.cycles = (if t.pc.toNat / 256 = (s.pc + 2).toNat / 256 then 3 else 4))

/-- With a bus connected and memory in canonical form PHA completes in 3 cycles: the cell of page 1 that SP
indexes holds A, SP is one less modulo 256, no flag changes, and every other byte reads as before. The
stack page and the order write, then decrement are the spec's own decision D2 (log entry 4). -/
def Obligations.PhaPushesAccumulator : Prop :=
  ∀ s : State, s.busConnected = true → s.mem.wf = true →
    ∃ t, exec .pha s = .next t ∧ t = { afterImplied 0x48 3 s with sp := s.sp - 1, mem := t.mem } ∧
      t.read (stackAddr s.sp) = s.a ∧ KeepCells [stackAddr s.sp] s t

/-- With a bus connected and memory in canonical form PHP completes in 3 cycles: the cell of page 1 that SP
indexes holds P with bits 4 and 5 set, SP is one less modulo 256, P itself is unchanged, and every other
byte reads as before. The stack cell and that P is unchanged are the spec's own decisions D2 and D17
(log entries 4 and 15). -/
def Obligations.PhpPushesStatus : Prop :=
  ∀ s : State, s.busConnected = true → s.mem.wf = true →
    ∃ t, exec .php s = .next t ∧ t = { afterImplied 0x08 3 s with sp := s.sp - 1, mem := t.mem } ∧
      t.read (stackAddr s.sp) = s.p ||| 0x30 ∧ KeepCells [stackAddr s.sp] s t

/-- With a bus connected PLA completes in 4 cycles: SP is one more modulo 256, A holds the byte of page 1
that the new SP indexes, Z and N follow it, and nothing else changes but what every fetch tick writes.
The stack page and the order increment, then read are the spec's own decision D2 (log entry 4). -/
def Obligations.PlaPullsAccumulator : Prop :=
  ∀ s : State, s.busConnected = true →
    ∃ t, exec .pla s = .next t ∧
      t = { afterImplied 0x68 4 s with sp := s.sp + 1, a := s.read (stackAddr (s.sp + 1)), p := t.p } ∧
      FollowZN (s.read (stackAddr (s.sp + 1))) t ∧ KeepFlags [.z, .n] s t

/-- With a bus connected PLP completes in 4 cycles: SP is one more modulo 256, C, Z, I, D, B, V, N are bits
0, 1, 2, 3, 4, 6, 7 of the pulled byte, U is 1 whatever the byte holds, P as a byte is the pulled byte
with bit 5 set, and nothing else changes but what every fetch tick writes. The bit positions, the stack
cell, that B is loaded and that U is forced are the spec's own decisions D1, D2, D15 and D16 (log
entries 4 and 15). -/
def Obligations.PlpPullsStatus : Prop :=
  ∀ s : State, s.busConnected = true →
    ∃ t, exec .plp s = .next t ∧ t = { afterImplied 0x28 4 s with sp := s.sp + 1, p := t.p } ∧
      t.flag .u = true ∧ t.p = s.read (stackAddr (s.sp + 1)) ||| 0x20 ∧
      t.flag .c = (s.read (stackAddr (s.sp + 1))).getLsbD 0 ∧
      t.flag .z = (s.read (stackAddr (s.sp + 1))).getLsbD 1 ∧
      t.flag .i = (s.read (stackAddr (s.sp + 1))).getLsbD 2 ∧
      t.flag .d = (s.read (stackAddr (s.sp + 1))).getLsbD 3 ∧
      t.flag .b = (s.read (stackAddr (s.sp + 1))).getLsbD 4 ∧
      t.flag .v = (s.read (stackAddr (s.sp + 1))).getLsbD 6 ∧
      t.flag .n = (s.read (stackAddr (s.sp + 1))).getLsbD 7

/-- Pull after Push(v), with no write between, returns v and restores SP, for every SP, also where it wraps.
The rule is marked derived in the spec, from the stack discipline of decision D2 (log entry 4). -/
def Obligations.PushThenPullGivesTheByteBack : Prop :=
  ∀ (s : State) (v : Byte), s.mem.wf = true → (s.push v).pulled = v ∧ (s.push v).pull.sp = s.sp ∧
    (s.push v).mem.wf = true

/-- For both encodings of JMP, with a bus connected, JMP completes in its base count with PC at the resolved
address (the operand, or the address read through the Indirect pointer); no flag, no register, no memory
byte changes and nothing is read at the target. -/
def Obligations.JmpGoesToItsAddress : Prop :=
  ∀ (s : State) (w : Addr), s.busConnected = true →
    ∀ (o : Operand) (opcode : Byte) (base : Nat), (o, opcode, base) ∈
      ([(.abs w, 0x4C, 3), (.ind w, 0x6C, 5)] : List (Operand × Byte × Nat)) →
      ∃ t, exec (.jmp o) s = .next t ∧ t = { afterAddress o opcode base s with pc := effAddr o s }

/-- With a bus connected and memory in canonical form JSR completes in 6 cycles: the address of its third
byte lies on the stack, high byte in the cell that SP indexed and low byte in the cell below, SP is two
less modulo 256, PC is the operand, no flag changes and every other byte reads as before. The stack
cells and the order of the two pushed bytes are the spec's own decisions D2 and D20. -/
def Obligations.JsrPushesItsLastByteAddress : Prop :=
  ∀ (s : State) (w : Addr), s.busConnected = true → s.mem.wf = true →
    ∃ t, exec (.jsr w) s = .next t ∧
      t = { afterAddress (.abs w) 0x20 6 s with pc := w, sp := s.sp - 2, mem := t.mem } ∧
      t.read (stackAddr s.sp) = highByte (s.pc + 2) ∧ t.read (stackAddr (s.sp - 1)) = lowByte (s.pc + 2) ∧
      KeepCells [stackAddr s.sp, stackAddr (s.sp - 1)] s t

/-- With a bus connected RTS completes in 6 cycles: PC is the pulled address plus 1 modulo 65536, SP is two
more modulo 256, and nothing else changes but what every fetch tick writes. The stack cells and the
order of the two bytes are the spec's own decisions D2 and D20. -/
def Obligations.RtsReturnsPastThePulledAddress : Prop :=
  ∀ s : State, s.busConnected = true →
    ∃ t, exec .rts s = .next t ∧
      t = { afterImplied 0x60 6 s with
            sp := s.sp + 2
            pc := word (s.read (stackAddr (s.sp + 2))) (s.read (stackAddr (s.sp + 1))) + 1 }

/-- With a bus connected RTI completes in 6 cycles: P is the first pulled byte with bit 5 set, PC the next
two, low byte first, with nothing added, SP is three more modulo 256, and nothing else changes but what
every fetch tick writes. The stack cells, bits 4 and 5 of P and the byte order are the spec's own
decisions D2, D15, D16, D20. -/
def Obligations.RtiRestoresStatusAndPc : Prop :=
  ∀ s : State, s.busConnected = true →
    ∃ t, exec .rti s = .next t ∧
      t = { afterImplied 0x40 6 s with
            sp := s.sp + 3
            p := s.read (stackAddr (s.sp + 1)) ||| 0x20
            pc := word (s.read (stackAddr (s.sp + 3))) (s.read (stackAddr (s.sp + 2))) }

/-- With a bus connected and memory in canonical form BRK completes in 7 cycles: the address of its opcode
plus 2 and P with bits 4 and 5 set, P.I as before, lie on the stack, SP is three less, P.I is 1 and
every other flag of P unchanged, PC is the little-endian word at 0xFFFE, and every byte but the three
pushed reads as before. The stack cells, the return address, the pushed bits and the vector are the
spec's own decisions D2, D3, D14, D20. -/
def Obligations.BrkTakesTheException : Prop :=
  ∀ s : State, s.busConnected = true → s.mem.wf = true →
    ∃ t, exec .brk s = .next t ∧
      t = { afterImplied 0x00 7 s with
            sp := s.sp - 3
            p := t.p
            mem := t.mem
            pc := word (s.read 0xFFFF) (s.read 0xFFFE) } ∧
      t.flag .i = true ∧ KeepFlags [.i] s t ∧
      t.read (stackAddr s.sp) = highByte (s.pc + 2) ∧ t.read (stackAddr (s.sp - 1)) = lowByte (s.pc + 2) ∧
      t.read (stackAddr (s.sp - 2)) = s.p ||| 0x30 ∧
      KeepCells [stackAddr s.sp, stackAddr (s.sp - 1), stackAddr (s.sp - 2)] s t

/-- Where JSR ran in s, RTS in any later state u whose memory and SP are as JSR left them completes with PC
at the address of the JSR plus 3 and SP as it was before the JSR, and leaves memory as it is. -/
def Obligations.SubroutineCallReturns : Prop :=
  ∀ (s t u : State) (w : Addr), s.mem.wf = true → exec (.jsr w) s = .next t →
    u.mem = t.mem → u.sp = t.sp → u.busConnected = true →
    ∃ v, exec .rts u = .next v ∧ v.pc = s.pc + 3 ∧ v.sp = s.sp ∧ v.mem = t.mem

/-- Where BRK ran in s, RTI in any later state u whose memory and SP are as BRK left them completes with PC
at the address of the BRK plus 2, P as before the BRK with B and U set (so I is again what it was), and
SP as before. B in P is the spec's own decision D15, the return address D14. -/
def Obligations.BreakReturns : Prop :=
  ∀ (s t u : State), s.mem.wf = true → exec .brk s = .next t →
    u.mem = t.mem → u.sp = t.sp → u.busConnected = true →
    ∃ v, exec .rti u = .next v ∧ v.pc = s.pc + 2 ∧ v.p = s.p ||| 0x30 ∧ v.sp = s.sp

/-- With a bus connected each of the seven completes in 2 cycles: the flag it names is 0 (CLC, CLD, CLI,
CLV) or 1 (SEC, SED, SEI), every other bit of P, every register but PC and all memory are unchanged. As
a byte P has mask 0x01 (C), 0x08 (D), 0x04 (I) or 0x40 (V) set or cleared. Which flag each mnemonic
names and which bit of P holds it are the spec's own decisions D4 and D1 (log entries 5 and 15). -/
def Obligations.FlagInstructionsWriteOneFlag : Prop :=
  ∀ s : State, s.busConnected = true →
    ∀ (i : Instr) (opcode : Byte) (f : Flag) (mask : Byte) (value : Bool), (i, opcode, f, mask, value) ∈
      ([(.clc, 0x18, .c, 0x01, false), (.cld, 0xD8, .d, 0x08, false), (.cli, 0x58, .i, 0x04, false),
       (.clv, 0xB8, .v, 0x40, false), (.sec, 0x38, .c, 0x01, true), (.sed, 0xF8, .d, 0x08, true),
       (.sei, 0x78, .i, 0x04, true)] :
        List (Instr × Byte × Flag × Byte × Bool)) →
      ∃ t, exec i s = .next t ∧
        t = { afterImplied opcode 2 s with p := if value then s.p ||| mask else s.p &&& (0xFF ^^^ mask) } ∧
        t.flag f = value ∧ KeepFlags [f] s t

/-- With a bus connected NOP completes in 2 cycles, and ILL with each of the 105 unused opcode bytes in the
count that rule R65 lists for it: opcode latched, PC past the one byte, A captured into fetched, cycles
loaded; no register, no flag and no memory byte changes. Mode Implied and the counts of the unused
opcodes are the spec's own default, decision D6 (log entry 5). -/
def Obligations.NopAndUnusedOpcodesOnlyPass : Prop :=
  ∀ s : State, s.busConnected = true →
    exec .nop s = .next (afterImplied 0xEA 2 s) ∧
    ∀ (opcode : Byte) (base : Nat), (opcode, base) ∈ unusedRows →
      exec (.ill opcode) s = .next (afterImplied opcode base s)

/-- For every 16-bit address and every byte, over a memory in canonical form: reading the address after the
write gives the byte; every other address reads as before; the new memory is in canonical form; and no
other part of the state changes. It is the bus-connected half of MemRead and MemWrite; what happens
without a bus is stated apart. -/
def Obligations.MemoryReadsBackWhatWasWritten : Prop :=
  ∀ (s : State) (a : Addr) (v : Byte), s.mem.wf = true →
    (s.write a v).read a = v ∧ (∀ c, c ≠ a → (s.write a v).read c = s.read c) ∧ (s.write a v).mem.wf = true ∧
    ∃ m, s.write a v = { s with mem := m }

/-- In every state, with or without a bus, whatever cycles and P.I hold, each of the three events sets its
one-bit latch, changes no other state and never faults. Latching is the spec's own decision D10. -/
def Obligations.SignalsOnlySetTheirLatch : Prop :=
  ∀ s : State, Event.reset.apply s = .next { s with resetPending := true } ∧
    Event.nmi.apply s = .next { s with nmiPending := true } ∧
    Event.irq.apply s = .next { s with irqPending := true }

/-- A fetch tick that finds a reset pending, whatever else is pending, clears the three latches, sets A, X,
Y to 0, SP to 0xFD, P to 0x24, the transient variables to 0 and PC to the little-endian word at 0xFFFC,
and leaves 6 cycles of its 7; opcode and memory are unchanged. What reset writes, its priority and its 7
cycles are the spec's own decisions D3, D9, D11, D12. -/
def Obligations.ResetSequenceRestoresPowerOnValues : Prop :=
  ∀ s : State, s.cycles = 0 → s.resetPending = true → s.busConnected = true →
    step s = .next { s with
      resetPending := false, nmiPending := false, irqPending := false
      a := 0, x := 0, y := 0, sp := 0xFD, p := 0x24, addrAbs := 0, addrRel := 0, fetched := 0
      pc := word (s.read 0xFFFD) (s.read 0xFFFC), cycles := 6 }

/-- A fetch tick that finds an NMI and no reset pending pushes PC (the next instruction) high byte first and
P with B = 0 and U = 1, sets I, loads PC from the word at 0xFFFA and leaves 6 cycles of its 7;
irq_pending and every other flag, register and byte are unchanged. Priority, stack cells, vector, pushed
bits and order and the count are the spec's own decisions D2, D3, D11, D12, D13, D20. -/
def Obligations.NmiSequenceTakesTheException : Prop :=
  ∀ s : State, s.cycles = 0 → s.resetPending = false → s.nmiPending = true → s.busConnected = true →
    s.mem.wf = true → ∃ t, step s = .next t ∧
      t = { s with
            nmiPending := false, sp := s.sp - 3, p := t.p, mem := t.mem
            pc := word (s.read 0xFFFB) (s.read 0xFFFA), cycles := 6 } ∧
      t.flag .i = true ∧ KeepFlags [.i] s t ∧
      t.read (stackAddr s.sp) = highByte s.pc ∧ t.read (stackAddr (s.sp - 1)) = lowByte s.pc ∧
      t.read (stackAddr (s.sp - 2)) = (s.p &&& 0xEF) ||| 0x20 ∧
      KeepCells [stackAddr s.sp, stackAddr (s.sp - 1), stackAddr (s.sp - 2)] s t

/-- A fetch tick that finds an IRQ and neither a reset nor an NMI pending, with P.I = 0, clears the latch,
pushes PC (the next instruction) high byte first and P with B = 0 and U = 1, sets I, loads PC from the
word at 0xFFFE and leaves 6 cycles of its 7; every other flag, register and byte is unchanged. Priority,
stack cells, vector, pushed bits and order and the count are the spec's own decisions D2, D3, D11, D12,
D13, D20. -/
def Obligations.IrqSequenceTakesTheException : Prop :=
  ∀ s : State, s.cycles = 0 → s.resetPending = false → s.nmiPending = false → s.irqPending = true →
    s.flag .i = false → s.busConnected = true → s.mem.wf = true → ∃ t, step s = .next t ∧
      t = { s with
            irqPending := false, sp := s.sp - 3, p := t.p, mem := t.mem
            pc := word (s.read 0xFFFF) (s.read 0xFFFE), cycles := 6 } ∧
      t.flag .i = true ∧ KeepFlags [.i] s t ∧
      t.read (stackAddr s.sp) = highByte s.pc ∧ t.read (stackAddr (s.sp - 1)) = lowByte s.pc ∧
      t.read (stackAddr (s.sp - 2)) = (s.p &&& 0xEF) ||| 0x20 ∧
      KeepCells [stackAddr s.sp, stackAddr (s.sp - 1), stackAddr (s.sp - 2)] s t

/-- A fetch tick with P.I = 1 and neither a reset nor an NMI pending gives one and the same next state
whether an IRQ is pending or not, with the latch clear. That a masked request is dropped is the spec's
own decision D11. -/
def Obligations.MaskedIrqIsDiscarded : Prop :=
  ∀ s : State, s.cycles = 0 → s.resetPending = false → s.nmiPending = false → s.flag .i = true →
    s.busConnected = true →
    ∃ t, step s = .next t ∧ t.irqPending = false ∧ step { s with irqPending := !s.irqPending } = .next t

/-- A tick faults exactly where no bus is connected and cycles is 0, whatever signal is pending, and then
with NoBus: there is no next state. Idle ticks and the events reset, irq and nmi never fault. Every
well-formed instruction, run without a bus, raises NoBus at its opcode fetch. That the state after the
fault is the state before it is the spec's own decision D23: the step simply has no next state. -/
def Obligations.NoBusFaultsExactlyTheFetchTicks : Prop :=
  ∀ s : State, (∀ r, step s = .fault r ↔ r = .noBus ∧ s.cycles = 0 ∧ s.busConnected = false) ∧
    (∀ e : Event, e ≠ .tick → ∃ t, e.apply s = .next t) ∧
    ∀ i : Instr, i.wellFormed = true → s.busConnected = false → exec i s = .fault .noBus

/-- With a bus connected every event, from every state and every memory content, has a next state, and so
has every well-formed instruction; every event in any state either has a next state or raises NoBus with
no bus connected. There is no other fault, no refusal, no trap for an undefined opcode and no stuck
state. -/
def Obligations.OnlyOutcomeBesidesANextStateIsNoBus : Prop :=
  (∀ (e : Event) (s : State), s.busConnected = true → ∃ t, e.apply s = .next t ∧ t.busConnected = true) ∧
  (∀ (e : Event) (s : State), (∃ t, e.apply s = .next t) ∨ e.apply s = .fault .noBus ∧ s.busConnected = false) ∧
  (∀ (i : Instr) (s : State), i.wellFormed = true → s.busConnected = true →
    ∃ t, exec i s = .next t ∧ t.busConnected = true)

/-- From every state whose memory is in canonical form, whose P.U is 1 and whose cycles is at most 7, a tick
(any instruction, any signal sequence, any idle tick), a reset, an irq and an nmi event lead, where they
lead to a next state, to such a state again. The bound on cycles is marked derived in the spec. -/
def Obligations.EveryEventKeepsTheInvariant : Prop :=
  ∀ (e : Event) (s t : State), Inv s → e.apply s = .next t → Inv t

/-- At power-on memory is in canonical form, P.U is 1 and cycles is 0. -/
def Obligations.PowerOnMeetsTheInvariant : Prop :=
  Inv State.reset

/-- From any state that meets the invariant with a bus connected, every finite sequence of tick, reset, irq
and nmi events has an end state, which meets the invariant with the bus still connected: the machine
never stops by itself. -/
def Obligations.ConnectedRunsNeverStop : Prop :=
  ∀ (events : List Event) (s : State), Inv s → s.busConnected = true →
    ∃ t, runEvents events s = .next t ∧ Inv t ∧ t.busConnected = true

/-- Over all instructions and all their forms: only the instructions that the rules for A, X, Y and SP list
as writers change them, the memory forms of the shifts do not change A, only a branch, JMP, JSR, RTS,
RTI and BRK leave PC anywhere but past the instruction, and no instruction changes a pending latch or
the bus condition. -/
def Obligations.RegistersHaveOnlyTheirListedWriters : Prop :=
  ∀ (i : Instr) (s t : State), exec i s = .next t →
    (i.operation ∉ [.lda, .txa, .tya, .pla, .adc, .sbc, .and, .ora, .eor, .asl, .lsr, .rol, .ror] →
      t.a = s.a) ∧
    (i.operation ∈ [.asl, .lsr, .rol, .ror] → i.operand ≠ .imp → t.a = s.a) ∧
    (i.operation ∉ [.ldx, .tax, .tsx, .inx, .dex] → t.x = s.x) ∧
    (i.operation ∉ [.ldy, .tay, .iny, .dey] → t.y = s.y) ∧
    (i.operation ∉ [.pha, .php, .pla, .plp, .jsr, .rts, .rti, .brk, .txs] → t.sp = s.sp) ∧
    (i.operation ∉ [.bcc, .bcs, .beq, .bmi, .bne, .bpl, .bvc, .bvs, .jmp, .jsr, .rts, .rti, .brk] →
      t.pc = s.pc + BitVec.ofNat 16 i.length) ∧
    t.resetPending = s.resetPending ∧ t.nmiPending = s.nmiPending ∧ t.irqPending = s.irqPending ∧
    t.busConnected = s.busConnected

/-- Over all instructions and all their forms: C, Z, N, I, D, B and V change only under the instructions
that the flag rules list, no instruction but PLP and RTI changes B, and none clears U. -/
def Obligations.FlagsHaveOnlyTheirListedWriters : Prop :=
  ∀ (i : Instr) (s t : State), exec i s = .next t →
    (i.operation ∉ [.adc, .sbc, .asl, .rol, .lsr, .ror, .cmp, .cpx, .cpy, .sec, .clc, .plp, .rti] →
      t.flag .c = s.flag .c) ∧
    (i.operation ∉ [.lda, .ldx, .ldy, .tax, .tay, .txa, .tya, .tsx, .pla, .adc, .sbc, .and, .ora, .eor, .asl,
        .lsr, .rol, .ror, .inc, .inx, .iny, .dec, .dex, .dey, .bit, .cmp, .cpx, .cpy, .plp, .rti] →
      t.flag .z = s.flag .z ∧ t.flag .n = s.flag .n) ∧
    (i.operation ∉ [.sei, .cli, .brk, .plp, .rti] → t.flag .i = s.flag .i) ∧
    (i.operation ∉ [.sed, .cld, .plp, .rti] → t.flag .d = s.flag .d) ∧
    (i.operation ∉ [.plp, .rti] → t.flag .b = s.flag .b ∧ t.flag .u = s.flag .u) ∧
    (i.operation ∈ [.plp, .rti] → t.flag .u = true) ∧
    (i.operation ∉ [.adc, .sbc, .bit, .clv, .plp, .rti] → t.flag .v = s.flag .v)

/-- Over all instructions and all their forms, from memory in canonical form: every instruction but the
stores, the memory forms of the shifts, INC, DEC and the pushes leaves memory as it is; a store or read-
modify-write changes at most the byte at its effective address; PHA and PHP at most the cell that SP
indexes; JSR two, BRK three cells of the stack page. -/
def Obligations.OnlyStoresChangeMemory : Prop :=
  ∀ (i : Instr) (s t : State), s.mem.wf = true → exec i s = .next t →
    (i.operation ∉ [.sta, .stx, .sty, .asl, .lsr, .rol, .ror, .inc, .dec, .pha, .php, .jsr, .brk] →
      t.mem = s.mem) ∧
    (i.operation ∈ [.asl, .lsr, .rol, .ror] → i.operand = .imp → t.mem = s.mem) ∧
    (i.operation ∈ [.sta, .stx, .sty, .asl, .lsr, .rol, .ror, .inc, .dec] →
      KeepCells [effAddr i.operand s] s t) ∧
    (i.operation ∈ [.pha, .php] → KeepCells [stackAddr s.sp] s t) ∧
    (i.operation = .jsr → KeepCells [stackAddr s.sp, stackAddr (s.sp - 1)] s t) ∧
    (i.operation = .brk → KeepCells [stackAddr s.sp, stackAddr (s.sp - 1), stackAddr (s.sp - 2)] s t)

/-- For every instruction but PHP and BRK, which write P to memory, and for both values of D: running it
with P.D changed gives a next state that agrees with the original in everything but P.D. So no result
depends on D, ADC and SBC included. -/
def Obligations.DecimalFlagIsInert : Prop :=
  ∀ (i : Instr) (s t : State) (d : Bool), i.operation ∉ [.php, .brk] → exec i s = .next t →
    ∃ t', exec i (s.setFlag .d d) = .next t' ∧ ∀ e, t'.setFlag .d e = t.setFlag .d e

/-- A, X, Y are 0, SP is 0xFD, P is 0x24 (I and U set, all other flags clear), PC, opcode, addr_abs,
addr_rel, fetched and cycles are 0, the three latches are clear and every byte of memory is 0. PC, the
transient variables, cycles and the latches are the spec's own decisions D8, D10. -/
def Obligations.PowerOnValuesAreTheTable : Prop :=
  State.reset.a = 0 ∧ State.reset.x = 0 ∧ State.reset.y = 0 ∧ State.reset.sp = 0xFD ∧ State.reset.p = 0x24 ∧
  State.reset.flag .i = true ∧ State.reset.flag .u = true ∧
  (∀ f, f ∉ [Flag.i, Flag.u] → State.reset.flag f = false) ∧ State.reset.pc = 0 ∧ State.reset.opcode = 0 ∧
  State.reset.addrAbs = 0 ∧ State.reset.addrRel = 0 ∧ State.reset.fetched = 0 ∧ State.reset.cycles = 0 ∧
  State.reset.resetPending = false ∧ State.reset.nmiPending = false ∧ State.reset.irqPending = false ∧
  ∀ addr, State.reset.read addr = 0

/-- A run that starts with a reset event and RESET_CYCLES ticks on the power-on state with all-zero vectors
is back in the power-on state. The rule is marked derived in the spec; it is why State.reset is the
power-on state (log entry 2). -/
def Obligations.ResetOnEmptyMachineReturnsToPowerOn : Prop :=
  Host.Core.run core 7 State.reset.raiseReset = .next State.reset
end

