-- ==== Sys2Proof/Laws/Decode.lean ====
section
/-! SUPPORT. The byte helpers are inverse to one another (R5), the descriptor table over the unused
opcodes (R65), and that well-formed instructions are those with an opcode byte. -/

namespace Sys2Proof

/-- Taking a word apart and putting it together. -/
@[simp] theorem word_highByte_lowByte (w : Addr) : word (highByte w) (lowByte w) = w := by
  apply BitVec.eq_of_getLsbD_eq
  intro i hi
  simp only [word, highByte, lowByte, BitVec.getLsbD_append, BitVec.getLsbD_extractLsb']
  by_cases h : i < 8
  · simp [h]
  · simp [h, show i - 8 < 8 by omega, show 8 + (i - 8) = i by omega]

/-- The low byte of a word put together. -/
@[simp] theorem lowByte_word (hi lo : Byte) : lowByte (word hi lo) = lo := by
  apply BitVec.eq_of_getLsbD_eq
  intro i hi
  rw [lowByte, word, BitVec.getLsbD_extractLsb', BitVec.getLsbD_append]
  simp [hi]

/-- The high byte of a word put together. -/
@[simp] theorem highByte_word (hi lo : Byte) : highByte (word hi lo) = hi := by
  apply BitVec.eq_of_getLsbD_eq
  intro i hi
  rw [highByte, word, BitVec.getLsbD_extractLsb', BitVec.getLsbD_append]
  simp [hi]

/-- The low byte as a number. -/
theorem lowByte_toNat (w : Addr) : (lowByte w).toNat = w.toNat % 256 := by
  simp [lowByte, BitVec.extractLsb']

/-- The high byte as a number. -/
theorem highByte_toNat (w : Addr) : (highByte w).toNat = w.toNat / 256 := by
  have := w.isLt
  simp [highByte, BitVec.extractLsb', Nat.shiftRight_eq_div_pow]
  omega

/-- A word put together as a number (R5). -/
theorem word_toNat (hi lo : Byte) : (word hi lo).toNat = hi.toNat * 256 + lo.toNat := by
  have h1 := lowByte_toNat (word hi lo)
  have h2 := highByte_toNat (word hi lo)
  rw [lowByte_word] at h1
  rw [highByte_word] at h2
  omega

/-- The 256 byte values, for the facts that are checked byte by byte. -/
def allBytes : List Byte :=
  [0x00, 0x01, 0x02, 0x03, 0x04, 0x05, 0x06, 0x07, 0x08, 0x09, 0x0A, 0x0B, 0x0C, 0x0D, 0x0E, 0x0F] ++
  [0x10, 0x11, 0x12, 0x13, 0x14, 0x15, 0x16, 0x17, 0x18, 0x19, 0x1A, 0x1B, 0x1C, 0x1D, 0x1E, 0x1F] ++
  [0x20, 0x21, 0x22, 0x23, 0x24, 0x25, 0x26, 0x27, 0x28, 0x29, 0x2A, 0x2B, 0x2C, 0x2D, 0x2E, 0x2F] ++
  [0x30, 0x31, 0x32, 0x33, 0x34, 0x35, 0x36, 0x37, 0x38, 0x39, 0x3A, 0x3B, 0x3C, 0x3D, 0x3E, 0x3F] ++
  [0x40, 0x41, 0x42, 0x43, 0x44, 0x45, 0x46, 0x47, 0x48, 0x49, 0x4A, 0x4B, 0x4C, 0x4D, 0x4E, 0x4F] ++
  [0x50, 0x51, 0x52, 0x53, 0x54, 0x55, 0x56, 0x57, 0x58, 0x59, 0x5A, 0x5B, 0x5C, 0x5D, 0x5E, 0x5F] ++
  [0x60, 0x61, 0x62, 0x63, 0x64, 0x65, 0x66, 0x67, 0x68, 0x69, 0x6A, 0x6B, 0x6C, 0x6D, 0x6E, 0x6F] ++
  [0x70, 0x71, 0x72, 0x73, 0x74, 0x75, 0x76, 0x77, 0x78, 0x79, 0x7A, 0x7B, 0x7C, 0x7D, 0x7E, 0x7F] ++
  [0x80, 0x81, 0x82, 0x83, 0x84, 0x85, 0x86, 0x87, 0x88, 0x89, 0x8A, 0x8B, 0x8C, 0x8D, 0x8E, 0x8F] ++
  [0x90, 0x91, 0x92, 0x93, 0x94, 0x95, 0x96, 0x97, 0x98, 0x99, 0x9A, 0x9B, 0x9C, 0x9D, 0x9E, 0x9F] ++
  [0xA0, 0xA1, 0xA2, 0xA3, 0xA4, 0xA5, 0xA6, 0xA7, 0xA8, 0xA9, 0xAA, 0xAB, 0xAC, 0xAD, 0xAE, 0xAF] ++
  [0xB0, 0xB1, 0xB2, 0xB3, 0xB4, 0xB5, 0xB6, 0xB7, 0xB8, 0xB9, 0xBA, 0xBB, 0xBC, 0xBD, 0xBE, 0xBF] ++
  [0xC0, 0xC1, 0xC2, 0xC3, 0xC4, 0xC5, 0xC6, 0xC7, 0xC8, 0xC9, 0xCA, 0xCB, 0xCC, 0xCD, 0xCE, 0xCF] ++
  [0xD0, 0xD1, 0xD2, 0xD3, 0xD4, 0xD5, 0xD6, 0xD7, 0xD8, 0xD9, 0xDA, 0xDB, 0xDC, 0xDD, 0xDE, 0xDF] ++
  [0xE0, 0xE1, 0xE2, 0xE3, 0xE4, 0xE5, 0xE6, 0xE7, 0xE8, 0xE9, 0xEA, 0xEB, 0xEC, 0xED, 0xEE, 0xEF] ++
  [0xF0, 0xF1, 0xF2, 0xF3, 0xF4, 0xF5, 0xF6, 0xF7, 0xF8, 0xF9, 0xFA, 0xFB, 0xFC, 0xFD, 0xFE, 0xFF]

/-- They are all the byte values. -/
theorem mem_allBytes (b : Byte) : b ∈ allBytes := by
  have h : allBytes.map BitVec.toNat = List.range 256 := by decide +kernel
  have : b.toNat ∈ allBytes.map BitVec.toNat := by rw [h]; exact List.mem_range.2 b.isLt
  obtain ⟨c, hc, e⟩ := List.mem_map.1 this
  rwa [← BitVec.eq_of_toNat_eq e]

/-- The matrix, read by rows, is the descriptors of all bytes in order. -/
theorem map_desc : allBytes.map desc = opcodeMatrix.flatten := by decide +kernel

/-- Every byte stands in the matrix with its descriptor. -/
theorem zip_desc : allBytes.zip opcodeMatrix.flatten = allBytes.map fun op => (op, desc op) := by
  rw [← map_desc]
  generalize allBytes = l
  induction l with
  | nil => rfl
  | cons b l ih => simp [ih]

/-- A fact about every cell of the matrix is a fact about every byte and its descriptor. -/
theorem forall_desc {p : Byte × Descriptor → Bool}
    (h : (allBytes.zip opcodeMatrix.flatten).all p = true) (opcode : Byte) :
    p (opcode, desc opcode) = true := by
  rw [zip_desc] at h
  exact List.all_eq_true.1 h _ (List.mem_map.2 ⟨opcode, mem_allBytes opcode, rfl⟩)

/-- Every descriptor pairs its operation with one of its modes (R64, R65). -/
theorem desc_modes (opcode : Byte) :
    (desc opcode).operation.modes.contains (desc opcode).mode = true :=
  forall_desc (p := fun | (_, ⟨op, m, _⟩) => op.modes.contains m) (by decide +kernel) opcode

/-- Every base count is at least 2 and at most 8 (R64, R65, R74, R77). -/
theorem desc_baseCycles (opcode : Byte) : 2 ≤ (desc opcode).baseCycles ∧ (desc opcode).baseCycles ≤ 8 := by
  simpa using forall_desc (p := fun | (_, ⟨_, _, n⟩) => decide (2 ≤ n) && decide (n ≤ 8))
    (by decide +kernel) opcode

/-- The matrix read through the table by mnemonic (R64): every byte that is not ILL is the opcode of the
operation and mode of its descriptor. -/
theorem desc_opcodes (opcode : Byte) (h : (desc opcode).operation ≠ .ill) :
    (desc opcode).operation.opcodes.lookup (desc opcode).mode = some opcode := by
  have := forall_desc (p := fun | (op, ⟨f, m, _⟩) => f == .ill || f.opcodes.lookup m == some op)
    (by decide +kernel) opcode
  simpa [h] using this

/-- An ILL descriptor is Implied (R65, default of decision D6). -/
theorem desc_ill_mode (opcode : Byte) (h : (desc opcode).operation = .ill) : (desc opcode).mode = .imp := by
  have := forall_desc (p := fun | (_, ⟨f, m, _⟩) => f != .ill || m == .imp) (by decide +kernel) opcode
  simpa [h] using this

/-- The bytes with an ILL descriptor are those of the list of R65. -/
theorem desc_ill_iff (opcode : Byte) :
    (desc opcode).operation = .ill ↔ unusedOpcodes.contains opcode = true := by
  have h : ((allBytes.zip opcodeMatrix.flatten).filter (·.2.operation == .ill)).map (·.1) = unusedOpcodes := by
    decide +kernel
  rw [List.contains_iff_mem, ← h, zip_desc]
  simp [mem_allBytes]

/-- The mode of an assembled operand. -/
@[simp] theorem mode_assembleOperand (m : Mode) (b1 b2 : Byte) : (assembleOperand m b1 b2).mode = m := by
  cases m <;> rfl

/-- The operation of an assembled instruction. -/
@[simp] theorem operation_assembleInstr (opcode : Byte) (op : Operation) (o : Operand) (b1 b2 : Byte) :
    (assembleInstr opcode op o b1 b2).operation = op := by
  cases op <;> rfl

/-- The operand of an assembled instruction, where the mode is one of the operation's. -/
theorem operand_assembleInstr {op : Operation} {m : Mode} (h : op.modes.contains m = true)
    (opcode b1 b2 : Byte) :
    (assembleInstr opcode op (assembleOperand m b1 b2) b1 b2).operand = assembleOperand m b1 b2 := by
  cases op <;> first | rfl | (cases m <;> first | rfl | exact absurd h (by decide))

/-- The operation of a decoded instruction (R61, R79). -/
@[simp] theorem decodeBytes_operation (opcode b1 b2 : Byte) :
    (decodeBytes opcode b1 b2).operation = (desc opcode).operation :=
  operation_assembleInstr ..

/-- The operand of a decoded instruction (R60, R62). -/
@[simp] theorem decodeBytes_operand (opcode b1 b2 : Byte) :
    (decodeBytes opcode b1 b2).operand = assembleOperand (desc opcode).mode b1 b2 :=
  operand_assembleInstr (desc_modes opcode) opcode b1 b2

/-- The opcode byte of an assembled instruction. -/
theorem opcodeByte_assembleInstr {op : Operation} (h : op ≠ .ill) (opcode : Byte) (o : Operand)
    (b1 b2 : Byte) : (assembleInstr opcode op o b1 b2).opcodeByte =
      op.opcodes.lookup (assembleInstr opcode op o b1 b2).operand.mode := by
  cases op <;> first | rfl | exact absurd rfl h

/-- A decoded instruction has the opcode byte that it was decoded from (R61, R64, R65). -/
@[simp] theorem decodeBytes_opcodeByte (opcode b1 b2 : Byte) :
    (decodeBytes opcode b1 b2).opcodeByte = some opcode := by
  by_cases e : (desc opcode).operation = .ill
  · rw [decodeBytes, e]
    exact if_pos ((desc_ill_iff opcode).1 e)
  · rw [decodeBytes, opcodeByte_assembleInstr e, operand_assembleInstr (desc_modes opcode),
      mode_assembleOperand, desc_opcodes opcode e]

/-- An instruction is well formed exactly where it has an opcode byte (R64, R65, R95). -/
theorem wellFormed_iff_opcodeByte (i : Instr) : i.wellFormed = true ↔ i.opcodeByte.isSome = true := by
  cases i with
  | ill op =>
    change unusedOpcodes.contains op = true ↔
      (if unusedOpcodes.contains op then some op else none).isSome = true
    split <;> simp_all only [Option.isSome_some, Option.isSome_none, Bool.false_eq_true]
  | _ => first | decide | (rename_i o; first | decide | (cases o <;> first | decide | rfl))

/-- A decoded instruction is well formed. -/
@[simp] theorem decodeBytes_wellFormed (opcode b1 b2 : Byte) :
    (decodeBytes opcode b1 b2).wellFormed = true := by
  rw [wellFormed_iff_opcodeByte, decodeBytes_opcodeByte]; rfl

/-- Operand bytes that give the same operand give the same instruction: a byte that the mode does not
count is not read (R60). -/
theorem decodeBytes_congr (opcode : Byte) {b1 b2 c1 c2 : Byte}
    (h : assembleOperand (desc opcode).mode b1 b2 = assembleOperand (desc opcode).mode c1 c2) :
    decodeBytes opcode b1 b2 = decodeBytes opcode c1 c2 := by
  have hm := desc_modes opcode
  simp only [decodeBytes]
  rw [h]
  revert hm h
  generalize (desc opcode).mode = m
  generalize (desc opcode).operation = op
  intro h hm
  cases op <;> first
    | rfl
    | (cases m <;> first | exact absurd hm (by decide) | (simp [assembleOperand] at h; simp [assembleInstr, h]))

/-- Decoding a list of bytes that is long enough (R60, R66). -/
theorem decode_cons (opcode : Byte) (rest : List Byte) (h : (desc opcode).mode.operandBytes ≤ rest.length) :
    decode (opcode :: rest) =
      .ok (decodeBytes opcode (rest.getD 0 0) (rest.getD 1 0), rest.drop (desc opcode).mode.operandBytes) := by
  have key : ∀ b1 b2 c1 c2, assembleOperand (desc opcode).mode b1 b2 = assembleOperand (desc opcode).mode c1 c2 →
    decodeBytes opcode b1 b2 = decodeBytes opcode c1 c2 := fun _ _ _ _ => decodeBytes_congr opcode
  have e : ∀ r, decode (opcode :: r) = match (desc opcode).mode.operandBytes, r with
    | 0, r => .ok (decodeBytes opcode 0 0, r)
    | 1, b1 :: r => .ok (decodeBytes opcode b1 0, r)
    | 2, b1 :: b2 :: r => .ok (decodeBytes opcode b1 b2, r)
    | _, _ => .error (.truncated opcode) := fun _ => rfl
  rw [e]
  clear e
  revert key h
  cases (desc opcode).mode <;> intro h key <;> rcases rest with _ | ⟨b, _ | ⟨c, r⟩⟩ <;> first
    | rfl
    | (refine congrArg Except.ok (congrArg₂ Prod.mk ?_ rfl); exact key _ _ _ _ rfl)
    | exact absurd h (by simp [Mode.operandBytes])

end Sys2Proof
end

