-- ==== Sys2Proof/Laws/State.lean ====
section
/-! SUPPORT. One lemma per field per update of State: what each shared update leaves as it is, and the
new value of a field it writes where that is one expression. True by unfolding the update; tagged for simp, so that
no later proof unfolds a record update. -/

namespace Sys2Proof.Machine

open Sys2Proof

@[simp] theorem setFlag_a (s : State) (f : Flag) (b : Bool) : (s.setFlag f b).a = s.a := rfl
@[simp] theorem setFlag_x (s : State) (f : Flag) (b : Bool) : (s.setFlag f b).x = s.x := rfl
@[simp] theorem setFlag_y (s : State) (f : Flag) (b : Bool) : (s.setFlag f b).y = s.y := rfl
@[simp] theorem setFlag_sp (s : State) (f : Flag) (b : Bool) : (s.setFlag f b).sp = s.sp := rfl
@[simp] theorem setFlag_pc (s : State) (f : Flag) (b : Bool) : (s.setFlag f b).pc = s.pc := rfl
@[simp] theorem setFlag_p (s : State) (f : Flag) (b : Bool) : (s.setFlag f b).p = withFlag f b s.p := rfl
@[simp] theorem setFlag_opcode (s : State) (f : Flag) (b : Bool) : (s.setFlag f b).opcode = s.opcode := rfl
@[simp] theorem setFlag_addrAbs (s : State) (f : Flag) (b : Bool) : (s.setFlag f b).addrAbs = s.addrAbs := rfl
@[simp] theorem setFlag_addrRel (s : State) (f : Flag) (b : Bool) : (s.setFlag f b).addrRel = s.addrRel := rfl
@[simp] theorem setFlag_fetched (s : State) (f : Flag) (b : Bool) : (s.setFlag f b).fetched = s.fetched := rfl
@[simp] theorem setFlag_cycles (s : State) (f : Flag) (b : Bool) : (s.setFlag f b).cycles = s.cycles := rfl
@[simp] theorem setFlag_resetPending (s : State) (f : Flag) (b : Bool) : (s.setFlag f b).resetPending = s.resetPending := rfl
@[simp] theorem setFlag_nmiPending (s : State) (f : Flag) (b : Bool) : (s.setFlag f b).nmiPending = s.nmiPending := rfl
@[simp] theorem setFlag_irqPending (s : State) (f : Flag) (b : Bool) : (s.setFlag f b).irqPending = s.irqPending := rfl
@[simp] theorem setFlag_busConnected (s : State) (f : Flag) (b : Bool) : (s.setFlag f b).busConnected = s.busConnected := rfl
@[simp] theorem setFlag_mem (s : State) (f : Flag) (b : Bool) : (s.setFlag f b).mem = s.mem := rfl

@[simp] theorem loadP_a (s : State) (v : Byte) : (s.loadP v).a = s.a := rfl
@[simp] theorem loadP_x (s : State) (v : Byte) : (s.loadP v).x = s.x := rfl
@[simp] theorem loadP_y (s : State) (v : Byte) : (s.loadP v).y = s.y := rfl
@[simp] theorem loadP_sp (s : State) (v : Byte) : (s.loadP v).sp = s.sp := rfl
@[simp] theorem loadP_pc (s : State) (v : Byte) : (s.loadP v).pc = s.pc := rfl
@[simp] theorem loadP_p (s : State) (v : Byte) : (s.loadP v).p = statusOf v := rfl
@[simp] theorem loadP_opcode (s : State) (v : Byte) : (s.loadP v).opcode = s.opcode := rfl
@[simp] theorem loadP_addrAbs (s : State) (v : Byte) : (s.loadP v).addrAbs = s.addrAbs := rfl
@[simp] theorem loadP_addrRel (s : State) (v : Byte) : (s.loadP v).addrRel = s.addrRel := rfl
@[simp] theorem loadP_fetched (s : State) (v : Byte) : (s.loadP v).fetched = s.fetched := rfl
@[simp] theorem loadP_cycles (s : State) (v : Byte) : (s.loadP v).cycles = s.cycles := rfl
@[simp] theorem loadP_resetPending (s : State) (v : Byte) : (s.loadP v).resetPending = s.resetPending := rfl
@[simp] theorem loadP_nmiPending (s : State) (v : Byte) : (s.loadP v).nmiPending = s.nmiPending := rfl
@[simp] theorem loadP_irqPending (s : State) (v : Byte) : (s.loadP v).irqPending = s.irqPending := rfl
@[simp] theorem loadP_busConnected (s : State) (v : Byte) : (s.loadP v).busConnected = s.busConnected := rfl
@[simp] theorem loadP_mem (s : State) (v : Byte) : (s.loadP v).mem = s.mem := rfl

@[simp] theorem setZN_a (s : State) (v : Byte) : (s.setZN v).a = s.a := rfl
@[simp] theorem setZN_x (s : State) (v : Byte) : (s.setZN v).x = s.x := rfl
@[simp] theorem setZN_y (s : State) (v : Byte) : (s.setZN v).y = s.y := rfl
@[simp] theorem setZN_sp (s : State) (v : Byte) : (s.setZN v).sp = s.sp := rfl
@[simp] theorem setZN_pc (s : State) (v : Byte) : (s.setZN v).pc = s.pc := rfl
@[simp] theorem setZN_p (s : State) (v : Byte) : (s.setZN v).p = withFlag .n v.msb (withFlag .z (v == 0) s.p) := rfl
@[simp] theorem setZN_opcode (s : State) (v : Byte) : (s.setZN v).opcode = s.opcode := rfl
@[simp] theorem setZN_addrAbs (s : State) (v : Byte) : (s.setZN v).addrAbs = s.addrAbs := rfl
@[simp] theorem setZN_addrRel (s : State) (v : Byte) : (s.setZN v).addrRel = s.addrRel := rfl
@[simp] theorem setZN_fetched (s : State) (v : Byte) : (s.setZN v).fetched = s.fetched := rfl
@[simp] theorem setZN_cycles (s : State) (v : Byte) : (s.setZN v).cycles = s.cycles := rfl
@[simp] theorem setZN_resetPending (s : State) (v : Byte) : (s.setZN v).resetPending = s.resetPending := rfl
@[simp] theorem setZN_nmiPending (s : State) (v : Byte) : (s.setZN v).nmiPending = s.nmiPending := rfl
@[simp] theorem setZN_irqPending (s : State) (v : Byte) : (s.setZN v).irqPending = s.irqPending := rfl
@[simp] theorem setZN_busConnected (s : State) (v : Byte) : (s.setZN v).busConnected = s.busConnected := rfl
@[simp] theorem setZN_mem (s : State) (v : Byte) : (s.setZN v).mem = s.mem := rfl

@[simp] theorem write_a (s : State) (a : Addr) (v : Byte) : (s.write a v).a = s.a := rfl
@[simp] theorem write_x (s : State) (a : Addr) (v : Byte) : (s.write a v).x = s.x := rfl
@[simp] theorem write_y (s : State) (a : Addr) (v : Byte) : (s.write a v).y = s.y := rfl
@[simp] theorem write_sp (s : State) (a : Addr) (v : Byte) : (s.write a v).sp = s.sp := rfl
@[simp] theorem write_pc (s : State) (a : Addr) (v : Byte) : (s.write a v).pc = s.pc := rfl
@[simp] theorem write_p (s : State) (a : Addr) (v : Byte) : (s.write a v).p = s.p := rfl
@[simp] theorem write_opcode (s : State) (a : Addr) (v : Byte) : (s.write a v).opcode = s.opcode := rfl
@[simp] theorem write_addrAbs (s : State) (a : Addr) (v : Byte) : (s.write a v).addrAbs = s.addrAbs := rfl
@[simp] theorem write_addrRel (s : State) (a : Addr) (v : Byte) : (s.write a v).addrRel = s.addrRel := rfl
@[simp] theorem write_fetched (s : State) (a : Addr) (v : Byte) : (s.write a v).fetched = s.fetched := rfl
@[simp] theorem write_cycles (s : State) (a : Addr) (v : Byte) : (s.write a v).cycles = s.cycles := rfl
@[simp] theorem write_resetPending (s : State) (a : Addr) (v : Byte) : (s.write a v).resetPending = s.resetPending := rfl
@[simp] theorem write_nmiPending (s : State) (a : Addr) (v : Byte) : (s.write a v).nmiPending = s.nmiPending := rfl
@[simp] theorem write_irqPending (s : State) (a : Addr) (v : Byte) : (s.write a v).irqPending = s.irqPending := rfl
@[simp] theorem write_busConnected (s : State) (a : Addr) (v : Byte) : (s.write a v).busConnected = s.busConnected := rfl
@[simp] theorem write_mem (s : State) (a : Addr) (v : Byte) : (s.write a v).mem = Memory.write s.mem a.toNat v := rfl

@[simp] theorem push_a (s : State) (v : Byte) : (s.push v).a = s.a := rfl
@[simp] theorem push_x (s : State) (v : Byte) : (s.push v).x = s.x := rfl
@[simp] theorem push_y (s : State) (v : Byte) : (s.push v).y = s.y := rfl
@[simp] theorem push_sp (s : State) (v : Byte) : (s.push v).sp = s.sp - 1 := rfl
@[simp] theorem push_pc (s : State) (v : Byte) : (s.push v).pc = s.pc := rfl
@[simp] theorem push_p (s : State) (v : Byte) : (s.push v).p = s.p := rfl
@[simp] theorem push_opcode (s : State) (v : Byte) : (s.push v).opcode = s.opcode := rfl
@[simp] theorem push_addrAbs (s : State) (v : Byte) : (s.push v).addrAbs = s.addrAbs := rfl
@[simp] theorem push_addrRel (s : State) (v : Byte) : (s.push v).addrRel = s.addrRel := rfl
@[simp] theorem push_fetched (s : State) (v : Byte) : (s.push v).fetched = s.fetched := rfl
@[simp] theorem push_cycles (s : State) (v : Byte) : (s.push v).cycles = s.cycles := rfl
@[simp] theorem push_resetPending (s : State) (v : Byte) : (s.push v).resetPending = s.resetPending := rfl
@[simp] theorem push_nmiPending (s : State) (v : Byte) : (s.push v).nmiPending = s.nmiPending := rfl
@[simp] theorem push_irqPending (s : State) (v : Byte) : (s.push v).irqPending = s.irqPending := rfl
@[simp] theorem push_busConnected (s : State) (v : Byte) : (s.push v).busConnected = s.busConnected := rfl
@[simp] theorem push_mem (s : State) (v : Byte) : (s.push v).mem = Memory.write s.mem (stackCell s.sp).toNat v := rfl

@[simp] theorem pull_a (s : State) : (s.pull).a = s.a := rfl
@[simp] theorem pull_x (s : State) : (s.pull).x = s.x := rfl
@[simp] theorem pull_y (s : State) : (s.pull).y = s.y := rfl
@[simp] theorem pull_sp (s : State) : (s.pull).sp = s.sp + 1 := rfl
@[simp] theorem pull_pc (s : State) : (s.pull).pc = s.pc := rfl
@[simp] theorem pull_p (s : State) : (s.pull).p = s.p := rfl
@[simp] theorem pull_opcode (s : State) : (s.pull).opcode = s.opcode := rfl
@[simp] theorem pull_addrAbs (s : State) : (s.pull).addrAbs = s.addrAbs := rfl
@[simp] theorem pull_addrRel (s : State) : (s.pull).addrRel = s.addrRel := rfl
@[simp] theorem pull_fetched (s : State) : (s.pull).fetched = s.fetched := rfl
@[simp] theorem pull_cycles (s : State) : (s.pull).cycles = s.cycles := rfl
@[simp] theorem pull_resetPending (s : State) : (s.pull).resetPending = s.resetPending := rfl
@[simp] theorem pull_nmiPending (s : State) : (s.pull).nmiPending = s.nmiPending := rfl
@[simp] theorem pull_irqPending (s : State) : (s.pull).irqPending = s.irqPending := rfl
@[simp] theorem pull_busConnected (s : State) : (s.pull).busConnected = s.busConnected := rfl
@[simp] theorem pull_mem (s : State) : (s.pull).mem = s.mem := rfl

@[simp] theorem pushAddr_a (s : State) (a : Addr) : (s.pushAddr a).a = s.a := rfl
@[simp] theorem pushAddr_x (s : State) (a : Addr) : (s.pushAddr a).x = s.x := rfl
@[simp] theorem pushAddr_y (s : State) (a : Addr) : (s.pushAddr a).y = s.y := rfl
@[simp] theorem pushAddr_sp (s : State) (a : Addr) : (s.pushAddr a).sp = s.sp - 1 - 1 := rfl
@[simp] theorem pushAddr_pc (s : State) (a : Addr) : (s.pushAddr a).pc = s.pc := rfl
@[simp] theorem pushAddr_p (s : State) (a : Addr) : (s.pushAddr a).p = s.p := rfl
@[simp] theorem pushAddr_opcode (s : State) (a : Addr) : (s.pushAddr a).opcode = s.opcode := rfl
@[simp] theorem pushAddr_addrAbs (s : State) (a : Addr) : (s.pushAddr a).addrAbs = s.addrAbs := rfl
@[simp] theorem pushAddr_addrRel (s : State) (a : Addr) : (s.pushAddr a).addrRel = s.addrRel := rfl
@[simp] theorem pushAddr_fetched (s : State) (a : Addr) : (s.pushAddr a).fetched = s.fetched := rfl
@[simp] theorem pushAddr_cycles (s : State) (a : Addr) : (s.pushAddr a).cycles = s.cycles := rfl
@[simp] theorem pushAddr_resetPending (s : State) (a : Addr) : (s.pushAddr a).resetPending = s.resetPending := rfl
@[simp] theorem pushAddr_nmiPending (s : State) (a : Addr) : (s.pushAddr a).nmiPending = s.nmiPending := rfl
@[simp] theorem pushAddr_irqPending (s : State) (a : Addr) : (s.pushAddr a).irqPending = s.irqPending := rfl
@[simp] theorem pushAddr_busConnected (s : State) (a : Addr) : (s.pushAddr a).busConnected = s.busConnected := rfl

@[simp] theorem pullAddr_a (s : State) : (s.pullAddr).a = s.a := rfl
@[simp] theorem pullAddr_x (s : State) : (s.pullAddr).x = s.x := rfl
@[simp] theorem pullAddr_y (s : State) : (s.pullAddr).y = s.y := rfl
@[simp] theorem pullAddr_sp (s : State) : (s.pullAddr).sp = s.sp + 1 + 1 := rfl
@[simp] theorem pullAddr_pc (s : State) : (s.pullAddr).pc = s.pc := rfl
@[simp] theorem pullAddr_p (s : State) : (s.pullAddr).p = s.p := rfl
@[simp] theorem pullAddr_opcode (s : State) : (s.pullAddr).opcode = s.opcode := rfl
@[simp] theorem pullAddr_addrAbs (s : State) : (s.pullAddr).addrAbs = s.addrAbs := rfl
@[simp] theorem pullAddr_addrRel (s : State) : (s.pullAddr).addrRel = s.addrRel := rfl
@[simp] theorem pullAddr_fetched (s : State) : (s.pullAddr).fetched = s.fetched := rfl
@[simp] theorem pullAddr_cycles (s : State) : (s.pullAddr).cycles = s.cycles := rfl
@[simp] theorem pullAddr_resetPending (s : State) : (s.pullAddr).resetPending = s.resetPending := rfl
@[simp] theorem pullAddr_nmiPending (s : State) : (s.pullAddr).nmiPending = s.nmiPending := rfl
@[simp] theorem pullAddr_irqPending (s : State) : (s.pullAddr).irqPending = s.irqPending := rfl
@[simp] theorem pullAddr_busConnected (s : State) : (s.pullAddr).busConnected = s.busConnected := rfl
@[simp] theorem pullAddr_mem (s : State) : (s.pullAddr).mem = s.mem := rfl

@[simp] theorem takeException_a (s : State) (ret : Addr) (status : Byte) (vec : Addr) : (s.takeException ret status vec).a = s.a := by simp [State.takeException]
@[simp] theorem takeException_x (s : State) (ret : Addr) (status : Byte) (vec : Addr) : (s.takeException ret status vec).x = s.x := by simp [State.takeException]
@[simp] theorem takeException_y (s : State) (ret : Addr) (status : Byte) (vec : Addr) : (s.takeException ret status vec).y = s.y := by simp [State.takeException]
@[simp] theorem takeException_sp (s : State) (ret : Addr) (status : Byte) (vec : Addr) : (s.takeException ret status vec).sp = s.sp - 1 - 1 - 1 := by simp [State.takeException]
@[simp] theorem takeException_p (s : State) (ret : Addr) (status : Byte) (vec : Addr) : (s.takeException ret status vec).p = withFlag .i true s.p := by simp [State.takeException]
@[simp] theorem takeException_opcode (s : State) (ret : Addr) (status : Byte) (vec : Addr) : (s.takeException ret status vec).opcode = s.opcode := by simp [State.takeException]
@[simp] theorem takeException_addrAbs (s : State) (ret : Addr) (status : Byte) (vec : Addr) : (s.takeException ret status vec).addrAbs = s.addrAbs := by simp [State.takeException]
@[simp] theorem takeException_addrRel (s : State) (ret : Addr) (status : Byte) (vec : Addr) : (s.takeException ret status vec).addrRel = s.addrRel := by simp [State.takeException]
@[simp] theorem takeException_fetched (s : State) (ret : Addr) (status : Byte) (vec : Addr) : (s.takeException ret status vec).fetched = s.fetched := by simp [State.takeException]
@[simp] theorem takeException_cycles (s : State) (ret : Addr) (status : Byte) (vec : Addr) : (s.takeException ret status vec).cycles = s.cycles := by simp [State.takeException]
@[simp] theorem takeException_resetPending (s : State) (ret : Addr) (status : Byte) (vec : Addr) : (s.takeException ret status vec).resetPending = s.resetPending := by simp [State.takeException]
@[simp] theorem takeException_nmiPending (s : State) (ret : Addr) (status : Byte) (vec : Addr) : (s.takeException ret status vec).nmiPending = s.nmiPending := by simp [State.takeException]
@[simp] theorem takeException_irqPending (s : State) (ret : Addr) (status : Byte) (vec : Addr) : (s.takeException ret status vec).irqPending = s.irqPending := by simp [State.takeException]
@[simp] theorem takeException_busConnected (s : State) (ret : Addr) (status : Byte) (vec : Addr) : (s.takeException ret status vec).busConnected = s.busConnected := by simp [State.takeException]

@[simp] theorem returnFromException_a (s : State) : (s.returnFromException).a = s.a := by simp [State.returnFromException]
@[simp] theorem returnFromException_x (s : State) : (s.returnFromException).x = s.x := by simp [State.returnFromException]
@[simp] theorem returnFromException_y (s : State) : (s.returnFromException).y = s.y := by simp [State.returnFromException]
@[simp] theorem returnFromException_sp (s : State) : (s.returnFromException).sp = s.sp + 1 + 1 + 1 := by simp [State.returnFromException]
@[simp] theorem returnFromException_p (s : State) : (s.returnFromException).p = statusOf s.pulled := by simp [State.returnFromException]
@[simp] theorem returnFromException_opcode (s : State) : (s.returnFromException).opcode = s.opcode := by simp [State.returnFromException]
@[simp] theorem returnFromException_addrAbs (s : State) : (s.returnFromException).addrAbs = s.addrAbs := by simp [State.returnFromException]
@[simp] theorem returnFromException_addrRel (s : State) : (s.returnFromException).addrRel = s.addrRel := by simp [State.returnFromException]
@[simp] theorem returnFromException_fetched (s : State) : (s.returnFromException).fetched = s.fetched := by simp [State.returnFromException]
@[simp] theorem returnFromException_cycles (s : State) : (s.returnFromException).cycles = s.cycles := by simp [State.returnFromException]
@[simp] theorem returnFromException_resetPending (s : State) : (s.returnFromException).resetPending = s.resetPending := by simp [State.returnFromException]
@[simp] theorem returnFromException_nmiPending (s : State) : (s.returnFromException).nmiPending = s.nmiPending := by simp [State.returnFromException]
@[simp] theorem returnFromException_irqPending (s : State) : (s.returnFromException).irqPending = s.irqPending := by simp [State.returnFromException]
@[simp] theorem returnFromException_busConnected (s : State) : (s.returnFromException).busConnected = s.busConnected := by simp [State.returnFromException]
@[simp] theorem returnFromException_mem (s : State) : (s.returnFromException).mem = s.mem := by simp [State.returnFromException]

@[simp] theorem beginInstr_a (s : State) (opcode : Byte) : (beginInstr opcode s).a = s.a := rfl
@[simp] theorem beginInstr_x (s : State) (opcode : Byte) : (beginInstr opcode s).x = s.x := rfl
@[simp] theorem beginInstr_y (s : State) (opcode : Byte) : (beginInstr opcode s).y = s.y := rfl
@[simp] theorem beginInstr_sp (s : State) (opcode : Byte) : (beginInstr opcode s).sp = s.sp := rfl
@[simp] theorem beginInstr_pc (s : State) (opcode : Byte) : (beginInstr opcode s).pc = s.pc + 1 := rfl
@[simp] theorem beginInstr_p (s : State) (opcode : Byte) : (beginInstr opcode s).p = s.p := rfl
@[simp] theorem beginInstr_opcode (s : State) (opcode : Byte) : (beginInstr opcode s).opcode = opcode := rfl
@[simp] theorem beginInstr_addrAbs (s : State) (opcode : Byte) : (beginInstr opcode s).addrAbs = s.addrAbs := rfl
@[simp] theorem beginInstr_addrRel (s : State) (opcode : Byte) : (beginInstr opcode s).addrRel = s.addrRel := rfl
@[simp] theorem beginInstr_fetched (s : State) (opcode : Byte) : (beginInstr opcode s).fetched = s.fetched := rfl
@[simp] theorem beginInstr_cycles (s : State) (opcode : Byte) : (beginInstr opcode s).cycles = (desc opcode).baseCycles := rfl
@[simp] theorem beginInstr_resetPending (s : State) (opcode : Byte) : (beginInstr opcode s).resetPending = s.resetPending := rfl
@[simp] theorem beginInstr_nmiPending (s : State) (opcode : Byte) : (beginInstr opcode s).nmiPending = s.nmiPending := rfl
@[simp] theorem beginInstr_irqPending (s : State) (opcode : Byte) : (beginInstr opcode s).irqPending = s.irqPending := rfl
@[simp] theorem beginInstr_busConnected (s : State) (opcode : Byte) : (beginInstr opcode s).busConnected = s.busConnected := rfl
@[simp] theorem beginInstr_mem (s : State) (opcode : Byte) : (beginInstr opcode s).mem = s.mem := rfl

@[simp] theorem addExtraCycle_a (s : State) (m o : Bool) : (addExtraCycle m o s).a = s.a := rfl
@[simp] theorem addExtraCycle_x (s : State) (m o : Bool) : (addExtraCycle m o s).x = s.x := rfl
@[simp] theorem addExtraCycle_y (s : State) (m o : Bool) : (addExtraCycle m o s).y = s.y := rfl
@[simp] theorem addExtraCycle_sp (s : State) (m o : Bool) : (addExtraCycle m o s).sp = s.sp := rfl
@[simp] theorem addExtraCycle_pc (s : State) (m o : Bool) : (addExtraCycle m o s).pc = s.pc := rfl
@[simp] theorem addExtraCycle_p (s : State) (m o : Bool) : (addExtraCycle m o s).p = s.p := rfl
@[simp] theorem addExtraCycle_opcode (s : State) (m o : Bool) : (addExtraCycle m o s).opcode = s.opcode := rfl
@[simp] theorem addExtraCycle_addrAbs (s : State) (m o : Bool) : (addExtraCycle m o s).addrAbs = s.addrAbs := rfl
@[simp] theorem addExtraCycle_addrRel (s : State) (m o : Bool) : (addExtraCycle m o s).addrRel = s.addrRel := rfl
@[simp] theorem addExtraCycle_fetched (s : State) (m o : Bool) : (addExtraCycle m o s).fetched = s.fetched := rfl
@[simp] theorem addExtraCycle_cycles (s : State) (m o : Bool) : (addExtraCycle m o s).cycles = s.cycles + (m && o).toNat := rfl
@[simp] theorem addExtraCycle_resetPending (s : State) (m o : Bool) : (addExtraCycle m o s).resetPending = s.resetPending := rfl
@[simp] theorem addExtraCycle_nmiPending (s : State) (m o : Bool) : (addExtraCycle m o s).nmiPending = s.nmiPending := rfl
@[simp] theorem addExtraCycle_irqPending (s : State) (m o : Bool) : (addExtraCycle m o s).irqPending = s.irqPending := rfl
@[simp] theorem addExtraCycle_busConnected (s : State) (m o : Bool) : (addExtraCycle m o s).busConnected = s.busConnected := rfl
@[simp] theorem addExtraCycle_mem (s : State) (m o : Bool) : (addExtraCycle m o s).mem = s.mem := rfl

@[simp] theorem raiseReset_a (s : State) : (s.raiseReset).a = s.a := rfl
@[simp] theorem raiseReset_x (s : State) : (s.raiseReset).x = s.x := rfl
@[simp] theorem raiseReset_y (s : State) : (s.raiseReset).y = s.y := rfl
@[simp] theorem raiseReset_sp (s : State) : (s.raiseReset).sp = s.sp := rfl
@[simp] theorem raiseReset_pc (s : State) : (s.raiseReset).pc = s.pc := rfl
@[simp] theorem raiseReset_p (s : State) : (s.raiseReset).p = s.p := rfl
@[simp] theorem raiseReset_opcode (s : State) : (s.raiseReset).opcode = s.opcode := rfl
@[simp] theorem raiseReset_addrAbs (s : State) : (s.raiseReset).addrAbs = s.addrAbs := rfl
@[simp] theorem raiseReset_addrRel (s : State) : (s.raiseReset).addrRel = s.addrRel := rfl
@[simp] theorem raiseReset_fetched (s : State) : (s.raiseReset).fetched = s.fetched := rfl
@[simp] theorem raiseReset_cycles (s : State) : (s.raiseReset).cycles = s.cycles := rfl
@[simp] theorem raiseReset_resetPending (s : State) : (s.raiseReset).resetPending = true := rfl
@[simp] theorem raiseReset_nmiPending (s : State) : (s.raiseReset).nmiPending = s.nmiPending := rfl
@[simp] theorem raiseReset_irqPending (s : State) : (s.raiseReset).irqPending = s.irqPending := rfl
@[simp] theorem raiseReset_busConnected (s : State) : (s.raiseReset).busConnected = s.busConnected := rfl
@[simp] theorem raiseReset_mem (s : State) : (s.raiseReset).mem = s.mem := rfl

@[simp] theorem raiseNmi_a (s : State) : (s.raiseNmi).a = s.a := rfl
@[simp] theorem raiseNmi_x (s : State) : (s.raiseNmi).x = s.x := rfl
@[simp] theorem raiseNmi_y (s : State) : (s.raiseNmi).y = s.y := rfl
@[simp] theorem raiseNmi_sp (s : State) : (s.raiseNmi).sp = s.sp := rfl
@[simp] theorem raiseNmi_pc (s : State) : (s.raiseNmi).pc = s.pc := rfl
@[simp] theorem raiseNmi_p (s : State) : (s.raiseNmi).p = s.p := rfl
@[simp] theorem raiseNmi_opcode (s : State) : (s.raiseNmi).opcode = s.opcode := rfl
@[simp] theorem raiseNmi_addrAbs (s : State) : (s.raiseNmi).addrAbs = s.addrAbs := rfl
@[simp] theorem raiseNmi_addrRel (s : State) : (s.raiseNmi).addrRel = s.addrRel := rfl
@[simp] theorem raiseNmi_fetched (s : State) : (s.raiseNmi).fetched = s.fetched := rfl
@[simp] theorem raiseNmi_cycles (s : State) : (s.raiseNmi).cycles = s.cycles := rfl
@[simp] theorem raiseNmi_resetPending (s : State) : (s.raiseNmi).resetPending = s.resetPending := rfl
@[simp] theorem raiseNmi_nmiPending (s : State) : (s.raiseNmi).nmiPending = true := rfl
@[simp] theorem raiseNmi_irqPending (s : State) : (s.raiseNmi).irqPending = s.irqPending := rfl
@[simp] theorem raiseNmi_busConnected (s : State) : (s.raiseNmi).busConnected = s.busConnected := rfl
@[simp] theorem raiseNmi_mem (s : State) : (s.raiseNmi).mem = s.mem := rfl

@[simp] theorem raiseIrq_a (s : State) : (s.raiseIrq).a = s.a := rfl
@[simp] theorem raiseIrq_x (s : State) : (s.raiseIrq).x = s.x := rfl
@[simp] theorem raiseIrq_y (s : State) : (s.raiseIrq).y = s.y := rfl
@[simp] theorem raiseIrq_sp (s : State) : (s.raiseIrq).sp = s.sp := rfl
@[simp] theorem raiseIrq_pc (s : State) : (s.raiseIrq).pc = s.pc := rfl
@[simp] theorem raiseIrq_p (s : State) : (s.raiseIrq).p = s.p := rfl
@[simp] theorem raiseIrq_opcode (s : State) : (s.raiseIrq).opcode = s.opcode := rfl
@[simp] theorem raiseIrq_addrAbs (s : State) : (s.raiseIrq).addrAbs = s.addrAbs := rfl
@[simp] theorem raiseIrq_addrRel (s : State) : (s.raiseIrq).addrRel = s.addrRel := rfl
@[simp] theorem raiseIrq_fetched (s : State) : (s.raiseIrq).fetched = s.fetched := rfl
@[simp] theorem raiseIrq_cycles (s : State) : (s.raiseIrq).cycles = s.cycles := rfl
@[simp] theorem raiseIrq_resetPending (s : State) : (s.raiseIrq).resetPending = s.resetPending := rfl
@[simp] theorem raiseIrq_nmiPending (s : State) : (s.raiseIrq).nmiPending = s.nmiPending := rfl
@[simp] theorem raiseIrq_irqPending (s : State) : (s.raiseIrq).irqPending = true := rfl
@[simp] theorem raiseIrq_busConnected (s : State) : (s.raiseIrq).busConnected = s.busConnected := rfl
@[simp] theorem raiseIrq_mem (s : State) : (s.raiseIrq).mem = s.mem := rfl

@[simp] theorem intSeq_a (s : State) (vec : Addr) : (intSeq vec s).a = s.a := by simp [intSeq]
@[simp] theorem intSeq_x (s : State) (vec : Addr) : (intSeq vec s).x = s.x := by simp [intSeq]
@[simp] theorem intSeq_y (s : State) (vec : Addr) : (intSeq vec s).y = s.y := by simp [intSeq]
@[simp] theorem intSeq_sp (s : State) (vec : Addr) : (intSeq vec s).sp = s.sp - 1 - 1 - 1 := by simp [intSeq]
@[simp] theorem intSeq_p (s : State) (vec : Addr) : (intSeq vec s).p = withFlag .i true s.p := by simp [intSeq]
@[simp] theorem intSeq_opcode (s : State) (vec : Addr) : (intSeq vec s).opcode = s.opcode := by simp [intSeq]
@[simp] theorem intSeq_addrAbs (s : State) (vec : Addr) : (intSeq vec s).addrAbs = s.addrAbs := by simp [intSeq]
@[simp] theorem intSeq_addrRel (s : State) (vec : Addr) : (intSeq vec s).addrRel = s.addrRel := by simp [intSeq]
@[simp] theorem intSeq_fetched (s : State) (vec : Addr) : (intSeq vec s).fetched = s.fetched := by simp [intSeq]
@[simp] theorem intSeq_cycles (s : State) (vec : Addr) : (intSeq vec s).cycles = params.intCycles := by simp [intSeq]
@[simp] theorem intSeq_resetPending (s : State) (vec : Addr) : (intSeq vec s).resetPending = s.resetPending := by simp [intSeq]
@[simp] theorem intSeq_nmiPending (s : State) (vec : Addr) : (intSeq vec s).nmiPending = s.nmiPending := by simp [intSeq]
@[simp] theorem intSeq_irqPending (s : State) (vec : Addr) : (intSeq vec s).irqPending = s.irqPending := by simp [intSeq]
@[simp] theorem intSeq_busConnected (s : State) (vec : Addr) : (intSeq vec s).busConnected = s.busConnected := by simp [intSeq]

end Sys2Proof.Machine
end

