-- ==== Sys2Proof/Laws/Operands.lean ====
section
/-! SUPPORT. The resolver, the operand fetch and the write-back, field by field: what each leaves as it
is, for every operand form (R80, R93, R94). -/

namespace Sys2Proof.Machine

open Sys2Proof

@[simp] theorem resolve_a (o : Operand) (s : State) : (resolve o s).a = s.a := by
  cases o <;> rfl
@[simp] theorem resolve_x (o : Operand) (s : State) : (resolve o s).x = s.x := by
  cases o <;> rfl
@[simp] theorem resolve_y (o : Operand) (s : State) : (resolve o s).y = s.y := by
  cases o <;> rfl
@[simp] theorem resolve_sp (o : Operand) (s : State) : (resolve o s).sp = s.sp := by
  cases o <;> rfl
@[simp] theorem resolve_p (o : Operand) (s : State) : (resolve o s).p = s.p := by
  cases o <;> rfl
@[simp] theorem resolve_opcode (o : Operand) (s : State) : (resolve o s).opcode = s.opcode := by
  cases o <;> rfl
@[simp] theorem resolve_cycles (o : Operand) (s : State) : (resolve o s).cycles = s.cycles := by
  cases o <;> rfl
@[simp] theorem resolve_resetPending (o : Operand) (s : State) : (resolve o s).resetPending = s.resetPending := by
  cases o <;> rfl
@[simp] theorem resolve_nmiPending (o : Operand) (s : State) : (resolve o s).nmiPending = s.nmiPending := by
  cases o <;> rfl
@[simp] theorem resolve_irqPending (o : Operand) (s : State) : (resolve o s).irqPending = s.irqPending := by
  cases o <;> rfl
@[simp] theorem resolve_busConnected (o : Operand) (s : State) : (resolve o s).busConnected = s.busConnected := by
  cases o <;> rfl
@[simp] theorem resolve_mem (o : Operand) (s : State) : (resolve o s).mem = s.mem := by
  cases o <;> rfl

@[simp] theorem fetchOperand_a (o : Operand) (s : State) : (fetchOperand o s).a = s.a := by
  cases o <;> rfl
@[simp] theorem fetchOperand_x (o : Operand) (s : State) : (fetchOperand o s).x = s.x := by
  cases o <;> rfl
@[simp] theorem fetchOperand_y (o : Operand) (s : State) : (fetchOperand o s).y = s.y := by
  cases o <;> rfl
@[simp] theorem fetchOperand_sp (o : Operand) (s : State) : (fetchOperand o s).sp = s.sp := by
  cases o <;> rfl
@[simp] theorem fetchOperand_pc (o : Operand) (s : State) : (fetchOperand o s).pc = s.pc := by
  cases o <;> rfl
@[simp] theorem fetchOperand_p (o : Operand) (s : State) : (fetchOperand o s).p = s.p := by
  cases o <;> rfl
@[simp] theorem fetchOperand_opcode (o : Operand) (s : State) : (fetchOperand o s).opcode = s.opcode := by
  cases o <;> rfl
@[simp] theorem fetchOperand_addrAbs (o : Operand) (s : State) : (fetchOperand o s).addrAbs = s.addrAbs := by
  cases o <;> rfl
@[simp] theorem fetchOperand_addrRel (o : Operand) (s : State) : (fetchOperand o s).addrRel = s.addrRel := by
  cases o <;> rfl
@[simp] theorem fetchOperand_cycles (o : Operand) (s : State) : (fetchOperand o s).cycles = s.cycles := by
  cases o <;> rfl
@[simp] theorem fetchOperand_resetPending (o : Operand) (s : State) : (fetchOperand o s).resetPending = s.resetPending := by
  cases o <;> rfl
@[simp] theorem fetchOperand_nmiPending (o : Operand) (s : State) : (fetchOperand o s).nmiPending = s.nmiPending := by
  cases o <;> rfl
@[simp] theorem fetchOperand_irqPending (o : Operand) (s : State) : (fetchOperand o s).irqPending = s.irqPending := by
  cases o <;> rfl
@[simp] theorem fetchOperand_busConnected (o : Operand) (s : State) : (fetchOperand o s).busConnected = s.busConnected := by
  cases o <;> rfl
@[simp] theorem fetchOperand_mem (o : Operand) (s : State) : (fetchOperand o s).mem = s.mem := by
  cases o <;> rfl

@[simp] theorem writeBack_x (o : Operand) (s : State) (v : Byte) : (writeBack o v s).x = s.x := by
  cases o <;> rfl
@[simp] theorem writeBack_y (o : Operand) (s : State) (v : Byte) : (writeBack o v s).y = s.y := by
  cases o <;> rfl
@[simp] theorem writeBack_sp (o : Operand) (s : State) (v : Byte) : (writeBack o v s).sp = s.sp := by
  cases o <;> rfl
@[simp] theorem writeBack_pc (o : Operand) (s : State) (v : Byte) : (writeBack o v s).pc = s.pc := by
  cases o <;> rfl
@[simp] theorem writeBack_p (o : Operand) (s : State) (v : Byte) : (writeBack o v s).p = s.p := by
  cases o <;> rfl
@[simp] theorem writeBack_opcode (o : Operand) (s : State) (v : Byte) : (writeBack o v s).opcode = s.opcode := by
  cases o <;> rfl
@[simp] theorem writeBack_addrAbs (o : Operand) (s : State) (v : Byte) : (writeBack o v s).addrAbs = s.addrAbs := by
  cases o <;> rfl
@[simp] theorem writeBack_addrRel (o : Operand) (s : State) (v : Byte) : (writeBack o v s).addrRel = s.addrRel := by
  cases o <;> rfl
@[simp] theorem writeBack_fetched (o : Operand) (s : State) (v : Byte) : (writeBack o v s).fetched = s.fetched := by
  cases o <;> rfl
@[simp] theorem writeBack_cycles (o : Operand) (s : State) (v : Byte) : (writeBack o v s).cycles = s.cycles := by
  cases o <;> rfl
@[simp] theorem writeBack_resetPending (o : Operand) (s : State) (v : Byte) : (writeBack o v s).resetPending = s.resetPending := by
  cases o <;> rfl
@[simp] theorem writeBack_nmiPending (o : Operand) (s : State) (v : Byte) : (writeBack o v s).nmiPending = s.nmiPending := by
  cases o <;> rfl
@[simp] theorem writeBack_irqPending (o : Operand) (s : State) (v : Byte) : (writeBack o v s).irqPending = s.irqPending := by
  cases o <;> rfl
@[simp] theorem writeBack_busConnected (o : Operand) (s : State) (v : Byte) : (writeBack o v s).busConnected = s.busConnected := by
  cases o <;> rfl

/-- PC after the resolver: past the operand bytes (R80). -/
@[simp] theorem resolve_pc (o : Operand) (s : State) :
    (resolve o s).pc = s.pc + BitVec.ofNat 16 o.mode.operandBytes := by
  cases o <;> simp [resolve, Operand.mode, Mode.operandBytes]

/-- `addr_abs` after the resolver (R81 to R92). -/
@[simp] theorem resolve_addrAbs (o : Operand) (s : State) : (resolve o s).addrAbs = effAddr o s := by
  cases o <;> rfl

/-- The effective address is the same before and after the opcode byte, but in Immediate mode. -/
theorem effAddr_beginInstr (o : Operand) (opcode : Byte) (s : State) (h : o.mode ≠ .imm) :
    effAddr o (beginInstr opcode s) = effAddr o s := by
  cases o <;> first | rfl | exact absurd rfl h

/-- What `Fetch` leaves in `fetched` after the resolver is the operand byte (R93), in the modes that an
operation with an operand has. -/
theorem fetchOperand_resolve_fetched (o : Operand) (opcode : Byte) (s : State) :
    (fetchOperand o (resolve o (beginInstr opcode s))).fetched = operandByte o s := by
  cases o <;> rfl

end Sys2Proof.Machine
end

