-- ==== Sys2Proof/Laws/Flags.lean ====
section
/-! SUPPORT. The laws of the status register (R15, R24, R25): a single-flag write changes that flag only,
a whole-register write sets U, SetZN writes Z and N. -/

namespace Sys2Proof.Machine

open Sys2Proof

/-- The positions are those of eight different bits. -/
theorem Flag.position_lt (f : Flag) : f.position < 8 := by cases f <;> decide

/-- No two flags share a bit. -/
theorem Flag.position_inj {f g : Flag} (h : g.position = f.position) : g = f := by
  revert h; cases f <;> cases g <;> decide

/-- The mask of a flag has exactly its bit. -/
theorem Flag.mask_bit (f : Flag) (k : Nat) (h : k < 8) : f.mask.getLsbD k = decide (k = f.position) := by
  have := f.position_lt
  simp only [Flag.mask, BitVec.getLsbD_shiftLeft, BitVec.getLsbD_one]
  by_cases e : k = f.position
  · subst e; simp [h]
  · simp [e]; omega

/-- The flag written. -/
@[simp] theorem flagOf_withFlag_same (f : Flag) (b : Bool) (p : Byte) : flagOf f (withFlag f b p) = b := by
  have := f.position_lt
  cases b <;> simp [flagOf, withFlag, f.mask_bit _ this, this]

/-- Every other flag. -/
theorem flagOf_withFlag_other {f g : Flag} (b : Bool) (p : Byte) (h : g ≠ f) :
    flagOf g (withFlag f b p) = flagOf g p := by
  have hg := g.position_lt
  have hp : g.position ≠ f.position := fun e => h (Flag.position_inj e)
  have hm : f.mask[g.position] = false := by
    simpa [hp, BitVec.getLsbD_eq_getElem hg] using f.mask_bit _ hg
  cases b <;> simp [flagOf, withFlag, hm, hg]

/-- A flag read after a flag write. -/
theorem flagOf_withFlag (f g : Flag) (b : Bool) (p : Byte) :
    flagOf g (withFlag f b p) = if g = f then b else flagOf g p := by
  by_cases h : g = f
  · subst h; simp
  · simp [h, flagOf_withFlag_other b p h]

/-- The same of a state. -/
@[simp] theorem flag_setFlag (s : State) (f g : Flag) (b : Bool) :
    (s.setFlag f b).flag g = if g = f then b else s.flag g := flagOf_withFlag f g b s.p

/-- A whole-register write loads every flag but U, which it sets (R25). -/
theorem flag_loadP (s : State) (v : Byte) (g : Flag) :
    (s.loadP v).flag g = if g = .u then true else flagOf g v := by
  have hg := g.position_lt
  simp only [State.flag, loadP_p, statusOf, flagOf, BitVec.getLsbD_or, Flag.u.mask_bit _ hg]
  cases g <;> simp [Flag.position]

/-- SetZN (R24). -/
theorem flag_setZN (s : State) (v : Byte) (g : Flag) :
    (s.setZN v).flag g = if g = .n then v.msb else if g = .z then v == 0 else s.flag g := by
  simp [State.setZN]

/-- Two status bytes with the same flags are the same byte. -/
theorem status_ext {p q : Byte} (h : ∀ f, flagOf f p = flagOf f q) : p = q := by
  apply BitVec.eq_of_getLsbD_eq
  intro i hi
  rcases i with _ | _ | _ | _ | _ | _ | _ | _ | i
  · exact h .c
  · exact h .z
  · exact h .i
  · exact h .d
  · exact h .b
  · exact h .u
  · exact h .v
  · exact h .n
  · omega

/-- The sign bit is bit 7. -/
theorem msb_eq_bit7 (v : Byte) : v.msb = v.getLsbD 7 := by simp [BitVec.msb_eq_getLsbD_last]

/-- The sum modulo 256 (R120). -/
theorem sumResult_toNat (a m : Byte) (c : Bool) :
    (sumResult a m c).toNat = (a.toNat + m.toNat + c.toNat) % 256 := by
  simp [sumResult, sumExact]

/-- The carry of a sum (R120). -/
theorem sumCarry_iff (a m : Byte) (c : Bool) : sumCarry a m c = true ↔ a.toNat + m.toNat + c.toNat > 255 := by
  simp [sumCarry, sumExact]

/-- A byte as a signed number. -/
theorem toInt_byte (b : Byte) : b.toInt = if b.toNat < 128 then (b.toNat : Int) else b.toNat - 256 := by
  rw [BitVec.toInt_eq_msb_cond, BitVec.msb_eq_decide]
  simp only [decide_eq_true_eq]
  split <;> split <;> omega

/-- The overflow of a sum: the exact signed sum does not fit (R120). -/
theorem sumOverflow_iff (a m : Byte) (c : Bool) : sumOverflow a m c = true ↔
    a.toInt + m.toInt + (c.toNat : Int) < -128 ∨ a.toInt + m.toInt + (c.toNat : Int) > 127 := by
  have h1 := a.isLt
  have h2 := m.isLt
  have h3 := Bool.toNat_le c
  simp only [sumOverflow, toInt_byte, BitVec.msb_eq_decide, sumResult_toNat, Bool.and_eq_true, beq_iff_eq,
    bne_iff_ne, ne_eq, decide_eq_decide]
  simp
  split <;> split <;> omega

/-- The complement as an unsigned number (R121). -/
theorem complement_toNat (m : Byte) : (complement m).toNat = 255 - m.toNat := by
  revert m; decide

/-- The complement as a signed number (R121). -/
theorem complement_toInt (m : Byte) : (complement m).toInt = -1 - m.toInt := by
  revert m; decide

/-- A shift to the left doubles (R130). -/
theorem shiftLeft_toNat (m : Byte) : (shiftLeft m).toNat = m.toNat * 2 % 256 := by
  revert m; decide

/-- A shift to the right halves (R131). -/
theorem shiftRight_toNat (m : Byte) : (shiftRight m).toNat = m.toNat / 2 := by
  revert m; decide

/-- A rotate to the left doubles and adds the Carry (R132). -/
theorem rotateLeft_toNat (m : Byte) (c : Bool) : (rotateLeft m c).toNat = (m.toNat * 2 + c.toNat) % 256 := by
  revert m c; decide

/-- A rotate to the right halves and adds the Carry as bit 7 (R133). -/
theorem rotateRight_toNat (m : Byte) (c : Bool) : (rotateRight m c).toNat = m.toNat / 2 + 128 * c.toNat := by
  revert m c; decide

end Sys2Proof.Machine
end

