-- ==== Sys2Proof/Laws/Memory.lean ====
section
/-! SUPPORT. The laws of memory: what a write does to every later read, and that it keeps the canonical
form (R41, R42, R58). Memory is a sorted list, so the laws need it in canonical form. -/

namespace Sys2Proof.Machine

open Sys2Proof

/-- A canonical memory whose addresses are all at least `low` is canonical from any smaller bound. -/
theorem Memory.wfFrom_mono {low low' : Nat} (h : low' ≤ low) (m : Memory) (hw : Memory.wfFrom low m = true) :
    Memory.wfFrom low' m = true := by
  cases m with
  | nil => rfl
  | cons c m =>
    obtain ⟨k, v⟩ := c
    simp only [Memory.wfFrom, Bool.and_eq_true, decide_eq_true_eq] at hw ⊢
    exact ⟨⟨⟨by omega, hw.1.1.2⟩, hw.1.2⟩, hw.2⟩

/-- Below its lowest address a canonical memory reads as blank. -/
theorem Memory.read_below {low n : Nat} (m : Memory) (hw : Memory.wfFrom low m = true) (h : n < low) :
    Memory.read m n = blankByte := by
  cases m with
  | nil => rfl
  | cons c m =>
    obtain ⟨k, v⟩ := c
    simp only [Memory.wfFrom, Bool.and_eq_true, decide_eq_true_eq] at hw
    simp [Memory.read, show n < k by omega]

/-- A write keeps the canonical form. -/
theorem Memory.write_wfFrom {low n : Nat} (m : Memory) (v : Byte) (hw : Memory.wfFrom low m = true)
    (hl : low ≤ n) (hn : n < 65536) : Memory.wfFrom low (Memory.write m n v) = true := by
  induction m generalizing low with
  | nil =>
    by_cases hv : v = blankByte <;> simp [Memory.write, Memory.wfFrom, hv, hl, hn]
  | cons c m ih =>
    obtain ⟨k, w⟩ := c
    simp only [Memory.wfFrom, Bool.and_eq_true, decide_eq_true_eq] at hw
    obtain ⟨⟨⟨hk, hk'⟩, hw0⟩, hm⟩ := hw
    simp only [Memory.write]
    split
    · by_cases hv : v = blankByte
      · simp [Memory.wfFrom, hv, hk, hk', hw0, hm]
      · simp [Memory.wfFrom, hv, hl, hn, hk', hw0, hm]; omega
    · split
      · subst n
        by_cases hv : v = blankByte
        · simpa [hv] using Memory.wfFrom_mono (by omega) m hm
        · simp [Memory.wfFrom, hv, hk, hk', hm]
      · simp only [Memory.wfFrom, Bool.and_eq_true, decide_eq_true_eq]
        exact ⟨⟨⟨hk, hk'⟩, hw0⟩, ih hm (by omega)⟩

/-- The address written reads as the byte written. -/
theorem Memory.read_write_same {low n : Nat} (m : Memory) (v : Byte) (hw : Memory.wfFrom low m = true) :
    Memory.read (Memory.write m n v) n = v := by
  induction m generalizing low with
  | nil => by_cases hv : v = blankByte <;> simp [Memory.write, Memory.read, hv]
  | cons c m ih =>
    obtain ⟨k, w⟩ := c
    simp only [Memory.wfFrom, Bool.and_eq_true, decide_eq_true_eq] at hw
    simp only [Memory.write]
    split
    · by_cases hv : v = blankByte <;> simp [Memory.read, *]
    · split
      · subst n
        by_cases hv : v = blankByte
        · simpa [hv] using Memory.read_below m hw.2 (by omega)
        · simp [Memory.read, hv]
      · simp [Memory.read, *, ih hw.2]

/-- Every other address reads as before. -/
theorem Memory.read_write_other {low n q : Nat} (m : Memory) (v : Byte) (hw : Memory.wfFrom low m = true)
    (hq : q ≠ n) : Memory.read (Memory.write m n v) q = Memory.read m q := by
  induction m generalizing low with
  | nil =>
    by_cases hv : v = blankByte
    · simp [Memory.write, hv]
    · simp only [Memory.write, if_neg hv, Memory.read]; simp [hq]
  | cons c m ih =>
    obtain ⟨k, w⟩ := c
    simp only [Memory.wfFrom, Bool.and_eq_true, decide_eq_true_eq] at hw
    simp only [Memory.write]
    split
    · by_cases hv : v = blankByte
      · simp [hv]
      · simp only [if_neg hv, Memory.read]
        split
        · simp [show q < k by omega]
        · simp
    · split
      · subst n
        by_cases hv : v = blankByte
        · simp only [if_pos hv, Memory.read]
          split
          · exact Memory.read_below m hw.2 (by omega)
          · simp
        · simp [if_neg hv, Memory.read, hq]
      · simp [Memory.read, ih hw.2]

/-- A write to an address of the machine keeps the canonical form. -/
theorem Memory.write_wf (m : Memory) (a : Addr) (v : Byte) (hw : m.wf = true) :
    (Memory.write m a.toNat v).wf = true :=
  Memory.write_wfFrom m v hw (Nat.zero_le _) a.isLt

/-- Reading the cell just written. -/
theorem State.read_write_same (s : State) (a : Addr) (v : Byte) (hw : s.mem.wf = true) :
    (s.write a v).read a = v := Memory.read_write_same s.mem v hw

/-- Reading another cell. -/
theorem State.read_write_other (s : State) {a c : Addr} (v : Byte) (hw : s.mem.wf = true) (h : c ≠ a) :
    (s.write a v).read c = s.read c :=
  Memory.read_write_other s.mem v hw fun e => h (BitVec.eq_of_toNat_eq e)

/-- A read depends on memory alone. -/
theorem State.read_congr {s t : State} (h : s.mem = t.mem) (a : Addr) : s.read a = t.read a := by
  simp [State.read, h]

end Sys2Proof.Machine
end

