-- ==== Sys2Proof/Laws/Ops.lean ====
section
/-! SUPPORT. One lemma per shared operation: the stack cells (R48, R49), what a push and an exception
entry leave on the stack (R48, R184, R216), the test of the bus (R55), the decrement (R74). -/

namespace Sys2Proof.Machine

open Sys2Proof

/-- The stack is page 1 (R48, decision D2). -/
theorem stackCell_eq (sp : Byte) : stackCell sp = stackAddr sp := by
  revert sp; decide

/-- The address of a stack cell as a number. -/
theorem stackAddr_toNat (sp : Byte) : (stackAddr sp).toNat = 256 + sp.toNat := by
  have h : (stackCell sp).toNat = 256 + sp.toNat := by
    have := sp.isLt
    simp [stackCell, params, zext]
    omega
  rwa [stackCell_eq] at h

/-- Different stack pointer values index different cells. -/
theorem stackAddr_inj {a b : Byte} (h : stackAddr a = stackAddr b) : a = b := by
  have := congrArg BitVec.toNat h
  simp only [stackAddr_toNat] at this
  exact BitVec.eq_of_toNat_eq (by omega)

/-- A cell outside page 1 is no stack cell. -/
theorem ne_stackAddr {a : Addr} (sp : Byte) (h : 512 ≤ a.toNat) : a ≠ stackAddr sp := by
  intro e
  have := congrArg BitVec.toNat e
  have := sp.isLt
  simp only [stackAddr_toNat] at *
  omega

/-- A push keeps the canonical form. -/
theorem push_wf (s : State) (v : Byte) (hw : s.mem.wf = true) : (s.push v).mem.wf = true :=
  Memory.write_wf s.mem _ v hw

/-- The cell pushed to. -/
theorem read_push_same (s : State) (v : Byte) (hw : s.mem.wf = true) :
    (s.push v).read (stackAddr s.sp) = v := by
  rw [← stackCell_eq]
  exact State.read_write_same s (stackCell s.sp) v hw

/-- Every other cell after a push. -/
theorem read_push_other (s : State) (v : Byte) {a : Addr} (hw : s.mem.wf = true) (h : a ≠ stackAddr s.sp) :
    (s.push v).read a = s.read a :=
  State.read_write_other s v hw (by rwa [stackCell_eq])

/-- The byte that a pull returns (R49). -/
theorem pulled_eq (s : State) : s.pulled = s.read (stackAddr (s.sp + 1)) := by
  simp [State.pulled, stackCell_eq]

/-- The address that two pulls return, low byte first (R49). -/
theorem pulledAddr_eq (s : State) :
    s.pulledAddr = word (s.read (stackAddr (s.sp + 1 + 1))) (s.read (stackAddr (s.sp + 1))) := by
  simp [State.pulledAddr, pulled_eq, State.read]

/-- What a 16-bit push leaves (R48): two cells of the stack page, nothing else. -/
theorem pushAddr_spec (s : State) (v : Addr) (hw : s.mem.wf = true) :
    (s.pushAddr v).mem.wf = true ∧ (s.pushAddr v).read (stackAddr s.sp) = highByte v ∧
    (s.pushAddr v).read (stackAddr (s.sp - 1)) = lowByte v ∧
    ∀ a, a ≠ stackAddr s.sp → a ≠ stackAddr (s.sp - 1) → (s.pushAddr v).read a = s.read a := by
  have hw1 := push_wf s (highByte v) hw
  have hne : stackAddr s.sp ≠ stackAddr (s.sp - 1) := by
    intro e; have := stackAddr_inj e; bv_omega
  refine ⟨push_wf _ _ hw1, ?_, ?_, fun a h1 h2 => ?_⟩
  · rw [State.pushAddr, read_push_other _ _ hw1 (by simpa using hne), read_push_same s _ hw]
  · simpa [State.pushAddr] using read_push_same (s.push (highByte v)) (lowByte v) hw1
  · rw [State.pushAddr, read_push_other _ _ hw1 (by simpa using h2), read_push_other _ _ hw h1]

/-- What taking an exception leaves (R184, R216): three cells of the stack page, the vector's word in
PC, and I set; every other cell as it was. -/
theorem takeException_spec (s : State) (ret : Addr) (status : Byte) (vec : Addr) (hw : s.mem.wf = true) :
    (s.takeException ret status vec).mem.wf = true ∧
    (s.takeException ret status vec).read (stackAddr s.sp) = highByte ret ∧
    (s.takeException ret status vec).read (stackAddr (s.sp - 1)) = lowByte ret ∧
    (s.takeException ret status vec).read (stackAddr (s.sp - 2)) = status ∧
    (∀ a, a ≠ stackAddr s.sp → a ≠ stackAddr (s.sp - 1) → a ≠ stackAddr (s.sp - 2) →
      (s.takeException ret status vec).read a = s.read a) ∧
    (512 ≤ vec.toNat → 512 ≤ (vec + 1).toNat →
      (s.takeException ret status vec).pc = word (s.read (vec + 1)) (s.read vec)) := by
  obtain ⟨hw2, h1, h2, h3⟩ := pushAddr_spec s ret hw
  have e2 : s.sp - 1 - 1 = s.sp - 2 := by bv_omega
  have hsp : (s.pushAddr ret).sp = s.sp - 2 := by rw [pushAddr_sp, e2]
  have n1 : stackAddr s.sp ≠ stackAddr (s.sp - 2) := by intro e; have := stackAddr_inj e; bv_omega
  have n2 : stackAddr (s.sp - 1) ≠ stackAddr (s.sp - 2) := by intro e; have := stackAddr_inj e; bv_omega
  have hread : ∀ a, (s.takeException ret status vec).read a = ((s.pushAddr ret).push status).read a :=
    fun a => rfl
  have hother : ∀ a, a ≠ stackAddr s.sp → a ≠ stackAddr (s.sp - 1) → a ≠ stackAddr (s.sp - 2) →
      ((s.pushAddr ret).push status).read a = s.read a := fun a a1 a2 a3 => by
    rw [read_push_other _ _ hw2 (by rwa [hsp]), h3 a a1 a2]
  refine ⟨push_wf _ _ hw2, ?_, ?_, ?_, fun a a1 a2 a3 => by rw [hread, hother a a1 a2 a3], fun v1 v2 => ?_⟩
  · rw [hread, read_push_other _ _ hw2 (by rwa [hsp]), h1]
  · rw [hread, read_push_other _ _ hw2 (by rwa [hsp]), h2]
  · have := read_push_same (s.pushAddr ret) status hw2
    rwa [hsp] at this
  · show word (((s.pushAddr ret).push status).read (vec + 1)) (((s.pushAddr ret).push status).read vec) = _
    rw [hother _ (ne_stackAddr _ v1) (ne_stackAddr _ v1) (ne_stackAddr _ v1),
      hother _ (ne_stackAddr _ v2) (ne_stackAddr _ v2) (ne_stackAddr _ v2)]

/-- Taking an exception writes SP, P.I, PC and memory, and nothing else (R184, R216). -/
theorem takeException_frame (s : State) (ret : Addr) (status : Byte) (vec : Addr) :
    s.takeException ret status vec = { s with
      sp := s.sp - 3, p := withFlag .i true s.p,
      mem := (s.takeException ret status vec).mem, pc := (s.takeException ret status vec).pc } := by
  have e : s.sp - 1#8 - 1#8 - 1#8 = s.sp - 3#8 := by bv_omega
  ext1 <;> simp [State.takeException, e]

/-- A next state of a bus sequence (R55). -/
theorem onBus_next {s u t : State} : onBus s u = .next t ↔ s.busConnected = true ∧ u = t := by
  unfold onBus; split <;> simp_all

/-- With a bus a bus sequence has its next state. -/
theorem onBus_connected {s u : State} (h : s.busConnected = true) : onBus s u = .next u := by
  simp [onBus, h]

/-- Without a bus it faults. -/
theorem onBus_disconnected {s u : State} (h : s.busConnected = false) : onBus s u = .fault .noBus := by
  simp [onBus, h]

/-- A next state of a decremented outcome (R74). -/
theorem tickDown_next {r : Result} {t : State} :
    tickDown r = .next t ↔ ∃ u, r = .next u ∧ t = { u with cycles := u.cycles - 1 } := by
  cases r <;> simp [tickDown, eq_comm]

end Sys2Proof.Machine
end

