-- ==== Sys2Proof/Laws/Exec.lean ====
section
/-! SUPPORT. What running an instruction can do, said once: every meaning is its operation handler in the
frame of `runInstr` (R72), so a next state of `exec` is the handler's result with the extra cycle. -/

namespace Sys2Proof.Machine

open Sys2Proof

/-- The operation handler of an instruction (R79). -/
def handler : Instr → State → State
  | .lda o => opLda o
  | .ldx o => opLdx o
  | .ldy o => opLdy o
  | .sta _ => opSta
  | .stx _ => opStx
  | .sty _ => opSty
  | .tax => opTax
  | .tay => opTay
  | .txa => opTxa
  | .tya => opTya
  | .tsx => opTsx
  | .txs => opTxs
  | .adc o => opAdc o
  | .sbc o => opSbc o
  | .and o => opAnd o
  | .ora o => opOra o
  | .eor o => opEor o
  | .bit o => opBit o
  | .asl o => opAsl o
  | .lsr o => opLsr o
  | .rol o => opRol o
  | .ror o => opRor o
  | .inc o => opInc o
  | .inx => opInx
  | .iny => opIny
  | .dec o => opDec o
  | .dex => opDex
  | .dey => opDey
  | .cmp o => opCmp o
  | .cpx o => opCpx o
  | .cpy o => opCpy o
  | .bcc _ => opBcc
  | .bcs _ => opBcs
  | .beq _ => opBeq
  | .bmi _ => opBmi
  | .bne _ => opBne
  | .bpl _ => opBpl
  | .bvc _ => opBvc
  | .bvs _ => opBvs
  | .pha => opPha
  | .php => opPhp
  | .pla => opPla
  | .plp => opPlp
  | .jmp _ => opJmp
  | .jsr _ => opJsr
  | .rts => opRts
  | .rti => opRti
  | .brk => opBrk
  | .clc => opClc
  | .cld => opCld
  | .cli => opCli
  | .clv => opClv
  | .sec => opSec
  | .sed => opSed
  | .sei => opSei
  | .nop => opNop
  | .ill _ => opIll

/-- Every meaning runs its handler in the common frame. -/
theorem exec_eq_runInstr (i : Instr) (s : State) : exec i s = runInstr i (handler i) s := by
  cases i <;> rfl

/-- The state that the frame hands to a handler (R72): opcode latched, PC past the instruction, operand
resolved, base cycles loaded. -/
def resolved (i : Instr) (opcode : Byte) (s : State) : State := resolve i.operand (beginInstr opcode s)

/-- Everything a next state of an instruction can be. -/
theorem exec_next_iff (i : Instr) (s t : State) : exec i s = .next t ↔
    ∃ opcode, i.opcodeByte = some opcode ∧ s.busConnected = true ∧
      t = addExtraCycle (pageCross i.operand s) (opExtra i.operation)
        (handler i (resolved i opcode s)) := by
  rw [exec_eq_runInstr, runInstr]
  cases h : i.opcodeByte with
  | none => simp
  | some opcode =>
    simp only [onBus_next, resolved, Option.some.injEq, exists_eq_left']
    exact and_congr_right fun _ => eq_comm

/-- An instruction with an opcode byte completes where a bus is connected. -/
theorem exec_of_opcode {i : Instr} {opcode : Byte} (h : i.opcodeByte = some opcode) (s : State)
    (hb : s.busConnected = true) : exec i s = .next (addExtraCycle (pageCross i.operand s)
      (opExtra i.operation) (handler i (resolved i opcode s))) :=
  (exec_next_iff i s _).2 ⟨opcode, h, hb, rfl⟩

/-- What the frame hands to a handler in Implied mode (R81). -/
theorem resolved_implied {i : Instr} (h : i.operand = .imp) (opcode : Byte) (s : State) :
    resolved i opcode s = afterImplied opcode (desc opcode).baseCycles s := by
  rw [resolved, h]; rfl

/-- What the frame hands to a handler in every mode with an address (R82 to R85, R87 to R92). -/
theorem resolved_address {i : Instr} {o : Operand} (h : i.operand = o) (ho : o.mode ∉ [.imp, .rel])
    (opcode : Byte) (s : State) : resolved i opcode s = afterAddress o opcode (desc opcode).baseCycles s := by
  rw [resolved, h]
  cases o with
  | imp | rel => simp [Operand.mode] at ho
  | abs | abx | aby | ind => simp [resolve, beginInstr, afterAddress, operandAddr, effAddr, Operand.mode,
      Mode.operandBytes, State.throughPointer, State.read]
  | _ => rfl

/-- What `Fetch` adds to it (R93). -/
theorem fetchOperand_afterAddress (o : Operand) (ho : o.mode ∉ [.imp, .rel]) (opcode : Byte) (n : Nat)
    (s : State) : fetchOperand o (afterAddress o opcode n s) = afterOperand o opcode n s := by
  cases o with
  | imp | rel => simp [Operand.mode] at ho
  | _ => rfl

/-- Completion in Implied mode. -/
theorem exec_implied {i : Instr} {opcode : Byte} {base : Nat} (h : i.opcodeByte = some opcode)
    (hbase : (desc opcode).baseCycles = base) (ho : i.operand = .imp) (s : State) (hb : s.busConnected = true) :
    exec i s = .next (handler i (afterImplied opcode base s)) := by
  subst hbase
  rw [exec_of_opcode h s hb, resolved_implied ho, ho]
  rfl

/-- Completion in a mode with an address. -/
theorem exec_address {i : Instr} {opcode : Byte} {base : Nat} {o : Operand} (h : i.opcodeByte = some opcode)
    (hbase : (desc opcode).baseCycles = base) (ho : i.operand = o) (hm : o.mode ∉ [.imp, .rel]) (s : State)
    (hb : s.busConnected = true) : exec i s =
      .next (addExtraCycle (pageCross o s) (opExtra i.operation) (handler i (afterAddress o opcode base s))) := by
  subst hbase
  rw [exec_of_opcode h s hb, resolved_address ho hm, ho]

/-- No handler writes a latch, the bus condition, `opcode`, `addr_rel` or `addr_abs`. -/
theorem handler_frame (i : Instr) (s : State) :
    (handler i s).resetPending = s.resetPending ∧ (handler i s).nmiPending = s.nmiPending ∧
    (handler i s).irqPending = s.irqPending ∧ (handler i s).busConnected = s.busConnected ∧
    (handler i s).opcode = s.opcode ∧ (handler i s).addrRel = s.addrRel ∧
    (handler i s).addrAbs = s.addrAbs := by
  cases i <;>
    simp [handler, opLda, opLdx, opLdy, opSta, opStx, opSty, opTax, opTay, opTxa, opTya,
      opTsx, opTxs, opAdc, opSbc, opAnd, opOra, opEor, opBit, opAsl, opLsr,
      opRol, opRor, opInc, opInx, opIny, opDec, opDex, opDey, opCmp, opCpx,
      opCpy, opBcc, opBcs, opBeq, opBmi, opBne, opBpl, opBvc, opBvs, opPha,
      opPhp, opPla, opPlp, opJmp, opJsr, opRts, opRti, opBrk, opClc, opCld,
      opCli, opClv, opSec, opSed, opSei, opNop, opIll,
      addToA, logicToA, shiftTo, stepMemory, compareWith, branchIf] <;>
    split <;> simp

/-- Which handlers call `Fetch` (R93): the others leave `fetched` as the resolver left it. -/
theorem handler_fetched (i : Instr) (s : State) :
    (handler i s).fetched = if i.operation ∈ [.lda, .ldx, .ldy, .adc, .sbc, .and, .ora, .eor, .bit,
      .cmp, .cpx, .cpy, .asl, .lsr, .rol, .ror, .inc, .dec] then (fetchOperand i.operand s).fetched
      else s.fetched := by
  cases i <;>
    simp [handler, Instr.operation, Instr.operand, opLda, opLdx, opLdy, opSta, opStx, opSty, opTax, opTay, opTxa, opTya,
      opTsx, opTxs, opAdc, opSbc, opAnd, opOra, opEor, opBit, opAsl, opLsr,
      opRol, opRor, opInc, opInx, opIny, opDec, opDex, opDey, opCmp, opCpx,
      opCpy, opBcc, opBcs, opBeq, opBmi, opBne, opBpl, opBvc, opBvs, opPha,
      opPhp, opPla, opPlp, opJmp, opJsr, opRts, opRti, opBrk, opClc, opCld,
      opCli, opClv, opSec, opSed, opSei, opNop, opIll,
      addToA, logicToA, shiftTo, stepMemory, compareWith, branchIf] <;>
    split <;> simp

/-- Only a branch handler changes `cycles` (R73, R154). -/
theorem handler_cycles (i : Instr) (s : State)
    (h : i.operation ∉ [.bcc, .bcs, .beq, .bmi, .bne, .bpl, .bvc, .bvs]) : (handler i s).cycles = s.cycles := by
  revert h
  cases i <;>
    simp [handler, Instr.operation, opLda, opLdx, opLdy, opSta, opStx, opSty, opTax, opTay, opTxa, opTya,
      opTsx, opTxs, opAdc, opSbc, opAnd, opOra, opEor, opBit, opAsl, opLsr,
      opRol, opRor, opInc, opInx, opIny, opDec, opDex, opDey, opCmp, opCpx,
      opCpy, opBcc, opBcs, opBeq, opBmi, opBne, opBpl, opBvc, opBvs, opPha,
      opPhp, opPla, opPlp, opJmp, opJsr, opRts, opRti, opBrk, opClc, opCld,
      opCli, opClv, opSec, opSed, opSei, opNop, opIll,
      addToA, logicToA, shiftTo, stepMemory, compareWith]

/-- A handler adds at most two cycles (R154). -/
theorem handler_cycles_bounds (i : Instr) (s : State) :
    s.cycles ≤ (handler i s).cycles ∧ (handler i s).cycles ≤ s.cycles + 2 := by
  have hb : ∀ c s, s.cycles ≤ (branchIf c s).cycles ∧ (branchIf c s).cycles ≤ s.cycles + 2 := fun c s => by
    cases c
    · exact ⟨Nat.le_refl _, Nat.le_add_right _ _⟩
    · have := Bool.toNat_le (page (s.pc + s.addrRel) != page s.pc)
      simp only [branchIf, if_true]
      omega
  cases i <;> first
    | exact hb _ s
    | (rw [handler_cycles]; · exact ⟨Nat.le_refl _, Nat.le_add_right _ _⟩
       · simp [Instr.operation])

end Sys2Proof.Machine
end

