-- ==== Sys2Proof/Laws/Handlers.lean ====
section
/-! SUPPORT. One lemma for each operation that several handlers share: what it writes, and what each flag
is after it (R24, R120, R122, R125, R130 to R137, R153, R154). -/

namespace Sys2Proof.Machine

open Sys2Proof

/-- SetZN makes Z and N follow the value (R24). -/
theorem followZN_setZN (v : Byte) (s : State) : FollowZN v (s.setZN v) := by
  simp [FollowZN, flag_setZN, msb_eq_bit7]

/-- SetZN keeps the other flags. -/
theorem keepFlags_setZN (v : Byte) (s : State) : KeepFlags [.z, .n] s (s.setZN v) := by
  intro f hf
  simp only [List.mem_cons, List.not_mem_nil, or_false, not_or] at hf
  simp [flag_setZN, hf]

/-- The addition of ADC and SBC (R120, R121). -/
theorem addToA_spec (m : Byte) (s : State) :
    addToA m s = { s with a := sumResult s.a m (s.flag .c), p := (addToA m s).p } ∧
    ∀ g, (addToA m s).flag g = if g = .n then (sumResult s.a m (s.flag .c)).msb
      else if g = .z then sumResult s.a m (s.flag .c) == 0
      else if g = .v then sumOverflow s.a m (s.flag .c)
      else if g = .c then sumCarry s.a m (s.flag .c) else s.flag g := by
  refine ⟨rfl, fun g => ?_⟩
  simp only [addToA, flag_setZN]
  simp [State.flag, flagOf_withFlag]

/-- The end of AND, ORA and EOR (R122 to R124). -/
theorem logicToA_spec (r : Byte) (s : State) :
    logicToA r s = { s with a := r, p := (logicToA r s).p } ∧
    ∀ g, (logicToA r s).flag g = if g = .n then r.msb else if g = .z then r == 0 else s.flag g :=
  ⟨rfl, fun g => by simp [logicToA, State.flag, flagOf_withFlag]⟩

/-- The end of the shifts and rotates (R130 to R133). -/
theorem shiftTo_spec (o : Operand) (c : Bool) (r : Byte) (s : State) :
    shiftTo o c r s = { writeBack o r s with p := (shiftTo o c r s).p } ∧
    ∀ g, (shiftTo o c r s).flag g = if g = .n then r.msb else if g = .z then r == 0
      else if g = .c then c else s.flag g := by
  refine ⟨by cases o <;> rfl, fun g => ?_⟩
  have : (shiftTo o c r s).p = (State.setZN r (s.setFlag .c c)).p := by simp [shiftTo]
  rw [State.flag, this, ← State.flag, flag_setZN]
  simp

/-- The end of INC and DEC (R134, R137). -/
theorem stepMemory_spec (r : Byte) (s : State) :
    stepMemory r s = { s.write s.addrAbs r with p := (stepMemory r s).p } ∧
    ∀ g, (stepMemory r s).flag g = if g = .n then r.msb else if g = .z then r == 0 else s.flag g :=
  ⟨rfl, fun g => by simp [stepMemory, State.flag, flagOf_withFlag]⟩

/-- The compare of CMP, CPX and CPY (R153). -/
theorem compareWith_spec (reg : Byte) (s : State) :
    compareWith reg s = { s with p := (compareWith reg s).p } ∧
    ∀ g, (compareWith reg s).flag g = if g = .n then (reg - s.fetched).msb
      else if g = .z then reg == s.fetched else if g = .c then compareCarry reg s.fetched else s.flag g :=
  ⟨rfl, fun g => by simp [compareWith]⟩

/-- The bit test (R125). -/
theorem opBit_spec (o : Operand) (s : State) :
    opBit o s = { fetchOperand o s with p := (opBit o s).p } ∧
    ∀ g, (opBit o s).flag g = if g = .n then (fetchOperand o s).fetched.getLsbD 7
      else if g = .v then (fetchOperand o s).fetched.getLsbD 6
      else if g = .z then s.a &&& (fetchOperand o s).fetched == 0 else s.flag g :=
  ⟨rfl, fun g => by simp [opBit, State.flag, flagOf_withFlag]⟩

/-- The branch (R154). -/
theorem branchIf_spec (c : Bool) (s : State) : branchIf c s =
    if c then { s with pc := s.pc + s.addrRel,
                       cycles := s.cycles + 1 + (page (s.pc + s.addrRel) != page s.pc).toNat } else s := rfl

@[simp] theorem branchIf_a (c : Bool) (s : State) : (branchIf c s).a = s.a := by
  cases c <;> rfl
@[simp] theorem branchIf_x (c : Bool) (s : State) : (branchIf c s).x = s.x := by
  cases c <;> rfl
@[simp] theorem branchIf_y (c : Bool) (s : State) : (branchIf c s).y = s.y := by
  cases c <;> rfl
@[simp] theorem branchIf_sp (c : Bool) (s : State) : (branchIf c s).sp = s.sp := by
  cases c <;> rfl
@[simp] theorem branchIf_p (c : Bool) (s : State) : (branchIf c s).p = s.p := by
  cases c <;> rfl
@[simp] theorem branchIf_opcode (c : Bool) (s : State) : (branchIf c s).opcode = s.opcode := by
  cases c <;> rfl
@[simp] theorem branchIf_addrAbs (c : Bool) (s : State) : (branchIf c s).addrAbs = s.addrAbs := by
  cases c <;> rfl
@[simp] theorem branchIf_addrRel (c : Bool) (s : State) : (branchIf c s).addrRel = s.addrRel := by
  cases c <;> rfl
@[simp] theorem branchIf_fetched (c : Bool) (s : State) : (branchIf c s).fetched = s.fetched := by
  cases c <;> rfl
@[simp] theorem branchIf_resetPending (c : Bool) (s : State) : (branchIf c s).resetPending = s.resetPending := by
  cases c <;> rfl
@[simp] theorem branchIf_nmiPending (c : Bool) (s : State) : (branchIf c s).nmiPending = s.nmiPending := by
  cases c <;> rfl
@[simp] theorem branchIf_irqPending (c : Bool) (s : State) : (branchIf c s).irqPending = s.irqPending := by
  cases c <;> rfl
@[simp] theorem branchIf_busConnected (c : Bool) (s : State) : (branchIf c s).busConnected = s.busConnected := by
  cases c <;> rfl
@[simp] theorem branchIf_mem (c : Bool) (s : State) : (branchIf c s).mem = s.mem := by
  cases c <;> rfl

/-- The handler of a write-back operation does not write A in a memory mode (R94). -/
theorem writeBack_a {o : Operand} (h : o ≠ .imp) (v : Byte) (s : State) : (writeBack o v s).a = s.a := by
  cases o <;> first | rfl | exact absurd rfl h

/-- Nor memory in Implied mode. -/
theorem writeBack_mem_imp (v : Byte) (s : State) : (writeBack .imp v s).mem = s.mem := rfl

/-- A write-back changes memory at `addr_abs` at most (R94). -/
theorem writeBack_mem_cases (o : Operand) (v : Byte) (s : State) :
    (writeBack o v s).mem = s.mem ∨ (writeBack o v s).mem = Memory.write s.mem s.addrAbs.toNat v := by
  cases o
  case imp => exact .inl rfl
  all_goals exact .inr rfl

/-- A handler that stores through `addr_abs` changes memory there at most (R103 to R105, R130 to R134,
R137). -/
theorem handler_mem_store (i : Instr) (s : State)
    (h : i.operation ∈ [.sta, .stx, .sty, .asl, .lsr, .rol, .ror, .inc, .dec]) :
    (handler i s).mem = s.mem ∨ ∃ v, (handler i s).mem = Memory.write s.mem s.addrAbs.toNat v := by
  revert h
  cases i <;> intro h <;> first
    | (simp [Instr.operation] at h; done)
    | (simp only [handler, opSta, opStx, opSty, opInc, opDec, stepMemory, write_mem, setZN_mem, fetchOperand_mem,
        fetchOperand_addrAbs]; exact .inr ⟨_, rfl⟩)
    | (simp only [handler, opAsl, opLsr, opRol, opRor, shiftTo]
       rcases writeBack_mem_cases _ _ _ with e | e <;> rw [e]
       · exact .inl (by simp)
       · exact .inr ⟨_, by simp; rfl⟩)

end Sys2Proof.Machine
end

