-- ==== Sys2Proof/Laws/PerInstr.lean ====
section
/-! SUPPORT. The one law that is proved instruction by instruction: the encoder's table (R64, the table by
mnemonic) and the decoder's matrix (R64, R65) agree on it. -/

namespace Sys2Proof.Laws.DescriptorAgrees

open Sys2Proof

/-- The opcode byte of an instruction selects the descriptor with its operation and its mode, and an
instruction without an opcode byte is ill formed (R64, R65, R95). -/
def Statement (i : Instr) : Prop :=
  match i.opcodeByte with
  | some op => i.wellFormed = true ∧ (desc op).operation = i.operation ∧ (desc op).mode = i.operand.mode
  | none => i.wellFormed = false

theorem lda (o : Operand) : Statement (.lda o) := by
  cases o <;> first | exact ⟨rfl, rfl, rfl⟩ | exact rfl
theorem ldx (o : Operand) : Statement (.ldx o) := by
  cases o <;> first | exact ⟨rfl, rfl, rfl⟩ | exact rfl
theorem ldy (o : Operand) : Statement (.ldy o) := by
  cases o <;> first | exact ⟨rfl, rfl, rfl⟩ | exact rfl
theorem sta (o : Operand) : Statement (.sta o) := by
  cases o <;> first | exact ⟨rfl, rfl, rfl⟩ | exact rfl
theorem stx (o : Operand) : Statement (.stx o) := by
  cases o <;> first | exact ⟨rfl, rfl, rfl⟩ | exact rfl
theorem sty (o : Operand) : Statement (.sty o) := by
  cases o <;> first | exact ⟨rfl, rfl, rfl⟩ | exact rfl
theorem tax : Statement .tax := ⟨rfl, rfl, rfl⟩
theorem tay : Statement .tay := ⟨rfl, rfl, rfl⟩
theorem txa : Statement .txa := ⟨rfl, rfl, rfl⟩
theorem tya : Statement .tya := ⟨rfl, rfl, rfl⟩
theorem tsx : Statement .tsx := ⟨rfl, rfl, rfl⟩
theorem txs : Statement .txs := ⟨rfl, rfl, rfl⟩
theorem adc (o : Operand) : Statement (.adc o) := by
  cases o <;> first | exact ⟨rfl, rfl, rfl⟩ | exact rfl
theorem sbc (o : Operand) : Statement (.sbc o) := by
  cases o <;> first | exact ⟨rfl, rfl, rfl⟩ | exact rfl
theorem and (o : Operand) : Statement (.and o) := by
  cases o <;> first | exact ⟨rfl, rfl, rfl⟩ | exact rfl
theorem ora (o : Operand) : Statement (.ora o) := by
  cases o <;> first | exact ⟨rfl, rfl, rfl⟩ | exact rfl
theorem eor (o : Operand) : Statement (.eor o) := by
  cases o <;> first | exact ⟨rfl, rfl, rfl⟩ | exact rfl
theorem bit (o : Operand) : Statement (.bit o) := by
  cases o <;> first | exact ⟨rfl, rfl, rfl⟩ | exact rfl
theorem asl (o : Operand) : Statement (.asl o) := by
  cases o <;> first | exact ⟨rfl, rfl, rfl⟩ | exact rfl
theorem lsr (o : Operand) : Statement (.lsr o) := by
  cases o <;> first | exact ⟨rfl, rfl, rfl⟩ | exact rfl
theorem rol (o : Operand) : Statement (.rol o) := by
  cases o <;> first | exact ⟨rfl, rfl, rfl⟩ | exact rfl
theorem ror (o : Operand) : Statement (.ror o) := by
  cases o <;> first | exact ⟨rfl, rfl, rfl⟩ | exact rfl
theorem inc (o : Operand) : Statement (.inc o) := by
  cases o <;> first | exact ⟨rfl, rfl, rfl⟩ | exact rfl
theorem inx : Statement .inx := ⟨rfl, rfl, rfl⟩
theorem iny : Statement .iny := ⟨rfl, rfl, rfl⟩
theorem dec (o : Operand) : Statement (.dec o) := by
  cases o <;> first | exact ⟨rfl, rfl, rfl⟩ | exact rfl
theorem dex : Statement .dex := ⟨rfl, rfl, rfl⟩
theorem dey : Statement .dey := ⟨rfl, rfl, rfl⟩
theorem cmp (o : Operand) : Statement (.cmp o) := by
  cases o <;> first | exact ⟨rfl, rfl, rfl⟩ | exact rfl
theorem cpx (o : Operand) : Statement (.cpx o) := by
  cases o <;> first | exact ⟨rfl, rfl, rfl⟩ | exact rfl
theorem cpy (o : Operand) : Statement (.cpy o) := by
  cases o <;> first | exact ⟨rfl, rfl, rfl⟩ | exact rfl
theorem bcc (d : Byte) : Statement (.bcc d) := ⟨rfl, rfl, rfl⟩
theorem bcs (d : Byte) : Statement (.bcs d) := ⟨rfl, rfl, rfl⟩
theorem beq (d : Byte) : Statement (.beq d) := ⟨rfl, rfl, rfl⟩
theorem bmi (d : Byte) : Statement (.bmi d) := ⟨rfl, rfl, rfl⟩
theorem bne (d : Byte) : Statement (.bne d) := ⟨rfl, rfl, rfl⟩
theorem bpl (d : Byte) : Statement (.bpl d) := ⟨rfl, rfl, rfl⟩
theorem bvc (d : Byte) : Statement (.bvc d) := ⟨rfl, rfl, rfl⟩
theorem bvs (d : Byte) : Statement (.bvs d) := ⟨rfl, rfl, rfl⟩
theorem pha : Statement .pha := ⟨rfl, rfl, rfl⟩
theorem php : Statement .php := ⟨rfl, rfl, rfl⟩
theorem pla : Statement .pla := ⟨rfl, rfl, rfl⟩
theorem plp : Statement .plp := ⟨rfl, rfl, rfl⟩
theorem jmp (o : Operand) : Statement (.jmp o) := by
  cases o <;> first | exact ⟨rfl, rfl, rfl⟩ | exact rfl
theorem jsr (w : Addr) : Statement (.jsr w) := ⟨rfl, rfl, rfl⟩
theorem rts : Statement .rts := ⟨rfl, rfl, rfl⟩
theorem rti : Statement .rti := ⟨rfl, rfl, rfl⟩
theorem brk : Statement .brk := ⟨rfl, rfl, rfl⟩
theorem clc : Statement .clc := ⟨rfl, rfl, rfl⟩
theorem cld : Statement .cld := ⟨rfl, rfl, rfl⟩
theorem cli : Statement .cli := ⟨rfl, rfl, rfl⟩
theorem clv : Statement .clv := ⟨rfl, rfl, rfl⟩
theorem sec : Statement .sec := ⟨rfl, rfl, rfl⟩
theorem sed : Statement .sed := ⟨rfl, rfl, rfl⟩
theorem sei : Statement .sei := ⟨rfl, rfl, rfl⟩
theorem nop : Statement .nop := ⟨rfl, rfl, rfl⟩
theorem ill (opcode : Byte) : Statement (.ill opcode) := by
  change match (if unusedOpcodes.contains opcode then some opcode else none) with
    | some op => _
    | none => unusedOpcodes.contains opcode = false
  cases h : unusedOpcodes.contains opcode with
  | false => rfl
  | true => exact ⟨h, (desc_ill_iff opcode).2 h, desc_ill_mode opcode ((desc_ill_iff opcode).2 h)⟩

end Sys2Proof.Laws.DescriptorAgrees
end

