-- ==== Sys2Proof/Laws/Step.lean ====
section
/-! SUPPORT. What a step can do, said once (R71, R74, R212): an idle tick, one of the three signal
sequences, or one instruction; and what a fetched instruction is. -/

namespace Sys2Proof.Machine

open Sys2Proof

/-- A fetched instruction has the byte at PC as its opcode byte (R61, R72). -/
@[simp] theorem fetchInstr_opcodeByte (s : State) : s.fetchInstr.opcodeByte = some (s.read s.pc) :=
  decodeBytes_opcodeByte ..

/-- A fetched instruction is well formed. -/
@[simp] theorem fetchInstr_wellFormed (s : State) : s.fetchInstr.wellFormed = true :=
  decodeBytes_wellFormed ..

/-- A well-formed instruction has its opcode byte. -/
theorem opcodeByte_of_wellFormed {i : Instr} (h : i.wellFormed = true) : ∃ opcode, i.opcodeByte = some opcode :=
  Option.isSome_iff_exists.1 ((wellFormed_iff_opcodeByte i).1 h)

/-- An instruction with an opcode byte faults where no bus is connected (R55). -/
theorem exec_disconnected {i : Instr} (h : i.wellFormed = true) (s : State) (hb : s.busConnected = false) :
    exec i s = .fault .noBus := by
  obtain ⟨opcode, h⟩ := opcodeByte_of_wellFormed h
  simp [exec_eq_runInstr, runInstr, h, onBus_disconnected hb]

/-- An idle tick (R74). -/
theorem step_idle {s : State} (h : 0 < s.cycles) : step s = .next { s with cycles := s.cycles - 1 } := by
  simp [step, tick, Nat.pos_iff_ne_zero.1 h, tickDown]

/-- A fetch tick (R71). -/
theorem step_fetch {s : State} (h : s.cycles = 0) : step s = tickDown (fetchTick s) := by
  simp [step, tick, h]

/-- A fetch tick that runs an instruction (R71, R212). -/
theorem step_instr {s : State} (h : RunsInstr s) :
    step s = tickDown (exec s.fetchInstr { s with irqPending := false }) := by
  obtain ⟨h0, hr, hn, hi⟩ := h
  rw [step_fetch h0, fetchTick, hr, hn]
  rcases hi with hi | hi <;> simp [hi]

/-- Everything a step with a next state can be. -/
theorem step_cases {s t : State} (h : step s = .next t) :
    (0 < s.cycles ∧ t = { s with cycles := s.cycles - 1 }) ∨
    (s.cycles = 0 ∧ s.busConnected = true ∧ ∃ u, t = { u with cycles := u.cycles - 1 } ∧
      ((s.resetPending = true ∧ resetSequence s = .next u) ∨
       (s.resetPending = false ∧ s.nmiPending = true ∧
          u = intSeq params.vecNmi { s with nmiPending := false }) ∨
       (s.resetPending = false ∧ s.nmiPending = false ∧ s.irqPending = true ∧ s.flag .i = false ∧
          u = intSeq params.vecIrq { s with irqPending := false }) ∨
       (RunsInstr s ∧ exec s.fetchInstr { s with irqPending := false } = .next u))) := by
  rcases Nat.eq_zero_or_pos s.cycles with h0 | hp
  · right
    rw [step_fetch h0] at h
    obtain ⟨u, hu, rfl⟩ := tickDown_next.1 h
    rw [fetchTick] at hu
    split at hu
    · rename_i hr
      exact ⟨h0, (onBus_next.1 hu).1, u, rfl, .inl ⟨hr, hu⟩⟩
    · rename_i hr
      simp only [Bool.not_eq_true] at hr
      split at hu
      · rename_i hn
        obtain ⟨hb, rfl⟩ := onBus_next.1 hu
        exact ⟨h0, hb, _, rfl, .inr (.inl ⟨hr, hn, rfl⟩)⟩
      · rename_i hn
        simp only [Bool.not_eq_true] at hn
        split at hu
        · rename_i hi
          simp only [Bool.and_eq_true, Bool.not_eq_true'] at hi
          obtain ⟨hb, rfl⟩ := onBus_next.1 hu
          exact ⟨h0, hb, _, rfl, .inr (.inr (.inl ⟨hr, hn, hi.1, hi.2, rfl⟩))⟩
        · rename_i hi
          obtain ⟨_, _, hb, _⟩ := (exec_next_iff _ _ _).1 hu
          refine ⟨h0, hb, u, rfl, .inr (.inr (.inr ⟨⟨h0, hr, hn, ?_⟩, hu⟩))⟩
          revert hi
          cases s.irqPending <;> cases s.flag .i <;> simp
  · left
    rw [step_idle hp] at h
    exact ⟨hp, (Host.Outcome.next.inj h).symm⟩

/-- One more step of a run, of any machine. -/
theorem run_succ (M : Host.Core) {s t : M.State} (h : M.step s = .next t) (k : Nat) :
    M.run (k + 1) s = M.run k t := by
  simp only [Host.Core.run, h]

end Sys2Proof.Machine
end

