-- ==== Sys2Proof/Tests/Slice0.lean ====
section
/-! SUPPORT. The model's own tests: an ill-formed term for each check of WellFormed, decoding from words
written out from the spec's encoding (spec/30_encoding.md rules R60 to R66), one or two single steps per
instruction with the results of spec/95_test_vectors.md, and for every obligation with hypotheses a
state and operands that meet them. -/

namespace Sys2Proof.Tests

set_option Elab.async false

open Sys2Proof Sys2Proof.Machine

/-- What a list of bytes decodes to, and how many bytes are left. -/
def decoded (bytes : List Byte) : Option (Instr × Nat) :=
  match decode bytes with
  | .ok (i, rest) => some (i, rest.length)
  | .error _ => none

/-- The default state of the test vectors: power-on with PC = 0200. -/
def start : State := { State.reset with pc := 0x0200 }

/-- Some cells written. -/
def poke (cells : List (Addr × Byte)) (s : State) : State :=
  cells.foldl (fun s c => s.write c.1 c.2) s

/-- One field, or a few, of the next state. -/
def after {α : Type} (r : Result) (f : State → α) : Option α :=
  match r with
  | .next t => some (f t)
  | _ => none

/-- The state after one step that runs the instruction whose bytes lie at PC. -/
def run (bytes : List Byte) (s : State) : Result := step (State.place s.pc bytes s)

/-- A meaning gives a next state. -/
def completes (i : Instr) (s : State) : Bool :=
  match exec i s with
  | .next _ => true
  | _ => false

/-! ### WellFormed: one ill-formed term, or more, for each check -/

theorem test_ill_formed_lda : (([.lda .imp, .lda (.zpy 0x34), .lda (.rel 0x34), .lda (.ind 0x1234)] : List Instr).all fun i => !i.wellFormed) = true := by decide
theorem test_ill_formed_ldx : (([.ldx .imp, .ldx (.zpx 0x34), .ldx (.rel 0x34), .ldx (.abx 0x1234), .ldx (.ind 0x1234),
    .ldx (.izx 0x34), .ldx (.izy 0x34)] : List Instr).all fun i => !i.wellFormed) = true := by decide
theorem test_ill_formed_ldy : (([.ldy .imp, .ldy (.zpy 0x34), .ldy (.rel 0x34), .ldy (.aby 0x1234), .ldy (.ind 0x1234),
    .ldy (.izx 0x34), .ldy (.izy 0x34)] : List Instr).all fun i => !i.wellFormed) = true := by decide
theorem test_ill_formed_sta : (([.sta .imp, .sta (.imm 0x34), .sta (.zpy 0x34), .sta (.rel 0x34), .sta (.ind 0x1234)] : List Instr).all fun i => !i.wellFormed) = true := by decide
theorem test_ill_formed_stx : (([.stx .imp, .stx (.imm 0x34), .stx (.zpx 0x34), .stx (.rel 0x34), .stx (.abx 0x1234),
    .stx (.aby 0x1234), .stx (.ind 0x1234), .stx (.izx 0x34), .stx (.izy 0x34)] : List Instr).all fun i => !i.wellFormed) = true := by decide
theorem test_ill_formed_sty : (([.sty .imp, .sty (.imm 0x34), .sty (.zpy 0x34), .sty (.rel 0x34), .sty (.abx 0x1234),
    .sty (.aby 0x1234), .sty (.ind 0x1234), .sty (.izx 0x34), .sty (.izy 0x34)] : List Instr).all fun i => !i.wellFormed) = true := by decide
theorem test_ill_formed_adc : (([.adc .imp, .adc (.zpy 0x34), .adc (.rel 0x34), .adc (.ind 0x1234)] : List Instr).all fun i => !i.wellFormed) = true := by decide
theorem test_ill_formed_sbc : (([.sbc .imp, .sbc (.zpy 0x34), .sbc (.rel 0x34), .sbc (.ind 0x1234)] : List Instr).all fun i => !i.wellFormed) = true := by decide
theorem test_ill_formed_and : (([.and .imp, .and (.zpy 0x34), .and (.rel 0x34), .and (.ind 0x1234)] : List Instr).all fun i => !i.wellFormed) = true := by decide
theorem test_ill_formed_ora : (([.ora .imp, .ora (.zpy 0x34), .ora (.rel 0x34), .ora (.ind 0x1234)] : List Instr).all fun i => !i.wellFormed) = true := by decide
theorem test_ill_formed_eor : (([.eor .imp, .eor (.zpy 0x34), .eor (.rel 0x34), .eor (.ind 0x1234)] : List Instr).all fun i => !i.wellFormed) = true := by decide
theorem test_ill_formed_bit : (([.bit .imp, .bit (.imm 0x34), .bit (.zpx 0x34), .bit (.zpy 0x34), .bit (.rel 0x34),
    .bit (.abx 0x1234), .bit (.aby 0x1234), .bit (.ind 0x1234), .bit (.izx 0x34), .bit (.izy 0x34)] : List Instr).all fun i => !i.wellFormed) = true := by decide
theorem test_ill_formed_asl : (([.asl (.imm 0x34), .asl (.zpy 0x34), .asl (.rel 0x34), .asl (.aby 0x1234), .asl (.ind 0x1234),
    .asl (.izx 0x34), .asl (.izy 0x34)] : List Instr).all fun i => !i.wellFormed) = true := by decide
theorem test_ill_formed_lsr : (([.lsr (.imm 0x34), .lsr (.zpy 0x34), .lsr (.rel 0x34), .lsr (.aby 0x1234), .lsr (.ind 0x1234),
    .lsr (.izx 0x34), .lsr (.izy 0x34)] : List Instr).all fun i => !i.wellFormed) = true := by decide
theorem test_ill_formed_rol : (([.rol (.imm 0x34), .rol (.zpy 0x34), .rol (.rel 0x34), .rol (.aby 0x1234), .rol (.ind 0x1234),
    .rol (.izx 0x34), .rol (.izy 0x34)] : List Instr).all fun i => !i.wellFormed) = true := by decide
theorem test_ill_formed_ror : (([.ror (.imm 0x34), .ror (.zpy 0x34), .ror (.rel 0x34), .ror (.aby 0x1234), .ror (.ind 0x1234),
    .ror (.izx 0x34), .ror (.izy 0x34)] : List Instr).all fun i => !i.wellFormed) = true := by decide
theorem test_ill_formed_inc : (([.inc .imp, .inc (.imm 0x34), .inc (.zpy 0x34), .inc (.rel 0x34), .inc (.aby 0x1234),
    .inc (.ind 0x1234), .inc (.izx 0x34), .inc (.izy 0x34)] : List Instr).all fun i => !i.wellFormed) = true := by decide
theorem test_ill_formed_dec : (([.dec .imp, .dec (.imm 0x34), .dec (.zpy 0x34), .dec (.rel 0x34), .dec (.aby 0x1234),
    .dec (.ind 0x1234), .dec (.izx 0x34), .dec (.izy 0x34)] : List Instr).all fun i => !i.wellFormed) = true := by decide
theorem test_ill_formed_cmp : (([.cmp .imp, .cmp (.zpy 0x34), .cmp (.rel 0x34), .cmp (.ind 0x1234)] : List Instr).all fun i => !i.wellFormed) = true := by decide
theorem test_ill_formed_cpx : (([.cpx .imp, .cpx (.zpx 0x34), .cpx (.zpy 0x34), .cpx (.rel 0x34), .cpx (.abx 0x1234),
    .cpx (.aby 0x1234), .cpx (.ind 0x1234), .cpx (.izx 0x34), .cpx (.izy 0x34)] : List Instr).all fun i => !i.wellFormed) = true := by decide
theorem test_ill_formed_cpy : (([.cpy .imp, .cpy (.zpx 0x34), .cpy (.zpy 0x34), .cpy (.rel 0x34), .cpy (.abx 0x1234),
    .cpy (.aby 0x1234), .cpy (.ind 0x1234), .cpy (.izx 0x34), .cpy (.izy 0x34)] : List Instr).all fun i => !i.wellFormed) = true := by decide
theorem test_ill_formed_jmp : (([.jmp .imp, .jmp (.imm 0x34), .jmp (.zp0 0x34), .jmp (.zpx 0x34), .jmp (.zpy 0x34),
    .jmp (.rel 0x34), .jmp (.abx 0x1234), .jmp (.aby 0x1234), .jmp (.izx 0x34), .jmp (.izy 0x34)] : List Instr).all fun i => !i.wellFormed) = true := by decide
theorem test_ill_formed_unused : (([.ill 0xA9, .ill 0x00, .ill 0xEA, .ill 0xFE] : List Instr).all fun i =>
    !i.wellFormed) = true := by decide
theorem test_ill_formed_has_no_encoding : encode (.sta (.imm 0x34)) = [] ∧ encode (.ill 0xEA) = [] := by decide
theorem test_ill_formed_is_refused : exec (.sta (.imm 0x34)) start = .refused .unpairedMode := rfl
theorem test_ill_operand_is_refused : exec (.ill 0xEA) start = .refused .unpairedMode := rfl

/-! ### Decoding: the words of rule R64's table by mnemonic, every instruction in every mode, the operand
byte 34 or the operand bytes 34 12 -/

theorem test_decode_load : (([([0xA9, 0x34], .lda (.imm 0x34)), ([0xA5, 0x34], .lda (.zp0 0x34)), ([0xB5, 0x34], .lda (.zpx 0x34)), ([0xAD, 0x34, 0x12], .lda (.abs 0x1234)),
    ([0xBD, 0x34, 0x12], .lda (.abx 0x1234)), ([0xB9, 0x34, 0x12], .lda (.aby 0x1234)), ([0xA1, 0x34], .lda (.izx 0x34)), ([0xB1, 0x34], .lda (.izy 0x34)),
    ([0xA2, 0x34], .ldx (.imm 0x34)), ([0xA6, 0x34], .ldx (.zp0 0x34)), ([0xB6, 0x34], .ldx (.zpy 0x34)), ([0xAE, 0x34, 0x12], .ldx (.abs 0x1234)),
    ([0xBE, 0x34, 0x12], .ldx (.aby 0x1234)), ([0xA0, 0x34], .ldy (.imm 0x34)), ([0xA4, 0x34], .ldy (.zp0 0x34)), ([0xB4, 0x34], .ldy (.zpx 0x34)),
    ([0xAC, 0x34, 0x12], .ldy (.abs 0x1234)), ([0xBC, 0x34, 0x12], .ldy (.abx 0x1234))] :
    List (List Byte × Instr)).all fun c => decoded c.1 == some (c.2, 0)) = true := by decide +kernel
theorem test_decode_store : (([([0x85, 0x34], .sta (.zp0 0x34)), ([0x95, 0x34], .sta (.zpx 0x34)), ([0x8D, 0x34, 0x12], .sta (.abs 0x1234)), ([0x9D, 0x34, 0x12], .sta (.abx 0x1234)),
    ([0x99, 0x34, 0x12], .sta (.aby 0x1234)), ([0x81, 0x34], .sta (.izx 0x34)), ([0x91, 0x34], .sta (.izy 0x34)), ([0x86, 0x34], .stx (.zp0 0x34)),
    ([0x96, 0x34], .stx (.zpy 0x34)), ([0x8E, 0x34, 0x12], .stx (.abs 0x1234)), ([0x84, 0x34], .sty (.zp0 0x34)), ([0x94, 0x34], .sty (.zpx 0x34)),
    ([0x8C, 0x34, 0x12], .sty (.abs 0x1234))] :
    List (List Byte × Instr)).all fun c => decoded c.1 == some (c.2, 0)) = true := by decide +kernel
theorem test_decode_transfer : (([([0xAA], .tax), ([0xA8], .tay), ([0x8A], .txa), ([0x98], .tya),
    ([0xBA], .tsx), ([0x9A], .txs)] :
    List (List Byte × Instr)).all fun c => decoded c.1 == some (c.2, 0)) = true := by decide +kernel
theorem test_decode_arith : (([([0x69, 0x34], .adc (.imm 0x34)), ([0x65, 0x34], .adc (.zp0 0x34)), ([0x75, 0x34], .adc (.zpx 0x34)), ([0x6D, 0x34, 0x12], .adc (.abs 0x1234)),
    ([0x7D, 0x34, 0x12], .adc (.abx 0x1234)), ([0x79, 0x34, 0x12], .adc (.aby 0x1234)), ([0x61, 0x34], .adc (.izx 0x34)), ([0x71, 0x34], .adc (.izy 0x34)),
    ([0xE9, 0x34], .sbc (.imm 0x34)), ([0xE5, 0x34], .sbc (.zp0 0x34)), ([0xF5, 0x34], .sbc (.zpx 0x34)), ([0xED, 0x34, 0x12], .sbc (.abs 0x1234)),
    ([0xFD, 0x34, 0x12], .sbc (.abx 0x1234)), ([0xF9, 0x34, 0x12], .sbc (.aby 0x1234)), ([0xE1, 0x34], .sbc (.izx 0x34)), ([0xF1, 0x34], .sbc (.izy 0x34))] :
    List (List Byte × Instr)).all fun c => decoded c.1 == some (c.2, 0)) = true := by decide +kernel
theorem test_decode_logic : (([([0x29, 0x34], .and (.imm 0x34)), ([0x25, 0x34], .and (.zp0 0x34)), ([0x35, 0x34], .and (.zpx 0x34)), ([0x2D, 0x34, 0x12], .and (.abs 0x1234)),
    ([0x3D, 0x34, 0x12], .and (.abx 0x1234)), ([0x39, 0x34, 0x12], .and (.aby 0x1234)), ([0x21, 0x34], .and (.izx 0x34)), ([0x31, 0x34], .and (.izy 0x34)),
    ([0x09, 0x34], .ora (.imm 0x34)), ([0x05, 0x34], .ora (.zp0 0x34)), ([0x15, 0x34], .ora (.zpx 0x34)), ([0x0D, 0x34, 0x12], .ora (.abs 0x1234)),
    ([0x1D, 0x34, 0x12], .ora (.abx 0x1234)), ([0x19, 0x34, 0x12], .ora (.aby 0x1234)), ([0x01, 0x34], .ora (.izx 0x34)), ([0x11, 0x34], .ora (.izy 0x34)),
    ([0x49, 0x34], .eor (.imm 0x34)), ([0x45, 0x34], .eor (.zp0 0x34)), ([0x55, 0x34], .eor (.zpx 0x34)), ([0x4D, 0x34, 0x12], .eor (.abs 0x1234)),
    ([0x5D, 0x34, 0x12], .eor (.abx 0x1234)), ([0x59, 0x34, 0x12], .eor (.aby 0x1234)), ([0x41, 0x34], .eor (.izx 0x34)), ([0x51, 0x34], .eor (.izy 0x34)),
    ([0x24, 0x34], .bit (.zp0 0x34)), ([0x2C, 0x34, 0x12], .bit (.abs 0x1234))] :
    List (List Byte × Instr)).all fun c => decoded c.1 == some (c.2, 0)) = true := by decide +kernel
theorem test_decode_shift : (([([0x0A], .asl .imp), ([0x06, 0x34], .asl (.zp0 0x34)), ([0x16, 0x34], .asl (.zpx 0x34)), ([0x0E, 0x34, 0x12], .asl (.abs 0x1234)),
    ([0x1E, 0x34, 0x12], .asl (.abx 0x1234)), ([0x4A], .lsr .imp), ([0x46, 0x34], .lsr (.zp0 0x34)), ([0x56, 0x34], .lsr (.zpx 0x34)),
    ([0x4E, 0x34, 0x12], .lsr (.abs 0x1234)), ([0x5E, 0x34, 0x12], .lsr (.abx 0x1234)), ([0x2A], .rol .imp), ([0x26, 0x34], .rol (.zp0 0x34)),
    ([0x36, 0x34], .rol (.zpx 0x34)), ([0x2E, 0x34, 0x12], .rol (.abs 0x1234)), ([0x3E, 0x34, 0x12], .rol (.abx 0x1234)), ([0x6A], .ror .imp),
    ([0x66, 0x34], .ror (.zp0 0x34)), ([0x76, 0x34], .ror (.zpx 0x34)), ([0x6E, 0x34, 0x12], .ror (.abs 0x1234)), ([0x7E, 0x34, 0x12], .ror (.abx 0x1234))] :
    List (List Byte × Instr)).all fun c => decoded c.1 == some (c.2, 0)) = true := by decide +kernel
theorem test_decode_step : (([([0xE6, 0x34], .inc (.zp0 0x34)), ([0xF6, 0x34], .inc (.zpx 0x34)), ([0xEE, 0x34, 0x12], .inc (.abs 0x1234)), ([0xFE, 0x34, 0x12], .inc (.abx 0x1234)),
    ([0xE8], .inx), ([0xC8], .iny), ([0xC6, 0x34], .dec (.zp0 0x34)), ([0xD6, 0x34], .dec (.zpx 0x34)),
    ([0xCE, 0x34, 0x12], .dec (.abs 0x1234)), ([0xDE, 0x34, 0x12], .dec (.abx 0x1234)), ([0xCA], .dex), ([0x88], .dey)] :
    List (List Byte × Instr)).all fun c => decoded c.1 == some (c.2, 0)) = true := by decide +kernel
theorem test_decode_compare : (([([0xC9, 0x34], .cmp (.imm 0x34)), ([0xC5, 0x34], .cmp (.zp0 0x34)), ([0xD5, 0x34], .cmp (.zpx 0x34)), ([0xCD, 0x34, 0x12], .cmp (.abs 0x1234)),
    ([0xDD, 0x34, 0x12], .cmp (.abx 0x1234)), ([0xD9, 0x34, 0x12], .cmp (.aby 0x1234)), ([0xC1, 0x34], .cmp (.izx 0x34)), ([0xD1, 0x34], .cmp (.izy 0x34)),
    ([0xE0, 0x34], .cpx (.imm 0x34)), ([0xE4, 0x34], .cpx (.zp0 0x34)), ([0xEC, 0x34, 0x12], .cpx (.abs 0x1234)), ([0xC0, 0x34], .cpy (.imm 0x34)),
    ([0xC4, 0x34], .cpy (.zp0 0x34)), ([0xCC, 0x34, 0x12], .cpy (.abs 0x1234))] :
    List (List Byte × Instr)).all fun c => decoded c.1 == some (c.2, 0)) = true := by decide +kernel
theorem test_decode_branch : (([([0x90, 0x34], .bcc 0x34), ([0xB0, 0x34], .bcs 0x34), ([0xF0, 0x34], .beq 0x34), ([0x30, 0x34], .bmi 0x34),
    ([0xD0, 0x34], .bne 0x34), ([0x10, 0x34], .bpl 0x34), ([0x50, 0x34], .bvc 0x34), ([0x70, 0x34], .bvs 0x34)] :
    List (List Byte × Instr)).all fun c => decoded c.1 == some (c.2, 0)) = true := by decide +kernel
theorem test_decode_stack : (([([0x48], .pha), ([0x08], .php), ([0x68], .pla), ([0x28], .plp)] :
    List (List Byte × Instr)).all fun c => decoded c.1 == some (c.2, 0)) = true := by decide +kernel
theorem test_decode_jump : (([([0x4C, 0x34, 0x12], .jmp (.abs 0x1234)), ([0x6C, 0x34, 0x12], .jmp (.ind 0x1234)), ([0x20, 0x34, 0x12], .jsr 0x1234), ([0x60], .rts),
    ([0x40], .rti), ([0x00], .brk)] :
    List (List Byte × Instr)).all fun c => decoded c.1 == some (c.2, 0)) = true := by decide +kernel
theorem test_decode_flag : (([([0x18], .clc), ([0xD8], .cld), ([0x58], .cli), ([0xB8], .clv),
    ([0x38], .sec), ([0xF8], .sed), ([0x78], .sei), ([0xEA], .nop)] :
    List (List Byte × Instr)).all fun c => decoded c.1 == some (c.2, 0)) = true := by decide +kernel
theorem test_decode_unused : (([0x02, 0x03, 0x1A, 0x80, 0x9C, 0xA7, 0xEB, 0xFF] : List Byte).all fun op =>
    decoded [op, 0x34, 0x12] == some (.ill op, 2)) = true := by decide +kernel
theorem test_decode_too_short : decode [] = .error .noBytes ∧ decode [0xA9] = .error (.truncated 0xA9) ∧
    decode [0xAD, 0x34] = .error (.truncated 0xAD) := ⟨rfl, rfl, rfl⟩
theorem test_decode_leaves_the_rest : decode [0xA5, 0x10, 0xEA, 0x00] = .ok (.lda (.zp0 0x10), [0xEA, 0x00]) := rfl
theorem test_decodeTableWord : decodeTableWord 8 0xEA = some .nop ∧ decodeTableWord 16 0x0FB0 = some (.bcs 0x0F) ∧
    decodeTableWord 24 0x1234AD = some (.lda (.abs 0x1234)) ∧ decodeTableWord 8 0x12346C = some (.jmp (.ind 0)) := by
  decide +kernel
theorem test_withFetchWord : after (step (State.reset.withFetchWord 16 0x80A9)) (fun t => (t.a, t.p, t.pc)) =
    some (0x80, 0xA4, 0x0002) := by decide +kernel

/-! ### One step per instruction (spec/95_test_vectors.md, the vector's name is the end of the test's) -/

theorem test_lda_M6 : after (run [0xBD, 0xFF, 0x20] (poke [(0x2100, 0x55)] { start with x := 0x01 })) (fun t => (t.a, t.pc, t.cycles)) =
    some (0x55, 0x0203, 4) := by decide +kernel
theorem test_lda_M12 : after (run [0xB1, 0xFF] (poke [(0x0000, 0x50), (0x00FF, 0x00), (0x5001, 0x11)] { start with y := 0x01 })) (fun t => (t.a, t.pc, t.cycles)) =
    some (0x11, 0x0202, 4) := by decide +kernel
theorem test_ldx_M4 : after (run [0xB6, 0xFF] (poke [(0x0000, 0x33)] { start with y := 0x01 })) (fun t => (t.x, t.pc, t.cycles)) =
    some (0x33, 0x0202, 3) := by decide +kernel
theorem test_ldx_T4 : after (run [0xBE, 0xFF, 0x2F] (poke [(0x3001, 0x80)] { start with y := 0x02 })) (fun t => (t.x, t.p, t.pc, t.cycles)) =
    some (0x80, 0xA4, 0x0203, 4) := by decide +kernel
theorem test_ldy_T5 : after (run [0xBC, 0xFF, 0x30] (poke [(0x3100, 0x01)] { start with x := 0x01 })) (fun t => (t.y, t.pc, t.cycles)) =
    some (0x01, 0x0203, 4) := by decide +kernel
theorem test_sta_M13 : after (run [0x9D, 0xFF, 0x20] { start with x := 0x01 }) (fun t => (t.pc, t.read 0x2100, t.cycles)) =
    some (0x0203, 0x00, 4) := by decide +kernel
theorem test_sta_T8 : after (run [0x91, 0x10] (poke [(0x0010, 0xFF), (0x0011, 0x20)] { start with a := 0x42, y := 0x01 })) (fun t => (t.pc, t.read 0x2100, t.cycles)) =
    some (0x0202, 0x42, 5) := by decide +kernel
theorem test_stx_T9 : after (run [0x96, 0xFE] { start with x := 0x99, y := 0x05 }) (fun t => (t.pc, t.read 0x0003, t.cycles)) =
    some (0x0202, 0x99, 3) := by decide +kernel
theorem test_sty_T10 : after (run [0x94, 0xFE] { start with x := 0x05, y := 0x77 }) (fun t => (t.pc, t.read 0x0003, t.cycles)) =
    some (0x0202, 0x77, 3) := by decide +kernel
theorem test_tax_T11 : after (run [0xAA] { start with a := 0x80 }) (fun t => (t.x, t.p, t.pc, t.cycles)) =
    some (0x80, 0xA4, 0x0201, 1) := by decide +kernel
theorem test_tay_T12 : after (run [0xA8] { start with y := 0x55 }) (fun t => (t.y, t.p, t.pc, t.cycles)) =
    some (0x00, 0x26, 0x0201, 1) := by decide +kernel
theorem test_txa_T13 : after (run [0x8A] { start with a := 0x55 }) (fun t => (t.a, t.p, t.pc, t.cycles)) =
    some (0x00, 0x26, 0x0201, 1) := by decide +kernel
theorem test_tya_T14 : after (run [0x98] { start with y := 0xF0 }) (fun t => (t.a, t.p, t.pc, t.cycles)) =
    some (0xF0, 0xA4, 0x0201, 1) := by decide +kernel
theorem test_tsx_T15 : after (run [0xBA] start) (fun t => (t.x, t.p, t.pc, t.cycles)) =
    some (0xFD, 0xA4, 0x0201, 1) := by decide +kernel
theorem test_txs_T16 : after (run [0x9A] start) (fun t => (t.sp, t.pc, t.cycles)) =
    some (0x00, 0x0201, 1) := by decide +kernel
theorem test_adc_A10 : after (run [0x69, 0x80] { start with a := 0x80 }) (fun t => (t.a, t.p, t.pc, t.cycles)) =
    some (0x00, 0x67, 0x0202, 1) := by decide +kernel
theorem test_adc_A21 : after (run [0x69, 0x01] { start with a := 0x09, p := 0x2C }) (fun t => (t.a, t.pc, t.cycles)) =
    some (0x0A, 0x0202, 1) := by decide +kernel
theorem test_sbc_A18 : after (run [0xE9, 0x05] { start with a := 0x05 }) (fun t => (t.a, t.p, t.pc, t.cycles)) =
    some (0xFF, 0xA4, 0x0202, 1) := by decide +kernel
theorem test_sbc_A13 : after (run [0xE9, 0x70] { start with a := 0xD0, p := 0x25 }) (fun t => (t.a, t.p, t.pc, t.cycles)) =
    some (0x60, 0x65, 0x0202, 1) := by decide +kernel
theorem test_and_L4 : after (run [0x29, 0x01] { start with a := 0xFF, p := 0xE7 }) (fun t => (t.a, t.p, t.pc, t.cycles)) =
    some (0x01, 0x65, 0x0202, 1) := by decide +kernel
theorem test_ora_L5 : after (run [0x09, 0x0F] { start with a := 0xF0 }) (fun t => (t.a, t.p, t.pc, t.cycles)) =
    some (0xFF, 0xA4, 0x0202, 1) := by decide +kernel
theorem test_eor_L8 : after (run [0x49, 0x55] { start with a := 0xAA }) (fun t => (t.a, t.p, t.pc, t.cycles)) =
    some (0xFF, 0xA4, 0x0202, 1) := by decide +kernel
theorem test_bit_L11 : after (run [0x24, 0x10] (poke [(0x0010, 0x40)] { start with a := 0x40, p := 0xA5 })) (fun t => (t.p, t.pc, t.cycles)) =
    some (0x65, 0x0202, 2) := by decide +kernel
theorem test_asl_H3 : after (run [0x0A] { start with a := 0x40, p := 0x25 }) (fun t => (t.a, t.p, t.pc, t.cycles)) =
    some (0x80, 0xA4, 0x0201, 1) := by decide +kernel
theorem test_asl_M15 : after (run [0x1E, 0xFF, 0x20] (poke [(0x2100, 0x80)] { start with x := 0x01 })) (fun t => (t.p, t.pc, t.read 0x2100, t.cycles)) =
    some (0x27, 0x0203, 0x00, 6) := by decide +kernel
theorem test_lsr_H5 : after (run [0x4A] { start with a := 0x80, p := 0xA5 }) (fun t => (t.a, t.p, t.pc, t.cycles)) =
    some (0x40, 0x24, 0x0201, 1) := by decide +kernel
theorem test_lsr_H11 : after (run [0x56, 0x10] (poke [(0x0011, 0x01)] { start with x := 0x01 })) (fun t => (t.p, t.pc, t.read 0x0011, t.cycles)) =
    some (0x27, 0x0202, 0x00, 5) := by decide +kernel
theorem test_rol_H6 : after (run [0x2A] { start with a := 0x80, p := 0x25 }) (fun t => (t.a, t.pc, t.cycles)) =
    some (0x01, 0x0201, 1) := by decide +kernel
theorem test_rol_H12 : after (run [0x2E, 0x34, 0x12] (poke [(0x1234, 0x7F)] { start with p := 0x25 })) (fun t => (t.p, t.pc, t.read 0x1234, t.cycles)) =
    some (0xA4, 0x0203, 0xFF, 5) := by decide +kernel
theorem test_ror_H8 : after (run [0x6A] { start with a := 0x01, p := 0x25 }) (fun t => (t.a, t.p, t.pc, t.cycles)) =
    some (0x80, 0xA5, 0x0201, 1) := by decide +kernel
theorem test_ror_H13 : after (run [0x7E, 0xFF, 0x20] (poke [(0x2100, 0x02)] { start with x := 0x01, p := 0x25 })) (fun t => (t.p, t.pc, t.read 0x2100, t.cycles)) =
    some (0xA4, 0x0203, 0x81, 6) := by decide +kernel
theorem test_inc_N1 : after (run [0xE6, 0x10] (poke [(0x0010, 0xFF)] { start with p := 0x25 })) (fun t => (t.p, t.pc, t.read 0x0010, t.cycles)) =
    some (0x27, 0x0202, 0x00, 4) := by decide +kernel
theorem test_inc_N3 : after (run [0xFE, 0xFF, 0x20] (poke [(0x2100, 0xFF)] { start with x := 0x01 })) (fun t => (t.p, t.pc, t.read 0x2100, t.cycles)) =
    some (0x26, 0x0203, 0x00, 6) := by decide +kernel
theorem test_inx_N6 : after (run [0xE8] { start with x := 0xFF }) (fun t => (t.x, t.p, t.pc, t.cycles)) =
    some (0x00, 0x26, 0x0201, 1) := by decide +kernel
theorem test_iny_N8 : after (run [0xC8] { start with y := 0xFF }) (fun t => (t.y, t.p, t.pc, t.cycles)) =
    some (0x00, 0x26, 0x0201, 1) := by decide +kernel
theorem test_dec_N4 : after (run [0xC6, 0x10] (poke [(0x0010, 0x00)] start)) (fun t => (t.p, t.pc, t.read 0x0010, t.cycles)) =
    some (0xA4, 0x0202, 0xFF, 4) := by decide +kernel
theorem test_dex_N9 : after (run [0xCA] start) (fun t => (t.x, t.p, t.pc, t.cycles)) =
    some (0xFF, 0xA4, 0x0201, 1) := by decide +kernel
theorem test_dey_N12 : after (run [0x88] { start with y := 0x80 }) (fun t => (t.y, t.pc, t.cycles)) =
    some (0x7F, 0x0201, 1) := by decide +kernel
theorem test_cmp_K8 : after (run [0xC9, 0x80] { start with a := 0x7F, p := 0x65 }) (fun t => (t.p, t.pc, t.cycles)) =
    some (0xE4, 0x0202, 1) := by decide +kernel
theorem test_cpx_K9 : after (run [0xE0, 0x10] { start with x := 0x10, p := 0xE4 }) (fun t => (t.p, t.pc, t.cycles)) =
    some (0x67, 0x0202, 1) := by decide +kernel
theorem test_cpy_K10 : after (run [0xC0, 0x11] { start with y := 0x10, p := 0x25 }) (fun t => (t.p, t.pc, t.cycles)) =
    some (0xA4, 0x0202, 1) := by decide +kernel
theorem test_bcc_B9 : after (run [0x90, 0x05] start) (fun t => (t.pc, t.cycles)) =
    some (0x0207, 2) := by decide +kernel
theorem test_bcs_B12 : after (run [0xB0, 0x05] { start with p := 0x25 }) (fun t => (t.pc, t.cycles)) =
    some (0x0207, 2) := by decide +kernel
theorem test_beq_B16 : after (run [0xF0, 0x05] { start with p := 0x26 }) (fun t => (t.pc, t.cycles)) =
    some (0x0207, 2) := by decide +kernel
theorem test_bmi_B4 : after (run [0x30, 0x05] { start with p := 0xA4 }) (fun t => (t.pc, t.cycles)) =
    some (0x0207, 2) := by decide +kernel
theorem test_bne_B18 : after (run [0xD0, 0x80] { start with pc := 0x0250 }) (fun t => (t.pc, t.cycles)) =
    some (0x01D2, 3) := by decide +kernel
theorem test_bne_B22 : after (run [0xD0, 0xF0] { start with pc := 0x0000 }) (fun t => (t.pc, t.cycles)) =
    some (0xFFF2, 3) := by decide +kernel
theorem test_bpl_B2 : after (run [0x10, 0x05] { start with p := 0xA4 }) (fun t => (t.pc, t.cycles)) =
    some (0x0202, 1) := by decide +kernel
theorem test_bvc_B6 : after (run [0x50, 0x05] { start with p := 0x64 }) (fun t => (t.pc, t.cycles)) =
    some (0x0202, 1) := by decide +kernel
theorem test_bvs_B8 : after (run [0x70, 0x05] { start with p := 0x64 }) (fun t => (t.pc, t.cycles)) =
    some (0x0207, 2) := by decide +kernel
theorem test_pha_Q2 : after (run [0x48] { start with a := 0x42, sp := 0x00 }) (fun t => (t.sp, t.pc, t.read 0x0100, t.cycles)) =
    some (0xFF, 0x0201, 0x42, 2) := by decide +kernel
theorem test_php_Q4 : after (run [0x08] { start with p := 0xE5 }) (fun t => (t.sp, t.pc, t.read 0x01FD, t.cycles)) =
    some (0xFC, 0x0201, 0xF5, 2) := by decide +kernel
theorem test_pla_Q6 : after (run [0x68] (poke [(0x0100, 0x00)] { start with a := 0x11, sp := 0xFF })) (fun t => (t.a, t.sp, t.pc, t.cycles)) =
    some (0x00, 0x00, 0x0201, 3) := by decide +kernel
theorem test_plp_Q7 : after (run [0x28] (poke [(0x01FD, 0xCB)] { start with sp := 0xFC })) (fun t => (t.sp, t.p, t.pc, t.cycles)) =
    some (0xFD, 0xEB, 0x0201, 3) := by decide +kernel
theorem test_jmp_J1 : after (run [0x4C, 0x34, 0x12] start) (fun t => (t.pc, t.cycles)) =
    some (0x1234, 2) := by decide +kernel
theorem test_jmp_J3 : after (run [0x6C, 0xFF, 0x02] (poke [(0x0200, 0x12), (0x02FF, 0x34), (0x0300, 0x56)] { start with pc := 0x0400 })) (fun t => (t.pc, t.cycles)) =
    some (0x1234, 4) := by decide +kernel
theorem test_jsr_J5 : after (run [0x20] (poke [(0x0000, 0x12), (0xFFFF, 0x34)] { start with pc := 0xFFFE })) (fun t => (t.sp, t.pc, t.read 0x01FD, t.cycles)) =
    some (0xFB, 0x1234, 0x00, 5) := by decide +kernel
theorem test_rts_J7 : after (run [0x60] (poke [(0x01FC, 0xFF), (0x01FD, 0xFF)] { start with sp := 0xFB })) (fun t => (t.sp, t.pc, t.cycles)) =
    some (0xFD, 0x0000, 5) := by decide +kernel
theorem test_rti_J8 : after (run [0x40] (poke [(0x01FB, 0xC3), (0x01FC, 0x34), (0x01FD, 0x12)] { start with sp := 0xFA })) (fun t => (t.sp, t.p, t.pc, t.cycles)) =
    some (0xFD, 0xE3, 0x1234, 5) := by decide +kernel
theorem test_brk_J10 : after (run [0x00] { start with pc := 0xFFFF }) (fun t => (t.sp, t.pc, t.read 0x01FD, t.cycles)) =
    some (0xFA, 0x0000, 0x00, 6) := by decide +kernel
theorem test_brk_J11 : after (run [0x00] (poke [(0xFFFE, 0x00), (0xFFFF, 0x80)] { start with sp := 0x01 })) (fun t => (t.sp, t.pc, t.read 0x0101, t.cycles)) =
    some (0xFE, 0x8000, 0x02, 6) := by decide +kernel
theorem test_clc_F2 : after (run [0x18] { start with p := 0xEF }) (fun t => (t.p, t.pc, t.cycles)) =
    some (0xEE, 0x0201, 1) := by decide +kernel
theorem test_cld_F12 : after (run [0xD8] { start with p := 0xEF }) (fun t => (t.p, t.pc, t.cycles)) =
    some (0xE7, 0x0201, 1) := by decide +kernel
theorem test_cli_F6 : after (run [0x58] { start with p := 0xEF }) (fun t => (t.p, t.pc, t.cycles)) =
    some (0xEB, 0x0201, 1) := by decide +kernel
theorem test_clv_F10 : after (run [0xB8] { start with p := 0xEF }) (fun t => (t.p, t.pc, t.cycles)) =
    some (0xAF, 0x0201, 1) := by decide +kernel
theorem test_sec_F3 : after (run [0x38] start) (fun t => (t.p, t.pc, t.cycles)) =
    some (0x25, 0x0201, 1) := by decide +kernel
theorem test_sed_F13 : after (run [0xF8] start) (fun t => (t.p, t.pc, t.cycles)) =
    some (0x2C, 0x0201, 1) := by decide +kernel
theorem test_sei_F7 : after (run [0x78] start) (fun t => (t.pc, t.cycles)) =
    some (0x0201, 1) := by decide +kernel
theorem test_nop_U1 : after (run [0xEA] { start with a := 0x12, x := 0x34, y := 0x56, p := 0xE5 }) (fun t => (t.pc, t.cycles)) =
    some (0x0201, 1) := by decide +kernel
theorem test_ill_U3 : after (run [0x03] start) (fun t => (t.pc, t.cycles)) =
    some (0x0201, 7) := by decide +kernel
theorem test_ill_U7 : after (run [0x9C, 0x00, 0x03] start) (fun t => (t.pc, t.cycles)) =
    some (0x0201, 4) := by decide +kernel

/-! ### For every obligation with hypotheses, a state and operands that meet them, at the boundaries of its
clauses -/

/-- X and Y at their greatest value, every flag set. -/
def high : State := { start with a := 0xFF, x := 0xFF, y := 0xFF, p := 0xFF }

/-- A fetch tick with nothing to service, the given bytes at PC. -/
theorem runsInstr_start (bytes : List Byte) : RunsInstr (start.readyToRun bytes) := by
  have h : ∀ (l : List Byte) (a : Addr) (s : State), (State.place a l s).cycles = s.cycles ∧
      (State.place a l s).resetPending = s.resetPending ∧ (State.place a l s).nmiPending = s.nmiPending ∧
      (State.place a l s).irqPending = s.irqPending := by
    intro l
    induction l with
    | nil => exact fun _ _ => ⟨rfl, rfl, rfl, rfl⟩
    | cons b l ih => exact fun a s => ih (a + 1) (s.write a b)
  obtain ⟨h1, h2, h3, h4⟩ := h bytes start.pc { start with
    cycles := 0, resetPending := false, nmiPending := false, irqPending := false, busConnected := true }
  exact ⟨h1, h2, h3, .inl h4⟩

theorem witness_DecodeInvertsEncode : (Instr.jmp (.ind 0xFFFF)).wellFormed = true ∧
    (Instr.lda (.izy 0x00)).wellFormed = true ∧ (Instr.bcc 0xFF).wellFormed = true ∧
    (Instr.ill 0xFF).wellFormed = true := by decide
theorem witness_EncodeInvertsDecode : decode [0x6C, 0xFF, 0xFF, 0x00] = .ok (.jmp (.ind 0xFFFF), [0x00]) ∧
    decode [0x02] = .ok (.ill 0x02, []) := ⟨rfl, rfl⟩
theorem witness_EveryOpcodeByteDecodesAndRuns : start.busConnected = true := rfl
theorem witness_InstructionBytesByFormat : (Instr.tax.wellFormed = true ∧ Instr.tax.operand = .imp) ∧
    ((Instr.bvs 0xFF).wellFormed = true ∧ (Instr.bvs 0xFF).operand = .rel 0xFF) ∧
    ((Instr.sta (.izx 0x00)).wellFormed = true ∧ (Instr.sta (.izx 0x00)).operand = .izx 0x00) ∧
    ((Instr.jmp (.ind 0xFF00)).wellFormed = true ∧ (Instr.jmp (.ind 0xFF00)).operand = .ind 0xFF00) := by decide
theorem witness_StepRunsTheDecodedInstruction :
    (RunsInstr (start.readyToRun [0xAD, 0x34, 0x12]) ∧
      (let s := start.readyToRun [0xAD, 0x34, 0x12]
       decode [s.read s.pc, s.read (s.pc + 1), s.read (s.pc + 2)]) = .ok (.lda (.abs 0x1234), []) ∧
      completes (.lda (.abs 0x1234)) (start.readyToRun [0xAD, 0x34, 0x12]) = true) :=
  ⟨runsInstr_start _, rfl, by decide +kernel⟩
theorem witness_StepRunsTheDecodedInstruction_noBus_maskedIrq :
    RunsInstr { start with busConnected := false, irqPending := true } ∧
    (let s : State := { start with busConnected := false, irqPending := true }
     decode [s.read s.pc, s.read (s.pc + 1), s.read (s.pc + 2)]) = .ok (.brk, [0x00, 0x00]) ∧
    exec .brk { start with busConnected := false, irqPending := false } = .fault .noBus :=
  ⟨⟨rfl, rfl, rfl, .inr rfl⟩, rfl, rfl⟩
theorem witness_IdleTickOnlyCountsDown : 0 < ({ start with cycles := 1 } : State).cycles ∧
    0 < ({ start with cycles := 7, resetPending := true, busConnected := false } : State).cycles := by decide
theorem witness_InstructionOccupiesExactlyItsTicks : RunsInstr (start.readyToRun [0xE6, 0x10]) ∧
    (start.readyToRun [0xE6, 0x10]).busConnected = true ∧
    (let s := start.readyToRun [0xE6, 0x10]
     after (exec s.fetchInstr { s with irqPending := false }) (·.cycles)) = some 5 :=
  ⟨runsInstr_start _, rfl, by decide +kernel⟩
theorem witness_PageCrossingCycleTakenByTheListedOpcodes : (Instr.lda (.abx 0x20FF)).wellFormed = true ∧
    high.busConnected = true ∧ pageCross (.abx 0x20FF) high = true ∧
    after (exec (.lda (.abx 0x20FF)) high) (fun t => (t.opcode, t.cycles)) = some (0xBD, 5) := by decide +kernel
theorem witness_PageCrossingCycleTakenByTheListedOpcodes_notListed : (Instr.sta (.abx 0x20FF)).wellFormed = true ∧
    pageCross (.abx 0x20FF) high = true ∧
    after (exec (.sta (.abx 0x20FF)) high) (fun t => (t.opcode, t.cycles)) = some (0x9D, 5) := by decide +kernel
theorem witness_PageCrossingCycleTakenByTheListedOpcodes_noCross : pageCross (.abx 0x2000) high = false ∧
    after (exec (.lda (.abx 0x2000)) high) (fun t => (t.opcode, t.cycles)) = some (0xBD, 4) := by decide +kernel
theorem witness_PageCrossIsTheCarryOfTheLowByte :
    pageCross (.abx 0x2000) high = false ∧ pageCross (.abx 0x2001) high = true ∧
    pageCross (.aby 0xFFFF) start = false ∧ pageCross (.aby 0xFFFF) high = true ∧
    pageCross (.izy 0x10) (poke [(0x0010, 0x00)] high) = false ∧
    pageCross (.izy 0x10) (poke [(0x0010, 0x01)] high) = true := by decide +kernel
theorem witness_DirectModesResolve : high.busConnected = true ∧
    after (exec (.lda (.imm 0x34)) high) (·.addrAbs) = some 0x0201 ∧
    after (exec (.lda (.zp0 0xFF)) high) (·.addrAbs) = some 0x00FF ∧
    after (exec (.lda (.zpx 0x01)) high) (·.addrAbs) = some 0x0000 ∧
    after (exec (.ldx (.zpy 0xFF)) high) (·.addrAbs) = some 0x00FE ∧
    after (exec (.lda (.abs 0xFFFF)) high) (·.addrAbs) = some 0xFFFF ∧
    after (exec (.lda (.abx 0xFFFF)) high) (·.addrAbs) = some 0x00FE ∧
    after (exec (.lda (.aby 0xFF00)) high) (·.addrAbs) = some 0xFFFF := by decide +kernel
theorem witness_IndirectModesResolve :
    after (exec (.jmp (.ind 0x02FF)) (poke [(0x0200, 0x12), (0x02FF, 0x34), (0x0300, 0x56)] start)) (·.addrAbs) =
      some 0x1234 ∧
    after (exec (.jmp (.ind 0x02FE)) (poke [(0x02FE, 0x34), (0x02FF, 0x12)] start)) (·.addrAbs) = some 0x1234 ∧
    after (exec (.lda (.izx 0x00)) (poke [(0x0000, 0x12), (0x00FF, 0x34)] high)) (·.addrAbs) = some 0x1234 ∧
    after (exec (.lda (.izy 0xFF)) (poke [(0x0000, 0x50), (0x00FF, 0x01)] high)) (·.addrAbs) = some 0x5100 := by
  decide +kernel
theorem witness_ImpliedAndRelativeResolve : Instr.clc.wellFormed = true ∧
    after (exec .clc high) (fun t => (t.fetched, t.addrAbs)) = some (0xFF, 0x0000) ∧
    after (exec (.bcs 0x7F) start) (·.addrRel) = some 0x007F ∧
    after (exec (.bcs 0x80) start) (·.addrRel) = some 0xFF80 := by decide +kernel
theorem witness_FetchedOperandIsTheByteAtTheAddress : RunsInstr (start.readyToRun [0xA9, 0x5A]) ∧
    (start.readyToRun [0xA9, 0x5A]).fetchInstr = .lda (.imm 0x5A) ∧
    after (step (start.readyToRun [0xA9, 0x5A])) (fun t => (t.fetched, t.addrAbs)) = some (0x5A, 0x0201) :=
  ⟨runsInstr_start _, by decide +kernel, by decide +kernel⟩
theorem witness_LdaLoads : high.busConnected = true ∧ (Instr.lda (.izy 0xFF)).opcodeByte = some 0xB1 ∧
    (desc 0xB1).baseCycles = 5 ∧ completes (.lda (.izy 0xFF)) high = true ∧
    after (exec (.lda (.imm 0x00)) high) (fun t => (t.a, t.p)) = some (0x00, 0x7F) := by decide +kernel
theorem witness_LdxLdyLoad : high.busConnected = true ∧ (Instr.ldx (.aby 0xFFFF)).opcodeByte = some 0xBE ∧
    (desc 0xBE).baseCycles = 4 ∧ completes (.ldx (.aby 0xFFFF)) high = true ∧
    completes (.ldy (.abx 0xFFFF)) high = true := by decide +kernel
theorem witness_StoresWriteOneByte : high.busConnected = true ∧ high.mem.wf = true ∧
    after (exec (.sta (.abx 0xFFFF)) high) (fun t => (t.read 0x00FE, t.cycles)) = some (0xFF, 5) ∧
    after (exec (.stx (.zpy 0x01)) high) (fun t => (t.read 0x0000, t.cycles)) = some (0xFF, 4) ∧
    after (exec (.sty (.abs 0xFFFF)) high) (fun t => (t.read 0xFFFF, t.cycles)) = some (0xFF, 4) := by
  decide +kernel
theorem witness_TransfersMoveRegisters : high.busConnected = true ∧
    after (exec .txs { high with x := 0x00 }) (fun t => (t.sp, t.p)) = some (0x00, 0xFF) := by decide +kernel
theorem witness_AdcAddsWithCarry : high.busConnected = true ∧
    after (exec (.adc (.imm 0xFF)) high) (fun t => (t.a, t.p)) = some (0xFF, 0xBD) ∧
    after (exec (.adc (.imm 0x7F)) { start with a := 0x00, p := 0x25 }) (fun t => (t.a, t.p)) =
      some (0x80, 0xE4) ∧
    after (exec (.adc (.imm 0x80)) { start with a := 0xFF }) (fun t => (t.a, t.p)) = some (0x7F, 0x65) := by
  decide +kernel
theorem witness_SbcSubtractsWithBorrow : high.busConnected = true ∧
    after (exec (.sbc (.imm 0xFF)) high) (fun t => (t.a, t.p)) = some (0x00, 0x3F) ∧
    after (exec (.sbc (.imm 0x00)) { start with a := 0x80, p := 0x24 }) (fun t => (t.a, t.p)) =
      some (0x7F, 0x65) ∧
    after (exec (.sbc (.imm 0xFF)) { start with a := 0x7F, p := 0x25 }) (fun t => (t.a, t.p)) =
      some (0x80, 0xE4) := by decide +kernel
theorem witness_LogicCombinesIntoA : high.busConnected = true ∧ (Instr.eor (.izy 0xFF)).opcodeByte = some 0x51 ∧
    (desc 0x51).baseCycles = 5 ∧ completes (.eor (.izy 0xFF)) high = true := by decide +kernel
theorem witness_BitTestsWithoutStoring : high.busConnected = true ∧ (Instr.bit (.abs 0xFFFF)).opcodeByte = some 0x2C ∧
    (desc 0x2C).baseCycles = 4 ∧ completes (.bit (.abs 0xFFFF)) high = true := by decide +kernel
theorem witness_ShiftsOfTheAccumulator : high.busConnected = true ∧
    after (exec (.asl .imp) { high with a := 0x80 }) (fun t => (t.a, t.p)) = some (0x00, 0x7F) ∧
    after (exec (.ror .imp) { high with a := 0x00 }) (fun t => (t.a, t.p)) = some (0x80, 0xFC) := by decide +kernel
theorem witness_ShiftsOfMemory : high.busConnected = true ∧ high.mem.wf = true ∧
    (poke [(0x00FE, 0x81)] high).mem.wf = true ∧
    after (exec (.rol (.abx 0xFFFF)) (poke [(0x00FE, 0x81)] high)) (fun t => (t.read 0x00FE, t.cycles)) =
      some (0x03, 7) ∧
    after (exec (.lsr (.zpx 0xFF)) (poke [(0x00FE, 0x01)] high)) (fun t => (t.read 0x00FE, t.cycles)) =
      some (0x00, 6) := by decide +kernel
theorem witness_IncDecStepMemory : (poke [(0x00FE, 0xFF)] high).mem.wf = true ∧
    after (exec (.inc (.abx 0xFFFF)) (poke [(0x00FE, 0xFF)] high)) (fun t => (t.read 0x00FE, t.cycles)) =
      some (0x00, 7) ∧
    after (exec (.dec (.zp0 0xFE)) high) (fun t => (t.read 0x00FE, t.cycles)) = some (0xFF, 5) := by decide +kernel
theorem witness_IndexRegistersStepByOne : high.busConnected = true ∧
    after (exec .inx high) (fun t => (t.x, t.p)) = some (0x00, 0x7F) ∧
    after (exec .dey { high with y := 0x00 }) (fun t => (t.y, t.p)) = some (0xFF, 0xFD) := by decide +kernel
theorem witness_ComparesSetCarryZeroNegative : high.busConnected = true ∧
    after (exec (.cmp (.imm 0xFF)) high) (·.p) = some 0x7F ∧
    after (exec (.cpx (.imm 0x00)) { start with x := 0x00 }) (·.p) = some 0x27 ∧
    after (exec (.cpy (.imm 0xFF)) { start with y := 0x00 }) (·.p) = some 0x24 := by decide +kernel
theorem witness_BranchesTestOneFlag : start.busConnected = true ∧
    after (exec (.bcc 0x7F) { start with pc := 0x0080 }) (fun t => (t.pc, t.cycles)) = some (0x0101, 4) ∧
    after (exec (.bcc 0x7D) { start with pc := 0x0080 }) (fun t => (t.pc, t.cycles)) = some (0x00FF, 3) ∧
    after (exec (.bcs 0x7F) { start with pc := 0xFFFE }) (fun t => (t.pc, t.cycles)) = some (0x0000, 2) ∧
    after (exec (.bne 0x80) { start with pc := 0x0000 }) (fun t => (t.pc, t.cycles)) = some (0xFF82, 4) := by
  decide +kernel
theorem witness_PhaPushesAccumulator : start.busConnected = true ∧ start.mem.wf = true ∧
    completes .pha { start with sp := 0x00 } = true := by decide +kernel
theorem witness_PhpPushesStatus : start.busConnected = true ∧ start.mem.wf = true ∧
    completes .php { start with sp := 0x00 } = true := by decide +kernel
theorem witness_PlaPullsAccumulator : start.busConnected = true ∧
    completes .pla { start with sp := 0xFF } = true := by decide +kernel
theorem witness_PlpPullsStatus : start.busConnected = true ∧
    after (exec .plp (poke [(0x0100, 0xCB)] { start with sp := 0xFF })) (fun t => (t.p, t.sp)) = some (0xEB, 0x00) := by
  decide +kernel
theorem witness_PushThenPullGivesTheByteBack : start.mem.wf = true ∧
    ({ start with sp := 0x00 }.push 0x5A).pulled = 0x5A := by decide +kernel
theorem witness_JmpGoesToItsAddress : start.busConnected = true ∧ completes (.jmp (.ind 0xFFFF)) start = true ∧
    (Instr.jmp (.ind 0xFFFF)).opcodeByte = some 0x6C ∧ (desc 0x6C).baseCycles = 5 := by decide +kernel
theorem witness_JsrPushesItsLastByteAddress : start.busConnected = true ∧ start.mem.wf = true ∧
    completes (.jsr 0xFFFF) { start with sp := 0x00 } = true := by decide +kernel
theorem witness_RtsReturnsPastThePulledAddress : start.busConnected = true ∧
    completes .rts { start with sp := 0xFE } = true := by decide +kernel
theorem witness_RtiRestoresStatusAndPc : start.busConnected = true ∧
    completes .rti { start with sp := 0xFD } = true := by decide +kernel
theorem witness_BrkTakesTheException : start.busConnected = true ∧ start.mem.wf = true ∧
    completes .brk { start with sp := 0x01 } = true := by decide +kernel
theorem witness_SubroutineCallReturns : start.mem.wf = true ∧ ∃ t, exec (.jsr 0x1234) start = .next t ∧
    t.busConnected = true := ⟨rfl, _, rfl, rfl⟩
theorem witness_BreakReturns : start.mem.wf = true ∧ ∃ t, exec .brk start = .next t ∧
    t.busConnected = true := ⟨rfl, _, rfl, rfl⟩
theorem witness_FlagInstructionsWriteOneFlag : high.busConnected = true ∧
    after (exec .clv high) (·.p) = some 0xBF ∧ after (exec .sei { start with p := 0x20 }) (·.p) = some 0x24 := by
  decide +kernel
theorem witness_NopAndUnusedOpcodesOnlyPass : start.busConnected = true ∧ (0x02, 2) ∈ unusedRows ∧
    (0xFF, 7) ∈ unusedRows ∧ unusedRows.length = 105 := by decide +kernel
theorem witness_MemoryReadsBackWhatWasWritten : (poke [(0x0000, 0x01), (0xFFFF, 0x02)] start).mem.wf = true ∧
    (poke [(0xFFFF, 0x02), (0xFFFF, 0x00)] start).mem = [] := by decide +kernel
theorem witness_ResetSequenceRestoresPowerOnValues :
    let s : State := { high with resetPending := true, nmiPending := true, irqPending := true }
    s.cycles = 0 ∧ s.resetPending = true ∧ s.busConnected = true := ⟨rfl, rfl, rfl⟩
theorem witness_NmiSequenceTakesTheException :
    let s : State := { high with nmiPending := true, irqPending := true, sp := 0x01 }
    s.cycles = 0 ∧ s.resetPending = false ∧ s.nmiPending = true ∧ s.busConnected = true ∧ s.mem.wf = true :=
  ⟨rfl, rfl, rfl, rfl, rfl⟩
theorem witness_IrqSequenceTakesTheException :
    let s : State := { start with irqPending := true, p := 0x20, sp := 0x01 }
    s.cycles = 0 ∧ s.resetPending = false ∧ s.nmiPending = false ∧ s.irqPending = true ∧ s.flag .i = false ∧
      s.busConnected = true ∧ s.mem.wf = true := ⟨rfl, rfl, rfl, rfl, rfl, rfl, rfl⟩
theorem witness_MaskedIrqIsDiscarded :
    let s : State := { start with irqPending := true }
    s.cycles = 0 ∧ s.resetPending = false ∧ s.nmiPending = false ∧ s.flag .i = true ∧ s.busConnected = true :=
  ⟨rfl, rfl, rfl, rfl, rfl⟩
theorem witness_NoBusFaultsExactlyTheFetchTicks : Instr.nop.wellFormed = true ∧
    step { start with busConnected := false, resetPending := true } = .fault .noBus ∧
    after (step { start with busConnected := false, cycles := 1 }) (·.cycles) = some 0 ∧ Event.reset ≠ .tick := by
  refine ⟨rfl, rfl, rfl, by decide⟩
theorem witness_OnlyOutcomeBesidesANextStateIsNoBus : start.busConnected = true ∧
    (Instr.ill 0x02).wellFormed = true := by decide
theorem witness_EveryEventKeepsTheInvariant : Inv { start with cycles := 7, nmiPending := true } ∧
    Event.tick.apply { start with cycles := 7, nmiPending := true } =
      .next { start with cycles := 6, nmiPending := true } := ⟨⟨rfl, rfl, by decide⟩, rfl⟩
theorem witness_ConnectedRunsNeverStop : Inv start ∧ start.busConnected = true := ⟨⟨rfl, rfl, by decide⟩, rfl⟩
theorem witness_RegistersHaveOnlyTheirListedWriters : ∃ t, exec (.asl (.zp0 0x10)) high = .next t ∧
    Operation.asl ∈ [Operation.asl, .lsr, .rol, .ror] ∧ Operand.zp0 0x10 ≠ .imp := ⟨_, rfl, by decide, by decide⟩
theorem witness_FlagsHaveOnlyTheirListedWriters : (∃ t, exec .nop high = .next t) ∧
    ∃ t, exec .plp high = .next t := ⟨⟨_, rfl⟩, _, rfl⟩
theorem witness_OnlyStoresChangeMemory : high.mem.wf = true ∧ (∃ t, exec .nop high = .next t) ∧
    (∃ t, exec (.asl .imp) high = .next t) ∧ (∃ t, exec (.dec (.zp0 0x10)) high = .next t) ∧
    (∃ t, exec .pha high = .next t) ∧ (∃ t, exec (.jsr 0x1234) high = .next t) ∧
    ∃ t, exec .brk high = .next t := ⟨rfl, ⟨_, rfl⟩, ⟨_, rfl⟩, ⟨_, rfl⟩, ⟨_, rfl⟩, ⟨_, rfl⟩, _, rfl⟩
theorem witness_DecimalFlagIsInert : (∃ t, exec (.adc (.imm 0x01)) { high with a := 0x09 } = .next t) ∧
    Operation.adc ∉ [Operation.php, .brk] := ⟨⟨_, rfl⟩, by decide⟩

end Sys2Proof.Tests
end

section
/-! PROOF. The outcomes of an event and of an instruction (spec/00_scope.md rule R7). The key fact: every
instruction that has an encoding, and so every fetch tick, is one test of the bus (R55) before a next state that
keeps the bus condition. -/

namespace Sys2Proof.Machine

open Sys2Proof

/-- A well-formed instruction is a test of the bus before a next state with the same bus condition. -/
theorem exec_eq_onBus {i : Instr} (h : i.wellFormed = true) (s : State) :
    ∃ t, exec i s = onBus s t ∧ t.busConnected = s.busConnected := by
  obtain ⟨opcode, hop⟩ := opcodeByte_of_wellFormed h
  obtain ⟨-, -, -, hbus, -⟩ := handler_frame i (resolved i opcode s)
  refine ⟨addExtraCycle (pageCross i.operand s) (opExtra i.operation) (handler i (resolved i opcode s)), ?_, ?_⟩
  · rw [exec_eq_runInstr, runInstr, hop]
    rfl
  · rw [addExtraCycle_busConnected, hbus, resolved, resolve_busConnected, beginInstr_busConnected]

/-- So is a fetch tick, whichever of the signal sequences or the fetched instruction it runs (R212). -/
theorem fetchTick_eq_onBus (s : State) :
    ∃ t, fetchTick s = onBus s t ∧ t.busConnected = s.busConnected := by
  rw [fetchTick]
  split
  · exact ⟨_, rfl, rfl⟩
  · split
    · exact ⟨_, rfl, intSeq_busConnected ..⟩
    · split
      · exact ⟨_, rfl, intSeq_busConnected ..⟩
      · exact exec_eq_onBus (fetchInstr_wellFormed s) { s with irqPending := false }

/-- With a bus connected every tick has a next state, in which the bus is still connected (R7, R34). -/
theorem step_connected {s : State} (hb : s.busConnected = true) :
    ∃ t, step s = .next t ∧ t.busConnected = true := by
  rcases Nat.eq_zero_or_pos s.cycles with h0 | hpos
  · obtain ⟨t, ht, hbus⟩ := fetchTick_eq_onBus s
    rw [step_fetch h0, ht, onBus_connected hb]
    exact ⟨_, rfl, hbus.trans hb⟩
  · exact ⟨_, step_idle hpos, hb⟩

/-- Without a bus a tick is idle or raises NoBus (R55, R219). -/
theorem step_disconnected {s : State} (hb : s.busConnected = false) :
    (∃ t, step s = .next t) ∨ step s = .fault .noBus := by
  rcases Nat.eq_zero_or_pos s.cycles with h0 | hpos
  · obtain ⟨t, ht, -⟩ := fetchTick_eq_onBus s
    rw [step_fetch h0, ht, onBus_disconnected hb]
    exact .inr rfl
  · exact .inl ⟨_, step_idle hpos⟩

/-- With a bus connected every event has a next state, in which the bus is still connected (R7, R34). -/
theorem apply_connected (e : Event) {s : State} (hb : s.busConnected = true) :
    ∃ t, e.apply s = .next t ∧ t.busConnected = true := by
  cases e with
  | tick => exact step_connected hb
  | reset | irq | nmi => exact ⟨_, rfl, hb⟩

/-- Without a bus an event has a next state or raises NoBus (R7). -/
theorem apply_disconnected (e : Event) {s : State} (hb : s.busConnected = false) :
    (∃ t, e.apply s = .next t) ∨ e.apply s = .fault .noBus := by
  cases e with
  | tick => exact step_disconnected hb
  | reset | irq | nmi => exact .inl ⟨_, rfl⟩

/-- With a bus connected every well-formed instruction completes (R7). -/
theorem exec_connected {i : Instr} (h : i.wellFormed = true) {s : State} (hb : s.busConnected = true) :
    ∃ t, exec i s = .next t ∧ t.busConnected = true := by
  obtain ⟨t, ht, hbus⟩ := exec_eq_onBus h s
  exact ⟨t, ht.trans (onBus_connected hb), hbus.trans hb⟩

/-- Settles O50: it holds, since every fetch tick and every well-formed instruction is one test of the bus. -/
theorem onlyOutcomeBesidesANextStateIsNoBus : Obligations.OnlyOutcomeBesidesANextStateIsNoBus := by
  refine ⟨fun e s hb => apply_connected e hb, fun e s => ?_, fun i s h hb => exec_connected h hb⟩
  cases hb : s.busConnected with
  | true =>
    obtain ⟨t, ht, -⟩ := apply_connected e hb
    exact .inl ⟨t, ht⟩
  | false => exact (apply_disconnected e hb).imp_right fun hfault => ⟨hfault, rfl⟩

end Sys2Proof.Machine
end

section
/-! PROOF. Every value of byte 0 is an instruction that runs (spec/30_encoding.md rule R61): with two more bytes it
decodes to the instruction of its descriptor, and an instruction with an opcode byte latches that byte (R72). -/

namespace Sys2Proof.Machine

open Sys2Proof

/-- No mode has more than two operand bytes (R60, R62). -/
theorem operandBytes_le_two (m : Mode) : m.operandBytes ≤ 2 := by
  cases m <;> decide

/-- Two bytes after the opcode are enough for every mode: the instruction, and the bytes that its mode leaves. -/
theorem decode_three_bytes (opcode b1 b2 : Byte) (rest : List Byte) :
    decode (opcode :: b1 :: b2 :: rest) = .ok (decodeBytes opcode b1 b2,
      (b1 :: b2 :: rest).drop (decodeBytes opcode b1 b2).operand.mode.operandBytes) := by
  have hlen : (desc opcode).mode.operandBytes ≤ (b1 :: b2 :: rest).length :=
    (operandBytes_le_two _).trans (Nat.le_add_left 2 rest.length)
  rw [decode_cons opcode _ hlen, decodeBytes_operand, mode_assembleOperand]
  rfl

/-- With a bus connected, an instruction with an opcode byte completes with that byte latched (R7, R72). -/
theorem exec_latches_opcode {i : Instr} {opcode : Byte} (h : i.opcodeByte = some opcode) {s : State}
    (hb : s.busConnected = true) : ∃ t, exec i s = .next t ∧ t.opcode = opcode := by
  obtain ⟨-, -, -, -, hop, -⟩ := handler_frame i (resolved i opcode s)
  refine ⟨_, exec_of_opcode h s hb, ?_⟩
  rw [addExtraCycle_opcode, hop, resolved, resolve_opcode, beginInstr_opcode]

/-- Settles O3: it holds, and the instruction is the one that the three bytes decode to. -/
theorem everyOpcodeByteDecodesAndRuns : Obligations.EveryOpcodeByteDecodesAndRuns :=
  fun opcode b1 b2 rest => ⟨decodeBytes opcode b1 b2, decodeBytes_wellFormed opcode b1 b2,
    decode_three_bytes opcode b1 b2 rest,
    fun _ hb => exec_latches_opcode (decodeBytes_opcodeByte opcode b1 b2) hb⟩

end Sys2Proof.Machine
end

section
/-! PROOF. How many ticks an instruction occupies (spec/40_clock_dispatch.md rule R75). FetchExecute leaves at
least the base count, so the fetch tick is followed by the idle ticks that count the rest down. -/

namespace Sys2Proof.Machine

open Sys2Proof

/-- What FetchExecute leaves in `cycles` is at least 2, the least base count (R72, R73, R154). -/
theorem two_le_cycles_of_exec {i : Instr} {s t : State} (h : exec i s = .next t) : 2 ≤ t.cycles := by
  obtain ⟨opcode, -, -, rfl⟩ := (exec_next_iff i s t).1 h
  have hresolved : (resolved i opcode s).cycles = (desc opcode).baseCycles := by
    rw [resolved, resolve_cycles, beginInstr_cycles]
  calc 2 ≤ (desc opcode).baseCycles := (desc_baseCycles opcode).1
    _ ≤ (handler i (resolved i opcode s)).cycles := hresolved ▸ (handler_cycles_bounds i _).1
    _ ≤ _ := by rw [addExtraCycle_cycles]; exact Nat.le_add_right _ _

/-- As many ticks as `cycles` allows are idle, and count it down (R74). -/
theorem run_idle {k : Nat} {s : State} (h : k ≤ s.cycles) :
    Host.Core.run core k s = .next { s with cycles := s.cycles - k } := by
  induction k generalizing s with
  | zero => rfl
  | succ k ih =>
    have hpos : 0 < s.cycles := by omega
    have hrest : k ≤ s.cycles - 1 := by omega
    rw [run_succ core (step_idle hpos), ih hrest, Nat.sub_sub, Nat.add_comm 1 k]

/-- After the fetch tick of an instruction that leaves the state `t`, and idle ticks up to its total count, `t`
stands with that many ticks taken off `cycles` (R75). -/
theorem run_instr {s t : State} (h : RunsInstr s)
    (ht : exec s.fetchInstr { s with irqPending := false } = .next t) {k : Nat} (hk : 1 ≤ k) (hle : k ≤ t.cycles) :
    Host.Core.run core k s = .next { t with cycles := t.cycles - k } := by
  obtain ⟨j, rfl⟩ := Nat.exists_eq_add_of_le' hk
  have hfetch : step s = .next { t with cycles := t.cycles - 1 } := by rw [step_instr h, ht, tickDown]
  have hrest : j ≤ t.cycles - 1 := by omega
  rw [run_succ core hfetch, run_idle (s := { t with cycles := t.cycles - 1 }) hrest, Nat.sub_sub, Nat.add_comm 1 j]

/-- Settles O8: it holds, since the fetch tick does all the work and every later tick of the count is idle. -/
theorem instructionOccupiesExactlyItsTicks : Obligations.InstructionOccupiesExactlyItsTicks := by
  intro s t hruns _ ht
  have hpos : 1 ≤ t.cycles := Nat.one_le_of_lt (two_le_cycles_of_exec ht)
  refine ⟨?_, fun k hk hlt => run_instr hruns ht hk hlt.le⟩
  rw [run_instr hruns ht hpos le_rfl, Nat.sub_self]

end Sys2Proof.Machine
end

section
/-! PROOF. Loads and stores (spec/42_load_store_transfer.md rules R100 to R105). The key facts: a load is SetZN of
the operand byte on a state that already holds it, so that one lemma serves LDA, LDX and LDY; a store is one write
at `addr_abs`. What each row of a table of encodings says of the instruction is checked once per table. -/

namespace Sys2Proof.Machine

open Sys2Proof

/-- `o` is the operand of `i`, of a mode with an address, and `opcode` and `base` are the opcode byte and the base
count of `i` (R64). -/
structure EncodedAs (i : Instr) (o : Operand) (opcode : Byte) (base : Nat) : Prop where
  operand_eq : i.operand = o
  opcodeByte_eq : i.opcodeByte = some opcode
  baseCycles_eq : (desc opcode).baseCycles = base
  mode_notMem : o.mode ∉ [.imp, .rel]

section Completion

variable {i : Instr} {o : Operand} {opcode : Byte} {base : Nat} {s : State}

/-- Completion of such an instruction: its handler on the resolved state, and the extra cycle (R72, R73). -/
theorem EncodedAs.exec_eq (h : EncodedAs i o opcode base) (hb : s.busConnected = true) : exec i s =
      .next (addExtraCycle (pageCross o s) (opExtra i.operation) (handler i (afterAddress o opcode base s))) :=
  exec_address h.opcodeByte_eq h.baseCycles_eq h.operand_eq h.mode_notMem s hb

/-- `Fetch` in the handler of such an instruction leaves the operand byte in `fetched` (R93). -/
theorem EncodedAs.fetchOperand_eq (h : EncodedAs i o opcode base) (s : State) :
    fetchOperand o (afterAddress o opcode base s) = afterOperand o opcode base s :=
  fetchOperand_afterAddress o h.mode_notMem opcode base s

/-- An instruction that can take the page-crossing cycle and whose handler ends in SetZN of `v` on a state `u` in
which P is untouched: `u` with the extra cycle, and Z and N from `v` (R24, R73). -/
theorem exec_setZN (h : EncodedAs i o opcode base) (hextra : opExtra i.operation = true) {u : State}
    (hb : s.busConnected = true) {v : Byte} (hhandler : handler i (afterAddress o opcode base s) = u.setZN v)
    (hp : u.p = s.p) :
    ∃ t, exec i s = .next t ∧ t = { u with p := t.p, cycles := u.cycles + (pageCross o s).toNat } ∧
      FollowZN v t ∧ KeepFlags [.z, .n] s t := by
  refine ⟨addExtraCycle (pageCross o s) true (u.setZN v), ?_, ?_, followZN_setZN v u, fun f hf => ?_⟩
  · rw [h.exec_eq hb, hextra, hhandler]
  · rw [addExtraCycle, Bool.and_true]
    rfl
  · calc (u.setZN v).flag f = u.flag f := keepFlags_setZN v u f hf
      _ = s.flag f := by rw [State.flag, hp, State.flag]

/-- LDA completes with the operand byte in A (R100). -/
theorem exec_lda (h : EncodedAs (.lda o) o opcode base) (hb : s.busConnected = true) :
    ∃ t, exec (.lda o) s = .next t ∧
      t = { afterOperand o opcode (base + (pageCross o s).toNat) s with a := operandByte o s, p := t.p } ∧
      FollowZN (operandByte o s) t ∧ KeepFlags [.z, .n] s t :=
  exec_setZN h rfl (u := { afterOperand o opcode base s with a := operandByte o s }) hb
    (by rw [handler, opLda, h.fetchOperand_eq]; rfl) rfl

/-- LDX completes with the operand byte in X (R101). -/
theorem exec_ldx (h : EncodedAs (.ldx o) o opcode base) (hb : s.busConnected = true) :
    ∃ t, exec (.ldx o) s = .next t ∧
      t = { afterOperand o opcode (base + (pageCross o s).toNat) s with x := operandByte o s, p := t.p } ∧
      FollowZN (operandByte o s) t ∧ KeepFlags [.z, .n] s t :=
  exec_setZN h rfl (u := { afterOperand o opcode base s with x := operandByte o s }) hb
    (by rw [handler, opLdx, h.fetchOperand_eq]; rfl) rfl

/-- LDY completes with the operand byte in Y (R102). -/
theorem exec_ldy (h : EncodedAs (.ldy o) o opcode base) (hb : s.busConnected = true) :
    ∃ t, exec (.ldy o) s = .next t ∧
      t = { afterOperand o opcode (base + (pageCross o s).toNat) s with y := operandByte o s, p := t.p } ∧
      FollowZN (operandByte o s) t ∧ KeepFlags [.z, .n] s t :=
  exec_setZN h rfl (u := { afterOperand o opcode base s with y := operandByte o s }) hb
    (by rw [handler, opLdy, h.fetchOperand_eq]; rfl) rfl

/-- Except in Immediate mode, `addr_abs` after the resolver is the effective address (R82). -/
theorem operandAddr_eq_effAddr (h : o.mode ≠ .imm) (s : State) : operandAddr o s = effAddr o s := by
  cases o with
  | imm => exact absurd rfl h
  | _ => rfl

/-- An instruction that never takes the page-crossing cycle and whose handler is one write of `value` at `addr_abs`
completes in its base count with only that cell changed (R103 to R105). -/
theorem exec_write (h : EncodedAs i o opcode base) (hmode : o.mode ≠ .imm)
    (hextra : opExtra i.operation = false) (hb : s.busConnected = true) (hwf : s.mem.wf = true)
    {value : Byte} (hhandler : handler i (afterAddress o opcode base s) =
      (afterAddress o opcode base s).write (operandAddr o s) value) :
    ∃ t, exec i s = .next t ∧ t = { afterAddress o opcode base s with mem := t.mem } ∧
      t.read (effAddr o s) = value ∧ KeepCells [effAddr o s] s t := by
  rw [operandAddr_eq_effAddr hmode] at hhandler
  refine ⟨(afterAddress o opcode base s).write (effAddr o s) value, ?_, rfl,
    State.read_write_same _ _ value hwf, fun c hc => ?_⟩
  · rw [h.exec_eq hb, hextra, hhandler, addExtraCycle, Bool.and_false]
    rfl
  · exact State.read_write_other (afterAddress o opcode base s) value hwf (List.ne_of_not_mem_cons hc)

end Completion

/-- The rows of R100. -/
theorem encodedAs_lda {b : Byte} {w : Addr} {o : Operand} {opcode : Byte} {base : Nat} (hrow : (o, opcode, base) ∈
    ([(.imm b, 0xA9, 2), (.zp0 b, 0xA5, 3), (.zpx b, 0xB5, 4), (.abs w, 0xAD, 4),
      (.abx w, 0xBD, 4), (.aby w, 0xB9, 4), (.izx b, 0xA1, 6), (.izy b, 0xB1, 5)] : List (Operand × Byte × Nat))) :
    EncodedAs (.lda o) o opcode base := by
  fin_cases hrow <;> exact ⟨rfl, rfl, rfl, by simp [Operand.mode]⟩

/-- Settles O15: it holds, since every row of R100 is an encoding of LDA. -/
theorem ldaLoads : Obligations.LdaLoads :=
  fun _ _ _ hb _ _ _ hrow => exec_lda (encodedAs_lda hrow) hb

/-- The rows of R101 and R102. -/
theorem encodedAs_ldx_ldy {b : Byte} {w : Addr} {i : Instr} {o : Operand} {opcode : Byte} {base : Nat}
    (hrow : (i, o, opcode, base) ∈
      ([(.ldx (.imm b), .imm b, 0xA2, 2), (.ldx (.zp0 b), .zp0 b, 0xA6, 3),
        (.ldx (.zpy b), .zpy b, 0xB6, 4), (.ldx (.abs w), .abs w, 0xAE, 4),
        (.ldx (.aby w), .aby w, 0xBE, 4), (.ldy (.imm b), .imm b, 0xA0, 2),
        (.ldy (.zp0 b), .zp0 b, 0xA4, 3), (.ldy (.zpx b), .zpx b, 0xB4, 4),
        (.ldy (.abs w), .abs w, 0xAC, 4), (.ldy (.abx w), .abx w, 0xBC, 4)] : List (Instr × Operand × Byte × Nat))) :
    (i = .ldx o ∨ i = .ldy o) ∧ EncodedAs i o opcode base := by
  fin_cases hrow <;> exact ⟨by simp, rfl, rfl, rfl, by simp [Operand.mode]⟩

/-- Settles O16: it holds, by the completion of LDX or of LDY, whichever the row encodes. -/
theorem ldxLdyLoad : Obligations.LdxLdyLoad := by
  intro s b w hb i o opcode base hrow
  obtain ⟨rfl | rfl, henc⟩ := encodedAs_ldx_ldy hrow
  · obtain ⟨t, ht, hframe, hflags⟩ := exec_ldx henc hb
    exact ⟨t, ht, fun _ => hframe, nofun, hflags⟩
  · obtain ⟨t, ht, hframe, hflags⟩ := exec_ldy henc hb
    exact ⟨t, ht, nofun, fun _ => hframe, hflags⟩

/-- The rows of R103 to R105, which have no Immediate mode, with the register that each stores. -/
theorem encodedAs_store {s : State} {b : Byte} {w : Addr} {i : Instr} {o : Operand} {opcode : Byte} {base : Nat}
    {value : Byte} (hrow : (i, o, opcode, base, value) ∈
      ([(.sta (.zp0 b), .zp0 b, 0x85, 3, s.a), (.sta (.zpx b), .zpx b, 0x95, 4, s.a),
        (.sta (.abs w), .abs w, 0x8D, 4, s.a), (.sta (.abx w), .abx w, 0x9D, 5, s.a),
        (.sta (.aby w), .aby w, 0x99, 5, s.a), (.sta (.izx b), .izx b, 0x81, 6, s.a),
        (.sta (.izy b), .izy b, 0x91, 6, s.a), (.stx (.zp0 b), .zp0 b, 0x86, 3, s.x),
        (.stx (.zpy b), .zpy b, 0x96, 4, s.x), (.stx (.abs w), .abs w, 0x8E, 4, s.x),
        (.sty (.zp0 b), .zp0 b, 0x84, 3, s.y), (.sty (.zpx b), .zpx b, 0x94, 4, s.y),
        (.sty (.abs w), .abs w, 0x8C, 4, s.y)] : List (Instr × Operand × Byte × Nat × Byte))) :
    (i = .sta o ∧ value = s.a ∨ i = .stx o ∧ value = s.x ∨ i = .sty o ∧ value = s.y) ∧
      o.mode ≠ .imm ∧ EncodedAs i o opcode base := by
  fin_cases hrow <;> exact ⟨by simp, by simp [Operand.mode], rfl, rfl, rfl, by simp [Operand.mode]⟩

/-- Settles O17: it holds, since the handler of each store is one write of its register at `addr_abs`. -/
theorem storesWriteOneByte : Obligations.StoresWriteOneByte := by
  intro s b w hb hwf i o opcode base value hrow
  obtain ⟨⟨rfl, rfl⟩ | ⟨rfl, rfl⟩ | ⟨rfl, rfl⟩, hmode, henc⟩ := encodedAs_store hrow
  all_goals exact exec_write henc hmode rfl hb hwf rfl

end Sys2Proof.Machine
end

section
/-! PROOF. Logic and bit test (spec/43_arithmetic_logic.md rules R122 to R125). The key facts: AND, ORA and EOR are
one operation on bytes each, between A and the operand byte, whose result goes to A and to SetZN, so that one lemma
serves all three; BIT is a write of Z, V and N in the state in which the operand byte is fetched. -/

namespace Sys2Proof.Machine

open Sys2Proof

section Completion

variable {i : Instr} {o : Operand} {opcode : Byte} {base : Nat} {s : State}

/-- An instruction that can take the page-crossing cycle and whose handler combines A with the fetched byte by `f`
completes with the result in A, and Z and N from it (R122 to R124). -/
theorem exec_logic (f : Byte → Byte → Byte) (h : EncodedAs i o opcode base) (hextra : opExtra i.operation = true)
    (hb : s.busConnected = true) (hhandler : ∀ u : State, handler i u =
      logicToA (f (fetchOperand o u).a (fetchOperand o u).fetched) (fetchOperand o u)) :
    ∃ t, exec i s = .next t ∧
      t = { afterOperand o opcode (base + (pageCross o s).toNat) s with a := f s.a (operandByte o s), p := t.p } ∧
      FollowZN (f s.a (operandByte o s)) t ∧ KeepFlags [.z, .n] s t :=
  exec_setZN h hextra (u := { afterOperand o opcode base s with a := f s.a (operandByte o s) }) hb
    (by rw [hhandler, h.fetchOperand_eq]; rfl) rfl

/-- Completion of an instruction that never takes the page-crossing cycle: its handler on the resolved state, in the
base count (R73). -/
theorem EncodedAs.exec_eq_baseCount (h : EncodedAs i o opcode base) (hextra : opExtra i.operation = false)
    (hb : s.busConnected = true) : exec i s = .next (handler i (afterAddress o opcode base s)) := by
  rw [h.exec_eq hb, hextra, addExtraCycle, Bool.and_false]
  rfl

/-- BIT completes in its base count: Z tests A AND the operand byte, V and N are bits 6 and 7 of the operand byte
(R125). -/
theorem exec_bit (h : EncodedAs (.bit o) o opcode base) (hb : s.busConnected = true) :
    ∃ t, exec (.bit o) s = .next t ∧ t = { afterOperand o opcode base s with p := t.p } ∧
      (t.flag .z = true ↔ s.a &&& operandByte o s = 0) ∧ t.flag .v = (operandByte o s).getLsbD 6 ∧
      t.flag .n = (operandByte o s).getLsbD 7 ∧ KeepFlags [.z, .v, .n] s t := by
  obtain ⟨hframe, hflag⟩ := opBit_spec o (afterAddress o opcode base s)
  rw [h.fetchOperand_eq] at hframe hflag
  refine ⟨opBit o (afterAddress o opcode base s), ?_, hframe, ?_, hflag .v, hflag .n, fun f hf => ?_⟩
  · exact h.exec_eq_baseCount rfl hb
  · rw [hflag .z]
    exact beq_iff_eq
  · obtain ⟨hz, hv, hn⟩ : f ≠ .z ∧ f ≠ .v ∧ f ≠ .n := by simpa using hf
    rw [hflag f, if_neg hn, if_neg hv, if_neg hz]
    rfl

end Completion

/-- Settles O21: it holds, since every row of R122 to R124 is an encoding of AND, of ORA or of EOR. -/
theorem logicCombinesIntoA : Obligations.LogicCombinesIntoA := by
  intro s b w hb i o opcode base result hrow
  obtain ⟨hcase, henc⟩ : (i = .and o ∧ result = s.a &&& operandByte o s ∨
      i = .ora o ∧ result = s.a ||| operandByte o s ∨ i = .eor o ∧ result = s.a ^^^ operandByte o s) ∧
      EncodedAs i o opcode base := by
    fin_cases hrow <;> exact ⟨by simp, rfl, rfl, rfl, by simp [Operand.mode]⟩
  obtain ⟨rfl, rfl⟩ | ⟨rfl, rfl⟩ | ⟨rfl, rfl⟩ := hcase
  · exact exec_logic (· &&& ·) henc rfl hb fun _ => rfl
  · exact exec_logic (· ||| ·) henc rfl hb fun _ => rfl
  · exact exec_logic (· ^^^ ·) henc rfl hb fun _ => rfl

/-- Settles O22: it holds, since both rows of R125 are encodings of BIT. -/
theorem bitTestsWithoutStoring : Obligations.BitTestsWithoutStoring := by
  intro s b w hb o opcode base hrow
  have henc : EncodedAs (.bit o) o opcode base := by
    fin_cases hrow <;> exact ⟨rfl, rfl, rfl, by simp [Operand.mode]⟩
  exact exec_bit henc hb

end Sys2Proof.Machine
end

section
/-! PROOF. Increment and decrement (spec/44_shift_rotate_incdec.md rules R134 to R139). The key facts: INC and DEC
are one operation on bytes each, whose result is written over the operand byte and given to SetZN; INX, INY, DEX and
DEY are SetZN on the state in which the index register is already stepped. -/

namespace Sys2Proof.Machine

open Sys2Proof

section Completion

variable {i : Instr} {o : Operand} {opcode : Byte} {base : Nat} {s : State}

/-- SetZN on a state whose P is that of `s` keeps the flags of `s` but Z and N (R24). -/
theorem keepFlags_setZN_of_p_eq {u : State} (hp : u.p = s.p) (v : Byte) : KeepFlags [.z, .n] s (u.setZN v) :=
  fun f hf => (keepFlags_setZN v u f hf).trans (congrArg (flagOf f) hp)

/-- An instruction that never takes the page-crossing cycle and whose handler steps the fetched byte by `f` in memory
completes in its base count: the cell at the effective address holds the result, Z and N follow it, and no other cell
or flag changes (R134, R137). -/
theorem exec_stepMemory (f : Byte → Byte) (h : EncodedAs i o opcode base) (hmode : o.mode ≠ .imm)
    (hextra : opExtra i.operation = false) (hb : s.busConnected = true) (hwf : s.mem.wf = true)
    (hhandler : ∀ u : State, handler i u = stepMemory (f (fetchOperand o u).fetched) (fetchOperand o u)) :
    ∃ t, exec i s = .next t ∧ t = { afterOperand o opcode base s with mem := t.mem, p := t.p } ∧
      t.read (effAddr o s) = f (operandByte o s) ∧ FollowZN (f (operandByte o s)) t ∧ KeepFlags [.z, .n] s t ∧
      KeepCells [effAddr o s] s t := by
  have hstep : handler i (afterAddress o opcode base s) =
      ((afterOperand o opcode base s).write (effAddr o s) (f (operandByte o s))).setZN (f (operandByte o s)) := by
    rw [hhandler, h.fetchOperand_eq, ← operandAddr_eq_effAddr hmode]
    rfl
  refine ⟨_, (h.exec_eq_baseCount hextra hb).trans (congrArg _ hstep), rfl, ?_, followZN_setZN _ _,
    keepFlags_setZN_of_p_eq rfl _, fun c hc => ?_⟩
  · exact State.read_write_same (afterOperand o opcode base s) _ _ hwf
  · exact State.read_write_other (afterOperand o opcode base s) _ hwf (List.ne_of_not_mem_cons hc)

/-- An Implied instruction whose handler ends in SetZN of `v` on a state `u` in which P is untouched leaves `u` with
Z and N from `v` (R24, R72). -/
theorem exec_implied_setZN (hop : i.opcodeByte = some opcode) (hbase : (desc opcode).baseCycles = base)
    (ho : i.operand = .imp) (hb : s.busConnected = true) {u : State} {v : Byte}
    (hhandler : handler i (afterImplied opcode base s) = u.setZN v) (hp : u.p = s.p) :
    ∃ t, exec i s = .next t ∧ t = { u with p := t.p } ∧ FollowZN v t ∧ KeepFlags [.z, .n] s t :=
  ⟨u.setZN v, (exec_implied hop hbase ho s hb).trans (congrArg _ hhandler), rfl, followZN_setZN v u,
    keepFlags_setZN_of_p_eq hp v⟩

end Completion

/-- Settles O25: it holds, since every row of R134 and R137 is an encoding of INC or of DEC, none of them Immediate. -/
theorem incDecStepMemory : Obligations.IncDecStepMemory := by
  intro s b w hb hwf i o opcode base result hrow
  obtain ⟨hcase, hmode, henc⟩ : (i = .inc o ∧ result = operandByte o s + 1 ∨
      i = .dec o ∧ result = operandByte o s - 1) ∧ o.mode ≠ .imm ∧ EncodedAs i o opcode base := by
    fin_cases hrow <;> exact ⟨by simp, by simp [Operand.mode], rfl, rfl, rfl, by simp [Operand.mode]⟩
  obtain ⟨rfl, rfl⟩ | ⟨rfl, rfl⟩ := hcase
  · exact exec_stepMemory (· + 1) henc hmode rfl hb hwf fun _ => rfl
  · exact exec_stepMemory (· - 1) henc hmode rfl hb hwf fun _ => rfl

/-- Settles O26: it holds, since the handler of each of the four steps its register and ends in SetZN of it. -/
theorem indexRegistersStepByOne : Obligations.IndexRegistersStepByOne := by
  intro s hb
  refine ⟨?inx, ?iny, ?dex, ?dey⟩
  case inx => exact exec_implied_setZN (u := { afterImplied 0xE8 2 s with x := s.x + 1 }) rfl rfl rfl hb rfl rfl
  case iny => exact exec_implied_setZN (u := { afterImplied 0xC8 2 s with y := s.y + 1 }) rfl rfl rfl hb rfl rfl
  case dex => exact exec_implied_setZN (u := { afterImplied 0xCA 2 s with x := s.x - 1 }) rfl rfl rfl hb rfl rfl
  case dey => exact exec_implied_setZN (u := { afterImplied 0x88 2 s with y := s.y - 1 }) rfl rfl rfl hb rfl rfl

end Sys2Proof.Machine
end

section
/-! PROOF. Compares (spec/45_compare_branch.md rules R150 to R153). The key facts: CMP, CPX and CPY are one compare of
a register, which the operand fetch leaves alone, with the operand byte; and only CMP has modes that cross a page, so
that the extra cycle is the mode's flag for all three, although CPX and CPY are not on the list of R73. -/

namespace Sys2Proof.Machine

open Sys2Proof

/-- What the compare of `reg` leaves in the flags of a state (R153). -/
theorem compareWith_flags (reg : Byte) (u : State) :
    ((compareWith reg u).flag .c = true ↔ u.fetched.toNat ≤ reg.toNat) ∧
    ((compareWith reg u).flag .z = true ↔ reg = u.fetched) ∧
    (compareWith reg u).flag .n = (reg - u.fetched).getLsbD 7 ∧ KeepFlags [.c, .z, .n] u (compareWith reg u) := by
  obtain ⟨-, hflag⟩ := compareWith_spec reg u
  refine ⟨?c, ?z, ?n, fun f hf => ?kept⟩
  case c =>
    rw [hflag .c]
    exact decide_eq_true_iff
  case z =>
    rw [hflag .z]
    exact beq_iff_eq
  case n => exact (hflag .n).trans (msb_eq_bit7 _)
  case kept =>
    obtain ⟨hc, hz, hn⟩ : f ≠ .c ∧ f ≠ .z ∧ f ≠ .n := by simpa using hf
    rw [hflag f, if_neg hn, if_neg hz, if_neg hc]

/-- An instruction whose handler compares `reg` with the operand byte, and which takes the page-crossing cycle where
its mode has one, completes with only C, Z and N written (R73, R153). -/
theorem exec_compare {i : Instr} {o : Operand} {opcode : Byte} {base : Nat} {reg : Byte} {s : State}
    (h : EncodedAs i o opcode base) (hcross : (pageCross o s && opExtra i.operation) = pageCross o s)
    (hb : s.busConnected = true)
    (hhandler : handler i (afterAddress o opcode base s) = compareWith reg (afterOperand o opcode base s)) :
    ∃ t, exec i s = .next t ∧ t = { afterOperand o opcode (base + (pageCross o s).toNat) s with p := t.p } ∧
      (t.flag .c = true ↔ (operandByte o s).toNat ≤ reg.toNat) ∧ (t.flag .z = true ↔ reg = operandByte o s) ∧
      t.flag .n = (reg - operandByte o s).getLsbD 7 ∧ KeepFlags [.c, .z, .n] s t := by
  refine ⟨addExtraCycle (pageCross o s) (opExtra i.operation) (compareWith reg (afterOperand o opcode base s)),
    ?_, ?_, compareWith_flags reg (afterOperand o opcode base s)⟩
  · rw [h.exec_eq hb, hhandler]
  · rw [addExtraCycle, hcross]
    rfl

/-- Settles O27: it holds, since every row of R150 is an encoding of CMP, and every row of R151 and R152 one of CPX or
of CPY in a mode that crosses no page. -/
theorem comparesSetCarryZeroNegative : Obligations.ComparesSetCarryZeroNegative := by
  intro s b w hb i o opcode base reg hrow
  obtain ⟨hcase, henc⟩ : (i = .cmp o ∧ reg = s.a ∨ i = .cpx o ∧ reg = s.x ∧ pageCross o s = false ∨
      i = .cpy o ∧ reg = s.y ∧ pageCross o s = false) ∧ EncodedAs i o opcode base := by
    fin_cases hrow <;> exact ⟨by simp [pageCross], rfl, rfl, rfl, by simp [Operand.mode]⟩
  obtain ⟨rfl, rfl⟩ | ⟨rfl, rfl, hcross⟩ | ⟨rfl, rfl, hcross⟩ := hcase
  · exact exec_compare henc (Bool.and_true _) hb (by rw [handler, opCmp, henc.fetchOperand_eq]; rfl)
  · exact exec_compare henc (by rw [hcross, Bool.false_and]) hb (by rw [handler, opCpx, henc.fetchOperand_eq]; rfl)
  · exact exec_compare henc (by rw [hcross, Bool.false_and]) hb (by rw [handler, opCpy, henc.fetchOperand_eq]; rfl)

end Sys2Proof.Machine
end

section
/-! PROOF. JMP (spec/47_jump_subroutine.md rule R180). The key facts: neither mode of JMP is Immediate, so that
`addr_abs` holds the effective address, and the handler copies it to PC without reading there. -/

namespace Sys2Proof.Machine

open Sys2Proof

/-- The rows of R180, neither of them Immediate. -/
theorem encodedAs_jmp {w : Addr} {o : Operand} {opcode : Byte} {base : Nat} (hrow : (o, opcode, base) ∈
    ([(.abs w, 0x4C, 3), (.ind w, 0x6C, 5)] : List (Operand × Byte × Nat))) :
    o.mode ≠ .imm ∧ EncodedAs (.jmp o) o opcode base := by
  fin_cases hrow <;> exact ⟨by simp [Operand.mode], rfl, rfl, rfl, by simp [Operand.mode]⟩

/-- Settles O34: it holds, since the handler of JMP writes PC only, from `addr_abs`, where the resolver left the
effective address. -/
theorem jmpGoesToItsAddress : Obligations.JmpGoesToItsAddress := by
  intro s w hb o opcode base hrow
  obtain ⟨hmode, henc⟩ := encodedAs_jmp hrow
  have hhandler : handler (.jmp o) (afterAddress o opcode base s) =
      { afterAddress o opcode base s with pc := effAddr o s } := by
    rw [← operandAddr_eq_effAddr hmode]
    rfl
  exact ⟨_, (henc.exec_eq_baseCount rfl hb).trans (congrArg _ hhandler), rfl⟩

end Sys2Proof.Machine
end

section
/-! PROOF. Decoder and encoder (spec/30_encoding.md rules R60 to R66). The key facts: the encoder's table and the
decoder's matrix select the same descriptor for every instruction; the bytes of an operand are the ones that its mode
assembles; and the decoder fails only where operand bytes are missing. -/

namespace Sys2Proof.Machine

open Sys2Proof

/-- The encoder's table and the decoder's matrix agree on every instruction (R64, R65). -/
theorem descriptor_agrees (i : Instr) : Laws.DescriptorAgrees.Statement i := by
  cases i with
  | lda o => exact Laws.DescriptorAgrees.lda o
  | ldx o => exact Laws.DescriptorAgrees.ldx o
  | ldy o => exact Laws.DescriptorAgrees.ldy o
  | sta o => exact Laws.DescriptorAgrees.sta o
  | stx o => exact Laws.DescriptorAgrees.stx o
  | sty o => exact Laws.DescriptorAgrees.sty o
  | adc o => exact Laws.DescriptorAgrees.adc o
  | sbc o => exact Laws.DescriptorAgrees.sbc o
  | and o => exact Laws.DescriptorAgrees.and o
  | ora o => exact Laws.DescriptorAgrees.ora o
  | eor o => exact Laws.DescriptorAgrees.eor o
  | bit o => exact Laws.DescriptorAgrees.bit o
  | asl o => exact Laws.DescriptorAgrees.asl o
  | lsr o => exact Laws.DescriptorAgrees.lsr o
  | rol o => exact Laws.DescriptorAgrees.rol o
  | ror o => exact Laws.DescriptorAgrees.ror o
  | inc o => exact Laws.DescriptorAgrees.inc o
  | dec o => exact Laws.DescriptorAgrees.dec o
  | cmp o => exact Laws.DescriptorAgrees.cmp o
  | cpx o => exact Laws.DescriptorAgrees.cpx o
  | cpy o => exact Laws.DescriptorAgrees.cpy o
  | jmp o => exact Laws.DescriptorAgrees.jmp o
  | ill opcode => exact Laws.DescriptorAgrees.ill opcode
  | _ => exact ⟨rfl, rfl, rfl⟩

/-- The opcode byte of an instruction selects the descriptor with its operation and its mode (R64, R65). -/
theorem desc_of_opcodeByte {i : Instr} {opcode : Byte} (h : i.opcodeByte = some opcode) :
    (desc opcode).operation = i.operation ∧ (desc opcode).mode = i.operand.mode := by
  have hagree := descriptor_agrees i
  rw [Laws.DescriptorAgrees.Statement, h] at hagree
  exact hagree.2

/-- An operand has as many bytes as its mode (R60). -/
@[simp] theorem length_operand_bytes (o : Operand) : o.bytes.length = o.mode.operandBytes := by
  cases o <;> rfl

/-- Its mode assembles an operand from its own bytes, whatever follows them (R60, R62). -/
theorem assembleOperand_bytes (o : Operand) (rest : List Byte) :
    assembleOperand o.mode ((o.bytes ++ rest).getD 0 0) ((o.bytes ++ rest).getD 1 0) = o := by
  cases o with
  | abs w | abx w | aby w | ind w => simp [Operand.mode, Operand.bytes, assembleOperand]
  | _ => rfl

/-- The bytes of an assembled operand are the bytes that its mode counts (R60, R62). -/
theorem bytes_assembleOperand {m : Mode} {rest : List Byte} (h : m.operandBytes ≤ rest.length) :
    (assembleOperand m (rest.getD 0 0) (rest.getD 1 0)).bytes = rest.take m.operandBytes := by
  cases m with
  | imp => rfl
  | imm | zp0 | zpx | zpy | rel | izx | izy =>
    obtain ⟨b1, tail, rfl⟩ := List.exists_cons_of_length_pos h
    rfl
  | abs | abx | aby | ind =>
    rcases rest with _ | ⟨b1, _ | ⟨b2, tail⟩⟩
    case cons.cons => simp [assembleOperand, Operand.bytes, Mode.operandBytes]
    all_goals exact absurd h (by simp [Mode.operandBytes])

/-- An instruction is assembled again from its operation and from bytes that give its operand (R64, R79). -/
theorem assembleInstr_self {i : Instr} {opcode b1 b2 : Byte} (hop : i.opcodeByte = some opcode)
    (ho : assembleOperand i.operand.mode b1 b2 = i.operand) :
    assembleInstr opcode i.operation i.operand b1 b2 = i := by
  cases i with
  | bcc d | bcs d | beq d | bmi d | bne d | bpl d | bvc d | bvs d =>
    exact congrArg _ (Operand.rel.inj ho)
  | jsr w => exact congrArg _ (Operand.abs.inj ho)
  | ill op =>
    obtain ⟨-, hself⟩ := Option.ite_none_right_eq_some.1 hop
    exact congrArg Instr.ill (Option.some.inj hself).symm
  | _ => rfl

/-- The opcode byte and bytes that give the operand decode to the instruction (R61, R66). -/
theorem decodeBytes_self {i : Instr} {opcode b1 b2 : Byte} (hop : i.opcodeByte = some opcode)
    (ho : assembleOperand i.operand.mode b1 b2 = i.operand) : decodeBytes opcode b1 b2 = i := by
  obtain ⟨hoperation, hmode⟩ := desc_of_opcodeByte hop
  rw [decodeBytes, hoperation, hmode, ho]
  exact assembleInstr_self hop ho

/-- The bytes of an instruction with an opcode byte (R60). -/
theorem encode_of_opcodeByte {i : Instr} {opcode : Byte} (h : i.opcodeByte = some opcode) :
    encode i = opcode :: i.operand.bytes := by
  rw [encode, h]

/-- The bytes of a decoded instruction (R60, R62). -/
theorem encode_decodeBytes (opcode b1 b2 : Byte) :
    encode (decodeBytes opcode b1 b2) = opcode :: (assembleOperand (desc opcode).mode b1 b2).bytes := by
  rw [encode_of_opcodeByte (decodeBytes_opcodeByte opcode b1 b2), decodeBytes_operand]

/-- Settles O1: it holds, since the opcode byte selects the descriptor of the instruction, whose mode takes exactly
the operand bytes and assembles the operand from them. -/
theorem decodeInvertsEncode : Obligations.DecodeInvertsEncode := by
  intro i rest hwf
  obtain ⟨opcode, hop⟩ := opcodeByte_of_wellFormed hwf
  obtain ⟨-, hmode⟩ := desc_of_opcodeByte hop
  have hlen : (desc opcode).mode.operandBytes = i.operand.bytes.length := by rw [hmode, length_operand_bytes]
  rw [encode_of_opcodeByte hop, List.cons_append, decode_cons opcode _ (by simp [hlen]), hlen, List.drop_left,
    decodeBytes_self hop (assembleOperand_bytes i.operand rest)]

/-- Where operand bytes are missing the decoder fails (R66). -/
theorem decode_truncated {opcode : Byte} {rest : List Byte}
    (h : rest.length < (desc opcode).mode.operandBytes) : decode (opcode :: rest) = .error (.truncated opcode) := by
  unfold decode
  dsimp only
  split
  case h_4 => rfl
  all_goals
    rename_i hbytes
    simp only [hbytes, List.length_cons] at h
    omega

/-- What the decoder answers on bytes that it accepts (R60, R66): the instruction of the opcode byte and the bytes
after it, and the bytes that its mode leaves. -/
theorem decode_cons_ok {opcode : Byte} {tail rest : List Byte} {i : Instr}
    (h : decode (opcode :: tail) = .ok (i, rest)) : (desc opcode).mode.operandBytes ≤ tail.length ∧
      i = decodeBytes opcode (tail.getD 0 0) (tail.getD 1 0) ∧ rest = tail.drop (desc opcode).mode.operandBytes := by
  rcases Nat.lt_or_ge tail.length (desc opcode).mode.operandBytes with hlt | hle
  · rw [decode_truncated hlt] at h
    exact nomatch h
  · rw [decode_cons opcode tail hle] at h
    obtain ⟨rfl, rfl⟩ := Prod.mk.inj (Except.ok.inj h)
    exact ⟨hle, rfl, rfl⟩

/-- Settles O2: it holds, since a decoded instruction has the opcode byte that it was decoded from, and its operand
has the bytes that its mode took. -/
theorem encodeInvertsDecode : Obligations.EncodeInvertsDecode := by
  intro bytes i rest h
  cases bytes with
  | nil => exact nomatch h
  | cons opcode tail =>
    obtain ⟨hlen, rfl, rfl⟩ := decode_cons_ok h
    refine ⟨decodeBytes_wellFormed _ _ _, ?_⟩
    rw [encode_decodeBytes, bytes_assembleOperand hlen, List.cons_append, List.take_append_drop]

/-- The forms with one operand byte (R60). -/
theorem bytes_of_oneByteForm {o : Operand} {b : Byte}
    (h : o ∈ [.imm b, .zp0 b, .zpx b, .zpy b, .rel b, .izx b, .izy b]) : o.bytes = [b] := by
  fin_cases h <;> rfl

/-- The forms with two operand bytes, the low byte first, as numbers (R5, R60). -/
theorem bytes_of_twoByteForm {o : Operand} {w : Addr} (h : o ∈ [.abs w, .abx w, .aby w, .ind w]) :
    o.bytes = [BitVec.ofNat 8 w.toNat, BitVec.ofNat 8 (w.toNat / 256)] := by
  have hlow : lowByte w = BitVec.ofNat 8 w.toNat := BitVec.eq_of_toNat_eq (by simp [lowByte_toNat])
  have hhigh : highByte w = BitVec.ofNat 8 (w.toNat / 256) :=
    BitVec.eq_of_toNat_eq (by rw [highByte_toNat, BitVec.toNat_ofNat]; omega)
  rw [← hlow, ← hhigh]
  fin_cases h <;> rfl

/-- Settles O4: it holds, by the bytes of each operand form; the decoder takes them by the inversion of the encoder. -/
theorem instructionBytesByFormat : Obligations.InstructionBytesByFormat := by
  intro i hwf
  obtain ⟨opcode, hop⟩ := opcodeByte_of_wellFormed hwf
  have hbytes := encode_of_opcodeByte hop
  refine ⟨opcode, fun ho => ?implied, fun b ho => ?oneByte, fun w ho => ?twoBytes,
    fun rest => ⟨i, decodeInvertsEncode i rest hwf⟩⟩
  case implied => rw [hbytes, ho, Operand.bytes]
  case oneByte => rw [hbytes, bytes_of_oneByteForm ho]
  case twoBytes => rw [hbytes, bytes_of_twoByteForm ho]

/-- Settles O5: it holds, by running the decoder on the eight words. -/
theorem sampleWordsDecode : Obligations.SampleWordsDecode :=
  ⟨rfl, rfl, rfl, rfl, rfl, rfl, rfl, rfl⟩

end Sys2Proof.Machine
end

section
/-! PROOF. Who writes what (spec/10_state.md sections 1 to 3 and 6, spec/20_memory.md sections 4 and 5). The key facts:
for every register, for P and for memory, one lemma over the operation handlers says which of them leave it alone; the
frame around a handler (R72) writes PC, `opcode`, `cycles` and the transient registers only. -/

namespace Sys2Proof.Machine

open Sys2Proof

section Resolved

variable (i : Instr) (opcode : Byte) (s : State)

/-! What a handler finds in each field: what FetchExecute writes before it, and every other field as it was (R72). -/

@[simp] theorem resolved_a : (resolved i opcode s).a = s.a := by simp [resolved]
@[simp] theorem resolved_x : (resolved i opcode s).x = s.x := by simp [resolved]
@[simp] theorem resolved_y : (resolved i opcode s).y = s.y := by simp [resolved]
@[simp] theorem resolved_sp : (resolved i opcode s).sp = s.sp := by simp [resolved]
@[simp] theorem resolved_p : (resolved i opcode s).p = s.p := by simp [resolved]
@[simp] theorem resolved_mem : (resolved i opcode s).mem = s.mem := by simp [resolved]
@[simp] theorem resolved_resetPending : (resolved i opcode s).resetPending = s.resetPending := by simp [resolved]
@[simp] theorem resolved_nmiPending : (resolved i opcode s).nmiPending = s.nmiPending := by simp [resolved]
@[simp] theorem resolved_irqPending : (resolved i opcode s).irqPending = s.irqPending := by simp [resolved]
@[simp] theorem resolved_busConnected : (resolved i opcode s).busConnected = s.busConnected := by simp [resolved]
@[simp] theorem resolved_opcode : (resolved i opcode s).opcode = opcode := by simp [resolved]
@[simp] theorem resolved_cycles : (resolved i opcode s).cycles = (desc opcode).baseCycles := by simp [resolved]
@[simp] theorem resolved_pc : (resolved i opcode s).pc = s.pc + 1 + BitVec.ofNat 16 i.operand.mode.operandBytes :=
  by simp [resolved]
@[simp] theorem resolved_addrAbs : (resolved i opcode s).addrAbs = effAddr i.operand (beginInstr opcode s) :=
  by simp [resolved]

end Resolved

section Registers

variable (i : Instr) (s : State)

/-- The writers of A (R10). -/
theorem handler_a
    (h : i.operation ∉ [.lda, .txa, .tya, .pla, .adc, .sbc, .and, .ora, .eor, .asl, .lsr, .rol, .ror]) :
    (handler i s).a = s.a := by
  cases i with
  | lda | txa | tya | pla | adc | sbc | and | ora | eor | asl | lsr | rol | ror => simp [Instr.operation] at h
  | ldx o | ldy o | bit o | cmp o | cpx o | cpy o | inc o | dec o => exact fetchOperand_a o s
  | bcc | bcs | beq | bmi | bne | bpl | bvc | bvs => exact branchIf_a _ s
  | brk => exact takeException_a ..
  | _ => rfl

/-- The end of a shift in a memory mode does not write A (R94). -/
theorem shiftTo_a {o : Operand} (ho : o ≠ .imp) (c : Bool) (r : Byte) : (shiftTo o c r s).a = s.a :=
  writeBack_a ho r _

/-- A shift in a memory mode does not write A (R94, R130 to R133). -/
theorem handler_a_of_memory_shift (h : i.operation ∈ [.asl, .lsr, .rol, .ror]) (ho : i.operand ≠ .imp) :
    (handler i s).a = s.a := by
  cases i with
  | asl o | lsr o | rol o | ror o => exact (shiftTo_a _ ho _ _).trans (fetchOperand_a o s)
  | _ => simp [Instr.operation] at h

/-- The writers of X (R11). -/
theorem handler_x (h : i.operation ∉ [.ldx, .tax, .tsx, .inx, .dex]) : (handler i s).x = s.x := by
  cases i with
  | ldx | tax | tsx | inx | dex => simp [Instr.operation] at h
  | asl o | lsr o | rol o | ror o => exact (writeBack_x o _ _).trans (fetchOperand_x o s)
  | lda o | ldy o | adc o | sbc o | and o | ora o | eor o | bit o | cmp o | cpx o | cpy o | inc o | dec o =>
    exact fetchOperand_x o s
  | bcc | bcs | beq | bmi | bne | bpl | bvc | bvs => exact branchIf_x _ s
  | brk => exact takeException_x ..
  | _ => rfl

/-- The writers of Y (R12). -/
theorem handler_y (h : i.operation ∉ [.ldy, .tay, .iny, .dey]) : (handler i s).y = s.y := by
  cases i with
  | ldy | tay | iny | dey => simp [Instr.operation] at h
  | asl o | lsr o | rol o | ror o => exact (writeBack_y o _ _).trans (fetchOperand_y o s)
  | lda o | ldx o | adc o | sbc o | and o | ora o | eor o | bit o | cmp o | cpx o | cpy o | inc o | dec o =>
    exact fetchOperand_y o s
  | bcc | bcs | beq | bmi | bne | bpl | bvc | bvs => exact branchIf_y _ s
  | brk => exact takeException_y ..
  | _ => rfl

/-- The writers of SP (R13). -/
theorem handler_sp (h : i.operation ∉ [.pha, .php, .pla, .plp, .jsr, .rts, .rti, .brk, .txs]) :
    (handler i s).sp = s.sp := by
  cases i with
  | pha | php | pla | plp | jsr | rts | rti | brk | txs => simp [Instr.operation] at h
  | asl o | lsr o | rol o | ror o => exact (writeBack_sp o _ _).trans (fetchOperand_sp o s)
  | lda o | ldx o | ldy o | adc o | sbc o | and o | ora o | eor o | bit o | cmp o | cpx o | cpy o | inc o | dec o =>
    exact fetchOperand_sp o s
  | bcc | bcs | beq | bmi | bne | bpl | bvc | bvs => exact branchIf_sp _ s
  | _ => rfl

/-- The handlers that write PC (R14): the jumps and branches. -/
theorem handler_pc (h : i.operation ∉
    [.bcc, .bcs, .beq, .bmi, .bne, .bpl, .bvc, .bvs, .jmp, .jsr, .rts, .rti, .brk]) : (handler i s).pc = s.pc := by
  cases i with
  | bcc | bcs | beq | bmi | bne | bpl | bvc | bvs | jmp | jsr | rts | rti | brk => simp [Instr.operation] at h
  | asl o | lsr o | rol o | ror o => exact (writeBack_pc o _ _).trans (fetchOperand_pc o s)
  | lda o | ldx o | ldy o | adc o | sbc o | and o | ora o | eor o | bit o | cmp o | cpx o | cpy o | inc o | dec o =>
    exact fetchOperand_pc o s
  | _ => rfl

/-- The writers of memory (R46, R48, R94). -/
theorem handler_mem (h : i.operation ∉
    [.sta, .stx, .sty, .asl, .lsr, .rol, .ror, .inc, .dec, .pha, .php, .jsr, .brk]) :
    (handler i s).mem = s.mem := by
  cases i with
  | sta | stx | sty | asl | lsr | rol | ror | inc | dec | pha | php | jsr | brk => simp [Instr.operation] at h
  | lda o | ldx o | ldy o | adc o | sbc o | and o | ora o | eor o | bit o | cmp o | cpx o | cpy o =>
    exact fetchOperand_mem o s
  | bcc | bcs | beq | bmi | bne | bpl | bvc | bvs => exact branchIf_mem _ s
  | _ => rfl

/-- A shift of the accumulator does not write memory (R94, R130 to R133). -/
theorem handler_mem_of_accumulator_shift (h : i.operation ∈ [.asl, .lsr, .rol, .ror]) (ho : i.operand = .imp) :
    (handler i s).mem = s.mem := by
  cases i with
  | asl | lsr | rol | ror =>
    subst ho
    rfl
  | _ => simp [Instr.operation] at h

end Registers

/-- Settles O54: it holds, by the writers of each register over the handlers; the frame moves PC past the
instruction. -/
theorem registersHaveOnlyTheirListedWriters : Obligations.RegistersHaveOnlyTheirListedWriters := by
  intro i s t h
  obtain ⟨opcode, -, -, rfl⟩ := (exec_next_iff i s t).1 h
  obtain ⟨hreset, hnmi, hirq, hbus, -⟩ := handler_frame i (resolved i opcode s)
  refine ⟨fun h => ?a, fun h ho => ?aMemory, fun h => ?x, fun h => ?y, fun h => ?sp, fun h => ?pc,
    ?reset, ?nmi, ?irq, ?bus⟩
  case a => exact (handler_a i _ h).trans (resolved_a ..)
  case aMemory => exact (handler_a_of_memory_shift i _ h ho).trans (resolved_a ..)
  case x => exact (handler_x i _ h).trans (resolved_x ..)
  case y => exact (handler_y i _ h).trans (resolved_y ..)
  case sp => exact (handler_sp i _ h).trans (resolved_sp ..)
  case pc =>
    refine (handler_pc i _ h).trans ?_
    rw [resolved_pc, Instr.length, BitVec.ofNat_add, BitVec.add_assoc]
    rfl
  case reset => exact hreset.trans (resolved_resetPending ..)
  case nmi => exact hnmi.trans (resolved_nmiPending ..)
  case irq => exact hirq.trans (resolved_irqPending ..)
  case bus => exact hbus.trans (resolved_busConnected ..)

/-- The flags that an operation can change (R16 to R25). -/
def flagsWritten : Operation → List Flag
  | .lda | .ldx | .ldy | .tax | .tay | .txa | .tya | .tsx | .pla => [.z, .n]
  | .and | .ora | .eor | .inc | .inx | .iny | .dec | .dex | .dey => [.z, .n]
  | .asl | .lsr | .rol | .ror | .cmp | .cpx | .cpy => [.c, .z, .n]
  | .adc | .sbc => [.c, .v, .z, .n]
  | .bit => [.z, .v, .n]
  | .clc | .sec => [.c]
  | .cld | .sed => [.d]
  | .cli | .sei | .brk => [.i]
  | .clv => [.v]
  | .plp | .rti => [.c, .z, .i, .d, .b, .u, .v, .n]
  | _ => []

/-- Flags are read from P alone. -/
theorem KeepFlags.of_p_eq {written : List Flag} {s u t v : State} (h : KeepFlags written u v) (hs : u.p = s.p)
    (ht : t.p = v.p) : KeepFlags written s t := by
  intro f hf
  rw [State.flag, ht, State.flag, ← hs]
  exact h f hf

/-- A state with the same P has the same flags. -/
theorem keepFlags_of_p_eq (written : List Flag) {s t : State} (h : t.p = s.p) : KeepFlags written s t :=
  fun f _ => congrArg (flagOf f) h

/-- A write of one flag keeps the others (R25). -/
theorem keepFlags_setFlag (f : Flag) (value : Bool) (s : State) : KeepFlags [f] s (s.setFlag f value) := by
  intro g hg
  rw [flag_setFlag, if_neg (List.ne_of_not_mem_cons hg)]

/-- The addition of ADC and SBC keeps the flags that it does not write (R120). -/
theorem keepFlags_addToA (m : Byte) (s : State) : KeepFlags [.c, .v, .z, .n] s (addToA m s) := by
  intro f hf
  obtain ⟨hc, hv, hz, hn⟩ : f ≠ .c ∧ f ≠ .v ∧ f ≠ .z ∧ f ≠ .n := by simpa using hf
  rw [(addToA_spec m s).2 f, if_neg hn, if_neg hz, if_neg hv, if_neg hc]

/-- So does the end of the shifts (R130 to R133). -/
theorem keepFlags_shiftTo (o : Operand) (c : Bool) (r : Byte) (s : State) :
    KeepFlags [.c, .z, .n] s (shiftTo o c r s) := by
  intro f hf
  obtain ⟨hc, hz, hn⟩ : f ≠ .c ∧ f ≠ .z ∧ f ≠ .n := by simpa using hf
  rw [(shiftTo_spec o c r s).2 f, if_neg hn, if_neg hz, if_neg hc]

/-- So does the bit test (R125). -/
theorem keepFlags_opBit (o : Operand) (s : State) : KeepFlags [.z, .v, .n] s (opBit o s) := by
  intro f hf
  obtain ⟨hz, hv, hn⟩ : f ≠ .z ∧ f ≠ .v ∧ f ≠ .n := by simpa using hf
  rw [(opBit_spec o s).2 f, if_neg hn, if_neg hv, if_neg hz]

/-- The compare writes C, Z and N only (R153). -/
theorem keepFlags_compareWith (reg : Byte) (s : State) : KeepFlags [.c, .z, .n] s (compareWith reg s) :=
  (compareWith_flags reg s).2.2.2

/-- Every handler keeps the flags that its operation is not listed to write. -/
theorem handler_keepFlags (i : Instr) (s : State) : KeepFlags (flagsWritten i.operation) s (handler i s) := by
  cases i with
  | lda o | ldx o | ldy o | and o | ora o | eor o | inc o | dec o =>
    exact keepFlags_setZN_of_p_eq (fetchOperand_p o s) _
  | tax | tay | txa | tya | tsx | pla | inx | iny | dex | dey => exact keepFlags_setZN_of_p_eq rfl _
  | asl o | lsr o | rol o | ror o => exact (keepFlags_shiftTo o _ _ _).of_p_eq (fetchOperand_p o s) rfl
  | cmp o | cpx o | cpy o => exact (keepFlags_compareWith _ _).of_p_eq (fetchOperand_p o s) rfl
  | adc o | sbc o => exact (keepFlags_addToA _ _).of_p_eq (fetchOperand_p o s) rfl
  | bit o => exact keepFlags_opBit o s
  | clc | sec => exact keepFlags_setFlag .c _ s
  | cld | sed => exact keepFlags_setFlag .d _ s
  | cli | sei => exact keepFlags_setFlag .i _ s
  | clv => exact keepFlags_setFlag .v _ s
  | brk => exact (keepFlags_setFlag .i true s).of_p_eq rfl (takeException_p ..)
  | plp | rti => exact fun f hf => absurd (by cases f <;> decide) hf
  | bcc | bcs | beq | bmi | bne | bpl | bvc | bvs => exact keepFlags_of_p_eq _ (branchIf_p _ s)
  | _ => exact keepFlags_of_p_eq _ rfl

/-- So does a completed instruction: its frame does not write P (R72). -/
theorem exec_keepFlags {i : Instr} {s t : State} (h : exec i s = .next t) :
    KeepFlags (flagsWritten i.operation) s t := by
  obtain ⟨opcode, -, -, rfl⟩ := (exec_next_iff i s t).1 h
  exact (handler_keepFlags i (resolved i opcode s)).of_p_eq (resolved_p ..) rfl

/-- PLP and RTI leave U set (R25). -/
theorem handler_flag_u {i : Instr} (h : i.operation ∈ [.plp, .rti]) (s : State) : (handler i s).flag .u = true := by
  cases i with
  | plp | rti => exact flag_loadP s s.pulled .u
  | _ => simp [Instr.operation] at h

/-- Settles O55: it holds, by the flags that each operation can change. -/
theorem flagsHaveOnlyTheirListedWriters : Obligations.FlagsHaveOnlyTheirListedWriters := by
  intro i s t h
  have hkeep := exec_keepFlags h
  refine ⟨fun hop => hkeep .c ?c, fun hop => ⟨hkeep .z ?z, hkeep .n ?n⟩, fun hop => hkeep .i ?i,
    fun hop => hkeep .d ?d, fun hop => ⟨hkeep .b ?b, hkeep .u ?u⟩, fun hop => ?uSet, fun hop => hkeep .v ?v⟩
  case uSet =>
    obtain ⟨opcode, -, -, rfl⟩ := (exec_next_iff i s t).1 h
    exact handler_flag_u hop (resolved i opcode s)
  all_goals
    revert hop
    generalize i.operation = op
    cases op <;> decide

/-- The mode of an instruction with an opcode byte is one that the table pairs its operation with (R64, R95). -/
theorem mode_mem_modes {i : Instr} {opcode : Byte} (h : i.opcodeByte = some opcode) :
    i.operand.mode ∈ i.operation.modes := by
  obtain ⟨hop, hmode⟩ := desc_of_opcodeByte h
  simpa [hop, hmode] using desc_modes opcode

/-- An instruction that stores has no Immediate mode, so its `addr_abs` is the effective address (R82, R95). -/
theorem resolved_addrAbs_of_store {i : Instr} {opcode : Byte} (h : i.opcodeByte = some opcode)
    (hop : i.operation ∈ [.sta, .stx, .sty, .asl, .lsr, .rol, .ror, .inc, .dec]) (s : State) :
    (resolved i opcode s).addrAbs = effAddr i.operand s := by
  have hmode : i.operand.mode ≠ .imm := by
    have hmem := mode_mem_modes h
    intro himm
    rw [himm] at hmem
    revert hop hmem
    generalize i.operation = op
    cases op <;> decide
  rw [resolved_addrAbs, effAddr_beginInstr i.operand opcode s hmode]

/-- A memory that is the old one, or the old one with one cell written, keeps every other cell (R42). -/
theorem keepCells_of_mem {s t : State} {a : Addr} (hw : s.mem.wf = true)
    (h : t.mem = s.mem ∨ ∃ v, t.mem = Memory.write s.mem a.toNat v) : KeepCells [a] s t := by
  intro c hc
  obtain h | ⟨v, h⟩ := h
  · exact State.read_congr h c
  · exact (State.read_congr h c).trans (State.read_write_other s v hw (List.ne_of_not_mem_cons hc))

/-- Cells are read from memory alone. -/
theorem KeepCells.of_mem_eq {written : List Addr} {s u t v : State} (h : KeepCells written u v) (hs : u.mem = s.mem)
    (ht : t.mem = v.mem) : KeepCells written s t :=
  fun c hc => ((State.read_congr ht c).trans (h c hc)).trans (State.read_congr hs c)

/-- A push changes the cell that SP indexes (R48). -/
theorem keepCells_push {s : State} (v : Byte) (hw : s.mem.wf = true) : KeepCells [stackAddr s.sp] s (s.push v) :=
  fun _ hc => read_push_other s v hw (List.ne_of_not_mem_cons hc)

/-- A 16-bit push changes two cells of the stack page (R48). -/
theorem keepCells_pushAddr {s : State} (v : Addr) (hw : s.mem.wf = true) :
    KeepCells [stackAddr s.sp, stackAddr (s.sp - 1)] s (s.pushAddr v) := by
  obtain ⟨-, -, -, hother⟩ := pushAddr_spec s v hw
  intro c hc
  obtain ⟨h0, h1⟩ : c ≠ stackAddr s.sp ∧ c ≠ stackAddr (s.sp - 1) := by simpa using hc
  exact hother c h0 h1

/-- An exception changes three cells of the stack page (R184, R216). -/
theorem keepCells_takeException {s : State} (ret : Addr) (status : Byte) (vec : Addr) (hw : s.mem.wf = true) :
    KeepCells [stackAddr s.sp, stackAddr (s.sp - 1), stackAddr (s.sp - 2)] s (s.takeException ret status vec) := by
  obtain ⟨-, -, -, -, hother, -⟩ := takeException_spec s ret status vec hw
  intro c hc
  obtain ⟨h0, h1, h2⟩ : c ≠ stackAddr s.sp ∧ c ≠ stackAddr (s.sp - 1) ∧ c ≠ stackAddr (s.sp - 2) := by
    simpa using hc
  exact hother c h0 h1 h2

/-- BRK takes an exception, with PC past the padding byte (R184). -/
theorem handler_brk (s : State) : handler .brk s =
    State.takeException (s.pc + 1) (pushedByInstruction s.p) params.vecIrq { s with pc := s.pc + 1 } := rfl

/-- BRK changes three cells of the stack page (R184). -/
theorem keepCells_handler_brk {s : State} (hw : s.mem.wf = true) :
    KeepCells [stackAddr s.sp, stackAddr (s.sp - 1), stackAddr (s.sp - 2)] s (handler .brk s) := by
  rw [handler_brk]
  exact keepCells_takeException (s := { s with pc := s.pc + 1 }) _ _ _ hw

/-- Settles O56: it holds, by the writers of memory over the handlers: a store writes at `addr_abs`, a push in the cell
that SP indexes. -/
theorem onlyStoresChangeMemory : Obligations.OnlyStoresChangeMemory := by
  intro i s t hw h
  obtain ⟨opcode, hcode, -, rfl⟩ := (exec_next_iff i s t).1 h
  have hmem := resolved_mem i opcode s
  have hsp := resolved_sp i opcode s
  have hw' : (resolved i opcode s).mem.wf = true := by rw [hmem, hw]
  refine ⟨fun hop => ?none, fun hop ho => ?accumulator, fun hop => ?store, fun hop => ?push, fun hop => ?jsr,
    fun hop => ?brk⟩
  case none => exact (handler_mem i _ hop).trans hmem
  case accumulator => exact (handler_mem_of_accumulator_shift i _ hop ho).trans hmem
  case store =>
    have hstore := handler_mem_store i (resolved i opcode s) hop
    rw [hmem, resolved_addrAbs_of_store hcode hop s] at hstore
    exact keepCells_of_mem hw hstore
  case push =>
    rw [← hsp]
    cases i with
    | pha | php => exact (keepCells_push _ hw').of_mem_eq hmem (addExtraCycle_mem ..)
    | _ => simp [Instr.operation] at hop
  case jsr =>
    rw [← hsp]
    cases i with
    | jsr w => exact (keepCells_pushAddr _ hw').of_mem_eq hmem (addExtraCycle_mem ..)
    | _ => simp [Instr.operation] at hop
  case brk =>
    rw [← hsp]
    cases i with
    | brk => exact (keepCells_handler_brk hw').of_mem_eq hmem (addExtraCycle_mem ..)
    | _ => simp [Instr.operation] at hop

end Sys2Proof.Machine
end

section
/-! PROOF. The invariant and runs (spec/10_state.md section 7, spec/40_clock_dispatch.md section 3). The key facts: a
handler keeps memory canonical, since it writes through `MemWrite` and the stack only; no operation clears U; and
FetchExecute leaves at most 8 cycles, since the counts above 6 belong to operations that add none. -/

namespace Sys2Proof.Machine

open Sys2Proof

/-- A handler keeps the canonical form of memory (R58). -/
theorem handler_mem_wf (i : Instr) {s : State} (hw : s.mem.wf = true) : (handler i s).mem.wf = true := by
  have hstore (h : i.operation ∈ [.sta, .stx, .sty, .asl, .lsr, .rol, .ror, .inc, .dec]) :
      (handler i s).mem.wf = true := by
    obtain hmem | ⟨v, hmem⟩ := handler_mem_store i s h
    · rw [hmem, hw]
    · rw [hmem, Memory.write_wf s.mem s.addrAbs v hw]
  cases i with
  | sta | stx | sty | asl | lsr | rol | ror | inc | dec => exact hstore (by simp [Instr.operation])
  | pha | php => exact push_wf s _ hw
  | jsr => exact (pushAddr_spec s (s.pc - 1) hw).1
  | brk => exact (takeException_spec { s with pc := s.pc + 1 } _ _ _ hw).1
  | _ => rw [handler_mem _ s (by simp [Instr.operation]), hw]

/-- No handler clears U (R21, R25). -/
theorem handler_keeps_u_set (i : Instr) {s : State} (hu : s.flag .u = true) : (handler i s).flag .u = true := by
  by_cases hop : i.operation ∈ [.plp, .rti]
  · exact handler_flag_u hop s
  · refine (handler_keepFlags i s .u ?_).trans hu
    revert hop
    generalize i.operation = op
    cases op <;> decide

/-- The base counts of the operations that can take the page-crossing cycle, and of the branches (R64, R73). -/
theorem baseCycles_le_six (opcode : Byte) (h : opExtra (desc opcode).operation = true ∨
    (desc opcode).operation ∈ [.bcc, .bcs, .beq, .bmi, .bne, .bpl, .bvc, .bvs]) : (desc opcode).baseCycles ≤ 6 := by
  have := forall_desc (p := fun | (_, ⟨op, _, n⟩) => decide ((opExtra op = true ∨
    op ∈ [.bcc, .bcs, .beq, .bmi, .bne, .bpl, .bvc, .bvs]) → n ≤ 6)) (by decide +kernel) opcode
  exact of_decide_eq_true this h

/-- FetchExecute leaves at most 8 cycles: 8 of an unused opcode, 6 with one more, or 6 with two more (R73, R77,
R154). -/
theorem exec_cycles_le {i : Instr} {s t : State} (h : exec i s = .next t) : t.cycles ≤ 8 := by
  obtain ⟨opcode, hop, -, rfl⟩ := (exec_next_iff i s t).1 h
  obtain ⟨hoperation, -⟩ := desc_of_opcodeByte hop
  have hresolved := resolved_cycles i opcode s
  have hbase := (desc_baseCycles opcode).2
  have hsix := baseCycles_le_six opcode
  rw [addExtraCycle_cycles]
  by_cases hbranch : i.operation ∈ [.bcc, .bcs, .beq, .bmi, .bne, .bpl, .bvc, .bvs]
  · have hextra : opExtra i.operation = false := by
      revert hbranch
      generalize i.operation = op
      cases op <;> decide
    have hcycles := (handler_cycles_bounds i (resolved i opcode s)).2
    have := hsix (.inr (hoperation ▸ hbranch))
    rw [hextra, Bool.and_false, Bool.toNat_false]
    omega
  · rw [handler_cycles i _ hbranch, hresolved]
    cases hextra : opExtra i.operation with
    | false =>
      rw [Bool.and_false, Bool.toNat_false]
      exact hbase
    | true =>
      have := hsix (.inl (hoperation ▸ hextra))
      have := Bool.toNat_le (pageCross i.operand s && true)
      omega

/-- A completed instruction keeps memory canonical and U set, and leaves at most 8 cycles. -/
theorem exec_invariant {i : Instr} {s t : State} (hw : s.mem.wf = true) (hu : s.flag .u = true)
    (h : exec i s = .next t) : t.mem.wf = true ∧ t.flag .u = true ∧ t.cycles ≤ 8 := by
  refine ⟨?_, ?_, exec_cycles_le h⟩ <;> obtain ⟨opcode, -, -, rfl⟩ := (exec_next_iff i s t).1 h
  · exact handler_mem_wf i (by rwa [resolved_mem])
  · exact handler_keeps_u_set i (by rwa [State.flag, resolved_p])

/-- The sequence of an NMI or IRQ keeps memory canonical and U set, and leaves its 7 cycles (R216). -/
theorem intSeq_invariant {s : State} (vector : Addr) (hw : s.mem.wf = true) (hu : s.flag .u = true) :
    (intSeq vector s).mem.wf = true ∧ (intSeq vector s).flag .u = true ∧ (intSeq vector s).cycles ≤ 8 := by
  refine ⟨(takeException_spec s s.pc (pushedBySignal s.p) vector hw).1, ?_, by simp [params]⟩
  rw [State.flag, intSeq_p, flagOf_withFlag_other true s.p (by decide), ← State.flag, hu]

/-- The reset sequence keeps memory, sets U and leaves its 7 cycles (R241). -/
theorem resetSequence_invariant {s t : State} (hw : s.mem.wf = true) (h : resetSequence s = .next t) :
    t.mem.wf = true ∧ t.flag .u = true ∧ t.cycles ≤ 8 := by
  obtain ⟨-, rfl⟩ := onBus_next.1 h
  exact ⟨hw, show flagOf .u 0x24 = true from rfl, by simp [params]⟩

/-- A tick keeps the invariant. -/
theorem step_invariant {s t : State} (hinv : Inv s) (h : step s = .next t) : Inv t := by
  obtain ⟨hw, hu, hc⟩ := hinv
  obtain ⟨-, rfl⟩ | ⟨-, -, u, rfl, hfetch⟩ := step_cases h
  · exact ⟨hw, hu, (Nat.sub_le _ _).trans hc⟩
  · obtain ⟨huw, huu, huc⟩ : u.mem.wf = true ∧ u.flag .u = true ∧ u.cycles ≤ 8 := by
      obtain ⟨-, hreset⟩ | ⟨-, -, rfl⟩ | ⟨-, -, -, -, rfl⟩ | ⟨-, hexec⟩ := hfetch
      · exact resetSequence_invariant hw hreset
      · exact intSeq_invariant _ hw hu
      · exact intSeq_invariant _ hw hu
      · exact exec_invariant (s := { s with irqPending := false }) hw hu hexec
    exact ⟨huw, huu, Nat.sub_le_of_le_add huc⟩

/-- Settles O51: it holds, since a fetch tick leaves at most 8 cycles before its decrement, and a signal only sets its
latch. -/
theorem everyEventKeepsTheInvariant : Obligations.EveryEventKeepsTheInvariant := by
  intro e s t hinv h
  cases e with
  | tick => exact step_invariant hinv h
  | reset | irq | nmi =>
    obtain rfl := Host.Outcome.next.inj h
    exact ⟨hinv.memoryCanonical, hinv.unusedSet, hinv.cyclesBounded⟩

/-- Settles O52: it holds, by the values of the power-on table. -/
theorem powerOnMeetsTheInvariant : Obligations.PowerOnMeetsTheInvariant where
  memoryCanonical := rfl
  unusedSet := rfl
  cyclesBounded := Nat.zero_le 7

/-- Settles O53: it holds, by induction over the events: each has a next state, which meets the invariant. -/
theorem connectedRunsNeverStop : Obligations.ConnectedRunsNeverStop := by
  intro events
  induction events with
  | nil => exact fun s hinv hb => ⟨s, rfl, hinv, hb⟩
  | cons e es ih =>
    intro s hinv hb
    obtain ⟨t, ht, htb⟩ := apply_connected e hb
    obtain ⟨v, hv, hvinv, hvb⟩ := ih t (everyEventKeepsTheInvariant e s t hinv ht) htb
    exact ⟨v, by simp only [runEvents, ht, hv], hvinv, hvb⟩

end Sys2Proof.Machine
end

section
/-! PROOF. The addressing modes (spec/41_addressing_modes.md) and the page-crossing cycle (spec/40_clock_dispatch.md
rule R73). The key facts: no handler writes `addr_abs` or `addr_rel`, so that a completed instruction leaves there what
its resolver wrote; and the page of a sum changes exactly where the low byte carries. -/

namespace Sys2Proof.Machine

open Sys2Proof

/-- A completed instruction leaves `addr_abs` and `addr_rel` as its resolver wrote them (R80). -/
theorem exec_resolves {i : Instr} (hwf : i.wellFormed = true) {s : State} (hb : s.busConnected = true) :
    ∃ opcode t, exec i s = .next t ∧ t = addExtraCycle (pageCross i.operand s) (opExtra i.operation)
        (handler i (resolved i opcode s)) ∧ i.opcodeByte = some opcode ∧
      t.addrAbs = effAddr i.operand (beginInstr opcode s) ∧
      t.addrRel = (resolve i.operand (beginInstr opcode s)).addrRel := by
  obtain ⟨opcode, hop⟩ := opcodeByte_of_wellFormed hwf
  obtain ⟨-, -, -, -, -, hrel, habs⟩ := handler_frame i (resolved i opcode s)
  exact ⟨opcode, _, exec_of_opcode hop s hb, rfl, hop, habs.trans (resolved_addrAbs ..), hrel⟩

/-- A byte extended with zeros, as a number (R6). -/
theorem zext_toNat (b : Byte) : (zext b).toNat = b.toNat := by
  simp [zext]
  omega

/-- The page of a sum differs from the page of the base exactly where the low byte carries, also where the sum wraps
past 65535 (R88). -/
theorem page_add_zext_ne_iff (w : Addr) (v : Byte) :
    (page (w + zext v) != page w) = true ↔ w.toNat % 256 + v.toNat > 255 := by
  have hw := w.isLt
  have hv := v.isLt
  rw [bne_iff_ne, ne_eq, ← BitVec.toNat_inj, page, page, highByte_toNat, highByte_toNat, BitVec.toNat_add, zext_toNat]
  omega

/-- The low byte of a zero-page pointer is the byte at the pointer (R92). -/
theorem throughZeroPage_toNat_mod (s : State) (b : Byte) :
    (s.throughZeroPage b).toNat % 256 = (s.read (zext b)).toNat := by
  rw [← lowByte_toNat, State.throughZeroPage, lowByte_word]

/-- A byte extended with zeros is the address with its number. -/
theorem zext_eq_ofNat (b : Byte) : zext b = BitVec.ofNat 16 b.toNat :=
  BitVec.eq_of_toNat_eq (by rw [zext_toNat, BitVec.toNat_ofNat]; omega)

/-- Settles O10: it holds, since the page of the sum changes exactly where the low byte carries. -/
theorem pageCrossIsTheCarryOfTheLowByte : Obligations.PageCrossIsTheCarryOfTheLowByte := by
  intro s b w
  refine ⟨page_add_zext_ne_iff w s.x, page_add_zext_ne_iff w s.y, ?indirectY, fun o ho => ?others⟩
  case indirectY =>
    rw [← zext_eq_ofNat, ← throughZeroPage_toNat_mod]
    exact page_add_zext_ne_iff (s.throughZeroPage b) s.y
  case others => fin_cases ho <;> rfl

/-- Settles O11: it holds, since each resolver computes its address with the stated wrap. -/
theorem directModesResolve : Obligations.DirectModesResolve := by
  intro i s b w hwf hb
  obtain ⟨opcode, t, ht, -, -, habs, hrel⟩ := exec_resolves hwf hb
  refine ⟨t, ht, fun ho => ?imm, fun ho => ?zp0, fun ho => ?zpx, fun ho => ?zpy, fun ho => ?abs, fun ho => ?abx,
    fun ho => ?aby⟩
  all_goals
    rw [ho] at habs hrel
    refine ⟨?_, hrel⟩
    rw [habs]
  case imm | abs => rfl
  case zp0 => exact zext_toNat b
  case zpx | zpy => exact (zext_toNat _).trans (BitVec.toNat_add _ _)
  case abx | aby =>
    refine (BitVec.toNat_add _ _).trans ?_
    rw [zext_toNat]
    rfl

/-- The second byte of an Indirect pointer is at the next address, or at the start of the page where the pointer's low
byte is 0xFF (R90). -/
theorem throughPointer_eq (s : State) (w : Addr) : s.throughPointer w =
    word (s.read (if w.toNat % 256 = 255 then w - 255 else w + 1)) (s.read w) := by
  have hlow : lowByte w = 0xFF ↔ w.toNat % 256 = 255 := by
    rw [← BitVec.toNat_inj, lowByte_toNat]
    rfl
  simp only [State.throughPointer, hlow]
  split
  · next hff =>
    have hstart : word (highByte w) 0x00 = w - 255 := by
      have hw := w.isLt
      have h0 : (0x00 : Byte).toNat = 0 := rfl
      have h255 : (255 : Addr).toNat = 255 := rfl
      apply BitVec.eq_of_toNat_eq
      rw [word_toNat, highByte_toNat, BitVec.toNat_sub, h0, h255]
      omega
    rw [hstart]
  · rfl

/-- A sum of bytes extended with zeros is the address with the sum modulo 256. -/
theorem zext_add_eq_ofNat (a b : Byte) : zext (a + b) = BitVec.ofNat 16 ((a.toNat + b.toNat) % 256) := by
  rw [zext_eq_ofNat, BitVec.toNat_add]

/-- Settles O12: it holds, by the pointers of the three resolvers. -/
theorem indirectModesResolve : Obligations.IndirectModesResolve := by
  intro i s b w hwf hb
  obtain ⟨opcode, t, ht, -, -, habs, -⟩ := exec_resolves hwf hb
  refine ⟨t, ht, fun ho => ?ind, fun ho => ?izx, fun ho => ?izy⟩
  all_goals rw [habs, ho]
  case ind => exact throughPointer_eq (beginInstr opcode s) w
  case izx =>
    have hnext : (b.toNat + s.x.toNat + 1) % 256 = ((b + s.x).toNat + (1 : Byte).toNat) % 256 := by
      have h1 : (1 : Byte).toNat = 1 := rfl
      rw [BitVec.toNat_add, h1]
      omega
    rw [hnext, ← zext_add_eq_ofNat, ← zext_add_eq_ofNat]
    rfl
  case izy =>
    have hnext : b.toNat + 1 = b.toNat + (1 : Byte).toNat := rfl
    rw [hnext, ← zext_add_eq_ofNat, ← zext_eq_ofNat, ← zext_eq_ofNat]
    rfl

/-- A byte extended with its sign, as a number (R6). -/
theorem sext_toNat (d : Byte) : (d.toNat < 128 → (sext d).toNat = d.toNat) ∧
    (128 ≤ d.toNat → (sext d).toNat = 65280 + d.toNat) := by
  revert d
  decide

/-- No operation with Relative mode calls `Fetch` (R93, R154). -/
theorem not_fetches_of_relative {i : Instr} {opcode : Byte} (h : i.opcodeByte = some opcode)
    (hmode : i.operand.mode = .rel) : i.operation ∉ [.lda, .ldx, .ldy, .adc, .sbc, .and, .ora, .eor, .bit,
      .cmp, .cpx, .cpy, .asl, .lsr, .rol, .ror, .inc, .dec] := by
  have hmem := mode_mem_modes h
  rw [hmode] at hmem
  revert hmem
  generalize i.operation = op
  cases op <;> decide

/-- Settles O13: it holds, since an Implied resolver writes `fetched` and a Relative one `addr_rel`, and no operation
of these two modes writes any of the three. -/
theorem impliedAndRelativeResolve : Obligations.ImpliedAndRelativeResolve := by
  intro i s hwf hb
  obtain ⟨opcode, t, ht, heq, hop, habs, hrel⟩ := exec_resolves hwf hb
  have hfetched : t.fetched = (handler i (resolved i opcode s)).fetched := by rw [heq, addExtraCycle_fetched]
  rw [handler_fetched] at hfetched
  refine ⟨t, ht, fun ho => ?implied, fun d ho => ?relative⟩
  case implied =>
    rw [ho] at habs hrel
    refine ⟨?_, habs, hrel⟩
    rw [hfetched, resolved, ho]
    split <;> rfl
  case relative =>
    rw [if_neg (not_fetches_of_relative hop (by rw [ho, Operand.mode])), resolved, ho] at hfetched
    rw [ho] at habs hrel
    exact ⟨habs, hfetched, hrel ▸ sext_toNat d⟩

/-- The 23 opcodes of R73 are those of an operation that can take the page-crossing cycle, in a mode that can report a
crossing. -/
theorem mem_pageCrossingOpcodes_iff (opcode : Byte) :
    opcode ∈ ([0xBD, 0xB9, 0xB1, 0xBE, 0xBC, 0x7D, 0x79, 0x71, 0xFD, 0xF9, 0xF1, 0x3D, 0x39, 0x31,
      0x1D, 0x19, 0x11, 0x5D, 0x59, 0x51, 0xDD, 0xD9, 0xD1] : List Byte) ↔
    opExtra (desc opcode).operation = true ∧ (desc opcode).mode ∈ [.abx, .aby, .izy] := by
  have := forall_desc (p := fun | (opcode, ⟨op, m, _⟩) => decide (
    opcode ∈ ([0xBD, 0xB9, 0xB1, 0xBE, 0xBC, 0x7D, 0x79, 0x71, 0xFD, 0xF9, 0xF1, 0x3D, 0x39, 0x31,
      0x1D, 0x19, 0x11, 0x5D, 0x59, 0x51, 0xDD, 0xD9, 0xD1] : List Byte) ↔
    opExtra op = true ∧ m ∈ [.abx, .aby, .izy])) (by decide +kernel) opcode
  exact of_decide_eq_true this

/-- Only the three modes that add an index to a 16-bit base report a crossing (R80). -/
theorem mode_of_pageCross {o : Operand} {s : State} (h : pageCross o s = true) : o.mode ∈ [.abx, .aby, .izy] := by
  cases o with
  | abx | aby | izy => simp [Operand.mode]
  | _ => exact absurd h Bool.false_ne_true

/-- Settles O9: it holds, since the frame adds the cycle where both the mode and the operation ask for it, and only a
branch handler writes `cycles`. -/
theorem pageCrossingCycleTakenByTheListedOpcodes : Obligations.PageCrossingCycleTakenByTheListedOpcodes := by
  intro i s hwf hb hbranch
  obtain ⟨opcode, hop⟩ := opcodeByte_of_wellFormed hwf
  obtain ⟨hoperation, hmode⟩ := desc_of_opcodeByte hop
  obtain ⟨-, -, -, -, hopcode, -⟩ := handler_frame i (resolved i opcode s)
  refine ⟨_, exec_of_opcode hop s hb, ?_⟩
  rw [addExtraCycle_cycles, addExtraCycle_opcode, hopcode, resolved_opcode, handler_cycles i _ hbranch,
    resolved_cycles]
  simp only [mem_pageCrossingOpcodes_iff, hoperation, hmode]
  cases hcross : pageCross i.operand s with
  | false => simp
  | true => cases opExtra i.operation <;> simp [mode_of_pageCross hcross]

/-- In a fetched instruction an Immediate operand is the byte after the opcode byte (R82). -/
theorem operandByte_fetchInstr_imm {s : State} {b : Byte} (h : s.fetchInstr.operand = .imm b) :
    b = s.read (s.pc + 1) := by
  rw [State.fetchInstr, decodeBytes_operand] at h
  revert h
  cases (desc (s.read s.pc)).mode <;> simp [assembleOperand, eq_comm]

/-- In a fetched instruction the operand byte is the byte at the address that its resolver leaves in `addr_abs`, in
every mode but Implied (R82, R93). -/
theorem operandByte_fetchInstr {s : State} (ho : s.fetchInstr.operand ≠ .imp) (opcode : Byte) :
    operandByte s.fetchInstr.operand s = s.read (effAddr s.fetchInstr.operand (beginInstr opcode s)) := by
  cases h : s.fetchInstr.operand with
  | imp => exact absurd h ho
  | imm b => exact operandByte_fetchInstr_imm h
  | _ => rfl

/-- Settles O14: it holds, since `Fetch` leaves the operand byte in `fetched`, which is the byte at `addr_abs`. -/
theorem fetchedOperandIsTheByteAtTheAddress : Obligations.FetchedOperandIsTheByteAtTheAddress := by
  intro s t hruns h hfetch ho
  rw [step_instr hruns] at h
  obtain ⟨u, hu, rfl⟩ := tickDown_next.1 h
  obtain ⟨opcode, -, -, rfl⟩ := (exec_next_iff _ _ _).1 hu
  obtain ⟨-, -, -, -, -, -, habs⟩ := handler_frame s.fetchInstr
    (resolved s.fetchInstr opcode { s with irqPending := false })
  rw [addExtraCycle_fetched, addExtraCycle_addrAbs, habs, handler_fetched, if_pos hfetch, resolved,
    fetchOperand_resolve_fetched, resolve_addrAbs]
  exact operandByte_fetchInstr (s := { s with irqPending := false }) ho opcode

end Sys2Proof.Machine
end

section
/-! PROOF. Transfers, flag instructions and no-ops (spec/42_load_store_transfer.md rules R106 to R111, spec/48_flags.md,
spec/49_nop_illegal.md). The key facts: a transfer is SetZN on the state in which the destination is already written; a
flag instruction is one write of a flag, whose mask is the row's; a no-op leaves what its fetch tick wrote. -/

namespace Sys2Proof.Machine

open Sys2Proof

/-- Settles O18: it holds, since the handler of each transfer but TXS ends in SetZN of what it moved. -/
theorem transfersMoveRegisters : Obligations.TransfersMoveRegisters := by
  intro s hb
  refine ⟨?tax, ?tay, ?txa, ?tya, ?tsx, ?txs⟩
  case tax => exact exec_implied_setZN (u := { afterImplied 0xAA 2 s with x := s.a }) rfl rfl rfl hb rfl rfl
  case tay => exact exec_implied_setZN (u := { afterImplied 0xA8 2 s with y := s.a }) rfl rfl rfl hb rfl rfl
  case txa => exact exec_implied_setZN (u := { afterImplied 0x8A 2 s with a := s.x }) rfl rfl rfl hb rfl rfl
  case tya => exact exec_implied_setZN (u := { afterImplied 0x98 2 s with a := s.y }) rfl rfl rfl hb rfl rfl
  case tsx => exact exec_implied_setZN (u := { afterImplied 0xBA 2 s with x := s.sp }) rfl rfl rfl hb rfl rfl
  case txs => exact ⟨_, exec_implied rfl rfl rfl s hb, rfl⟩

/-- A write of one flag as a write of P through the flag's mask (R15, R25). -/
theorem setFlag_eq_mask {f : Flag} {mask : Byte} (hmask : f.mask = mask) (value : Bool) (s : State) :
    s.setFlag f value = { s with p := if value then s.p ||| mask else s.p &&& (0xFF ^^^ mask) } := by
  subst hmask
  cases value with
  | true => rfl
  | false =>
    have hnot : ~~~ f.mask = 0xFF ^^^ f.mask := by cases f <;> decide
    rw [← hnot]
    rfl

/-- Settles O41: it holds, since the handler of each row is the write of the row's flag. -/
theorem flagInstructionsWriteOneFlag : Obligations.FlagInstructionsWriteOneFlag := by
  intro s hb i opcode f mask value hrow
  obtain ⟨hexec, hmask⟩ : exec i s = .next ((afterImplied opcode 2 s).setFlag f value) ∧ f.mask = mask := by
    fin_cases hrow <;> exact ⟨exec_implied rfl rfl rfl s hb, by decide⟩
  refine ⟨_, hexec, setFlag_eq_mask hmask value _, ?_, keepFlags_setFlag f value (afterImplied opcode 2 s)⟩
  rw [flag_setFlag, if_pos rfl]

/-- Every row of R65 is an opcode byte of ILL with its base count. -/
theorem ill_of_mem_unusedRows : ∀ row ∈ unusedRows,
    (Instr.ill row.1).opcodeByte = some row.1 ∧ (desc row.1).baseCycles = row.2 := by
  decide +kernel

/-- Settles O42: it holds, since the handlers of NOP and ILL change nothing. -/
theorem nopAndUnusedOpcodesOnlyPass : Obligations.NopAndUnusedOpcodesOnlyPass := by
  intro s hb
  refine ⟨exec_implied rfl rfl rfl s hb, fun opcode base hrow => ?_⟩
  obtain ⟨hop, hbase⟩ := ill_of_mem_unusedRows _ hrow
  exact exec_implied hop hbase rfl s hb

end Sys2Proof.Machine
end

section
/-! PROOF. Addition and subtraction (spec/43_arithmetic_logic.md rules R120, R121). The key fact: ADC and SBC are one
addition to A, of the operand byte or of its complement; the complement of `m` is the number 255 - m, and as a signed
number -1 - m, so that the flags of the addition are those of the subtraction. -/

namespace Sys2Proof.Machine

open Sys2Proof

/-- Z and N follow a value where they are its SetZN flags (R24). -/
theorem followZN_of_flags {v : Byte} {t : State} (hz : t.flag .z = (v == 0)) (hn : t.flag .n = v.msb) :
    FollowZN v t :=
  ⟨by rw [hz, beq_iff_eq], hn.trans (msb_eq_bit7 v)⟩

/-- An instruction that can take the page-crossing cycle and whose handler adds `f` of the fetched byte to A completes
with the sum in A and the flags of the sum (R120, R121). -/
theorem exec_addToA {i : Instr} {o : Operand} {opcode : Byte} {base : Nat} {s : State} (f : Byte → Byte)
    (h : EncodedAs i o opcode base) (hextra : opExtra i.operation = true) (hb : s.busConnected = true)
    (hhandler : ∀ u : State, handler i u = addToA (f (fetchOperand o u).fetched) (fetchOperand o u)) :
    ∃ t, exec i s = .next t ∧
      t = { afterOperand o opcode (base + (pageCross o s).toNat) s with a := t.a, p := t.p } ∧
      t.a = sumResult s.a (f (operandByte o s)) (s.flag .c) ∧
      t.flag .c = sumCarry s.a (f (operandByte o s)) (s.flag .c) ∧
      t.flag .v = sumOverflow s.a (f (operandByte o s)) (s.flag .c) ∧
      FollowZN t.a t ∧ KeepFlags [.c, .v, .z, .n] s t := by
  obtain ⟨-, hflag⟩ := addToA_spec (f (operandByte o s)) (afterOperand o opcode base s)
  refine ⟨addExtraCycle (pageCross o s) true (addToA (f (operandByte o s)) (afterOperand o opcode base s)), ?exec,
    ?frame, rfl, hflag .c, hflag .v, followZN_of_flags (hflag .z) (hflag .n), ?kept⟩
  case exec =>
    rw [h.exec_eq hb, hextra, hhandler, h.fetchOperand_eq]
    rfl
  case frame =>
    rw [addExtraCycle, Bool.and_true]
    rfl
  case kept => exact (keepFlags_addToA _ (afterOperand o opcode base s)).of_p_eq rfl rfl

/-- Settles O19: it holds, since every row is an encoding of ADC, which adds the operand byte. -/
theorem adcAddsWithCarry : Obligations.AdcAddsWithCarry := by
  intro s b w hb o opcode base hrow
  have henc : EncodedAs (.adc o) o opcode base := by
    fin_cases hrow <;> exact ⟨rfl, rfl, rfl, by simp [Operand.mode]⟩
  obtain ⟨t, ht, hframe, ha, hc, hv, hzn, hkeep⟩ := exec_addToA (s := s) id henc rfl hb fun _ => rfl
  refine ⟨t, ht, hframe, ?a, ?c, ?v, hzn, hkeep⟩
  case a => rw [ha, sumResult_toNat, id]
  case c => rw [hc, sumCarry_iff, id]
  case v => rw [hv, sumOverflow_iff, id]

/-- Settles O20: it holds, since every row is an encoding of SBC, which adds the complement of the operand byte. -/
theorem sbcSubtractsWithBorrow : Obligations.SbcSubtractsWithBorrow := by
  intro s b w hb o opcode base hrow
  have henc : EncodedAs (.sbc o) o opcode base := by
    fin_cases hrow <;> exact ⟨rfl, rfl, rfl, by simp [Operand.mode]⟩
  obtain ⟨t, ht, hframe, ha, hc, hv, hzn, hkeep⟩ := exec_addToA (s := s) complement henc rfl hb fun _ => rfl
  have hm := (operandByte o s).isLt
  have hcarry := Bool.toNat_le (s.flag .c)
  refine ⟨t, ht, hframe, ?a, ?c, ?v, hzn, hkeep⟩
  case a =>
    rw [ha, sumResult_toNat, complement_toNat]
    omega
  case c =>
    rw [hc, sumCarry_iff, complement_toNat]
    omega
  case v =>
    rw [hv, sumOverflow_iff, complement_toInt]
    omega

end Sys2Proof.Machine
end

section
/-! PROOF. Shifts and rotates (spec/44_shift_rotate_incdec.md rules R130 to R133). The key fact: all four end in the
same write-back, of a result and a carry that depend on the operand byte and the old Carry only; to A in Implied mode,
else to the effective address. -/

namespace Sys2Proof.Machine

open Sys2Proof

/-- Z and N follow the result of a shift (R24). -/
theorem followZN_shiftTo (o : Operand) (c : Bool) (r : Byte) (s : State) : FollowZN r (shiftTo o c r s) := by
  obtain ⟨-, hflag⟩ := shiftTo_spec o c r s
  exact followZN_of_flags (hflag .z) (hflag .n)

/-- A shift of the accumulator completes with the result in A and the bit shifted out in Carry. -/
theorem exec_shift_accumulator {i : Instr} {opcode : Byte} {s : State} {c : Bool} {r : Byte}
    (hop : i.opcodeByte = some opcode) (hbase : (desc opcode).baseCycles = 2) (ho : i.operand = .imp)
    (hb : s.busConnected = true)
    (hhandler : handler i (afterImplied opcode 2 s) = shiftTo .imp c r (afterImplied opcode 2 s)) :
    ∃ t, exec i s = .next t ∧ t = { afterImplied opcode 2 s with a := t.a, p := t.p } ∧ t.a = r ∧
      t.flag .c = c ∧ FollowZN t.a t ∧ KeepFlags [.c, .z, .n] s t := by
  obtain ⟨-, hflag⟩ := shiftTo_spec .imp c r (afterImplied opcode 2 s)
  exact ⟨_, (exec_implied hop hbase ho s hb).trans (congrArg _ hhandler), rfl, rfl, hflag .c,
    followZN_shiftTo .imp c r _, (keepFlags_shiftTo .imp c r _).of_p_eq rfl rfl⟩

/-- Settles O23: it holds, by the results of the four shifts as numbers. -/
theorem shiftsOfTheAccumulator : Obligations.ShiftsOfTheAccumulator := by
  intro s hb i opcode result carry hrow
  obtain ⟨r, hr, hop, hbase, ho, hhandler⟩ : ∃ r : Byte, r.toNat = result ∧ i.opcodeByte = some opcode ∧
      (desc opcode).baseCycles = 2 ∧ i.operand = .imp ∧
      handler i (afterImplied opcode 2 s) = shiftTo .imp carry r (afterImplied opcode 2 s) := by
    have hmsb := msb_eq_bit7 s.a
    fin_cases hrow
    · exact ⟨_, shiftLeft_toNat s.a, rfl, rfl, rfl, by rw [← hmsb]; rfl⟩
    · exact ⟨_, shiftRight_toNat s.a, rfl, rfl, rfl, rfl⟩
    · exact ⟨_, rotateLeft_toNat s.a (s.flag .c), rfl, rfl, rfl, by rw [← hmsb]; rfl⟩
    · exact ⟨_, rotateRight_toNat s.a (s.flag .c), rfl, rfl, rfl, rfl⟩
  obtain ⟨t, ht, hframe, ha, hc, hzn, hkeep⟩ := exec_shift_accumulator hop hbase ho hb hhandler
  exact ⟨t, ht, hframe, by rw [ha, hr], hc, hzn, hkeep⟩

/-- A shift of a memory byte completes in its base count with the result at the effective address and the bit shifted
out in Carry. -/
theorem exec_shift_memory {i : Instr} {o : Operand} {opcode : Byte} {base : Nat} {s : State} {c : Bool} {r : Byte}
    (h : EncodedAs i o opcode base) (hmode : o.mode ≠ .imm) (hextra : opExtra i.operation = false)
    (hb : s.busConnected = true) (hwf : s.mem.wf = true)
    (hhandler : handler i (afterAddress o opcode base s) = shiftTo o c r (afterOperand o opcode base s)) :
    ∃ t, exec i s = .next t ∧ t = { afterOperand o opcode base s with mem := t.mem, p := t.p } ∧
      t.read (effAddr o s) = r ∧ t.flag .c = c ∧ FollowZN (t.read (effAddr o s)) t ∧
      KeepFlags [.c, .z, .n] s t ∧ KeepCells [effAddr o s] s t := by
  have hwrite : writeBack o r (afterOperand o opcode base s) =
      (afterOperand o opcode base s).write (effAddr o s) r := by
    rw [← operandAddr_eq_effAddr hmode]
    cases o with
    | imp => exact absurd List.mem_cons_self h.mode_notMem
    | _ => rfl
  obtain ⟨hframe, hflag⟩ := shiftTo_spec o c r (afterOperand o opcode base s)
  rw [hwrite] at hframe
  have hmem : (shiftTo o c r (afterOperand o opcode base s)).mem =
      ((afterOperand o opcode base s).write (effAddr o s) r).mem := by rw [hframe]
  have hread : (shiftTo o c r (afterOperand o opcode base s)).read (effAddr o s) = r :=
    (State.read_congr hmem _).trans (State.read_write_same (afterOperand o opcode base s) _ r hwf)
  refine ⟨_, (h.exec_eq_baseCount hextra hb).trans (congrArg _ hhandler), ?frame, hread, hflag .c, ?follow,
    (keepFlags_shiftTo o c r (afterOperand o opcode base s)).of_p_eq rfl rfl,
    keepCells_of_mem hwf (.inr ⟨r, hmem⟩)⟩
  case frame =>
    rw [hmem]
    exact hframe
  case follow =>
    rw [hread]
    exact followZN_shiftTo o c r _

/-- Settles O24: it holds, since every row is a memory form of ASL, LSR, ROL or ROR, none of them Immediate. -/
theorem shiftsOfMemory : Obligations.ShiftsOfMemory := by
  intro s b w hb hwf i o opcode base hrow
  obtain ⟨hcase, hmode, henc⟩ : (i = .asl o ∨ i = .lsr o ∨ i = .rol o ∨ i = .ror o) ∧ o.mode ≠ .imm ∧
      EncodedAs i o opcode base := by
    fin_cases hrow <;> exact ⟨by simp, by simp [Operand.mode], rfl, rfl, rfl, by simp [Operand.mode]⟩
  have hmsb := msb_eq_bit7 (operandByte o s)
  obtain rfl | rfl | rfl | rfl := hcase
  · obtain ⟨t, ht, hframe, hread, hc, hkept⟩ := exec_shift_memory henc hmode rfl hb hwf
      (by rw [handler, opAsl, henc.fetchOperand_eq])
    exact ⟨t, ht, hframe, fun _ => ⟨hread ▸ shiftLeft_toNat _, hc.trans hmsb⟩, nofun, nofun, nofun, hkept⟩
  · obtain ⟨t, ht, hframe, hread, hc, hkept⟩ := exec_shift_memory henc hmode rfl hb hwf
      (by rw [handler, opLsr, henc.fetchOperand_eq])
    exact ⟨t, ht, hframe, nofun, fun _ => ⟨hread ▸ shiftRight_toNat _, hc⟩, nofun, nofun, hkept⟩
  · obtain ⟨t, ht, hframe, hread, hc, hkept⟩ := exec_shift_memory henc hmode rfl hb hwf
      (by rw [handler, opRol, henc.fetchOperand_eq])
    exact ⟨t, ht, hframe, nofun, nofun, fun _ => ⟨hread ▸ rotateLeft_toNat _ _, hc.trans hmsb⟩, nofun, hkept⟩
  · obtain ⟨t, ht, hframe, hread, hc, hkept⟩ := exec_shift_memory henc hmode rfl hb hwf
      (by rw [handler, opRor, henc.fetchOperand_eq])
    exact ⟨t, ht, hframe, nofun, nofun, nofun, fun _ => ⟨hread ▸ rotateRight_toNat _ _, hc⟩, hkept⟩

end Sys2Proof.Machine
end

section
/-! PROOF. Branches (spec/45_compare_branch.md rules R154 to R162). The key facts: a branch finds PC at the following
instruction and its sign-extended offset in `addr_rel`; the count above 2 is 1 for a taken branch, and 1 more where the
target is on another page. -/

namespace Sys2Proof.Machine

open Sys2Proof

/-- What the fetch tick of a branch writes before its operation (R72, R86). -/
def afterRelative (d opcode : Byte) (s : State) : State :=
  { s with opcode := opcode, pc := s.pc + 2, addrRel := sext d, cycles := 2 }

/-- It is what the frame hands to a branch handler. -/
theorem resolved_relative {i : Instr} {d opcode : Byte} (hbase : (desc opcode).baseCycles = 2)
    (ho : i.operand = .rel d) (s : State) : resolved i opcode s = afterRelative d opcode s := by
  have hpc : s.pc + 1 + 1 = s.pc + 2 := by rw [BitVec.add_assoc]; rfl
  rw [resolved, ho, resolve, beginInstr, hbase, afterRelative]
  simp only [hpc]

/-- A branch completes with `Branch` of its condition (R154). -/
theorem exec_branch {i : Instr} {d opcode : Byte} {s : State} {taken : Bool} (hop : i.opcodeByte = some opcode)
    (hbase : (desc opcode).baseCycles = 2) (ho : i.operand = .rel d) (hb : s.busConnected = true)
    (hhandler : handler i (afterRelative d opcode s) = branchIf taken (afterRelative d opcode s)) :
    exec i s = .next (branchIf taken (afterRelative d opcode s)) := by
  rw [exec_of_opcode hop s hb, resolved_relative hbase ho, hhandler, ho]
  rfl

/-- The target of a branch as a number: the signed offset is added modulo 65536 (R86, R154). -/
theorem add_sext_toNat (pc : Addr) (d : Byte) :
    ((pc + 2 + sext d).toNat : Int) = ((pc.toNat : Int) + 2 + d.toInt) % 65536 := by
  have h2 : (2 : Addr).toNat = 2 := rfl
  have hd := d.isLt
  obtain ⟨hpos, hneg⟩ := sext_toNat d
  rw [BitVec.toNat_add, BitVec.toNat_add, h2, toInt_byte]
  split
  · rw [hpos ‹_›]
    omega
  · rw [hneg (by omega)]
    omega

/-- The count of a taken branch (R154). -/
theorem taken_cycles (target next : Addr) :
    2 + 1 + (page target != page next).toNat = if target.toNat / 256 = next.toNat / 256 then 3 else 4 := by
  have hpage : page target = page next ↔ target.toNat / 256 = next.toNat / 256 := by
    rw [← BitVec.toNat_inj, page, page, highByte_toNat, highByte_toNat]
  by_cases h : page target = page next
  · rw [if_pos (hpage.1 h), h, bne_self_eq_false]
    rfl
  · rw [if_neg (mt hpage.2 h), bne_iff_ne.2 h]
    rfl

/-- Settles O28: it holds, since each row is a branch on the row's condition. -/
theorem branchesTestOneFlag : Obligations.BranchesTestOneFlag := by
  intro s d hb i opcode taken hrow
  have hexec : exec i s = .next (branchIf taken (afterRelative d opcode s)) := by
    fin_cases hrow <;> exact exec_branch rfl rfl rfl hb rfl
  refine ⟨_, hexec, ?_⟩
  cases taken with
  | false => exact ⟨rfl, fun _ => ⟨rfl, rfl⟩, nofun⟩
  | true => exact ⟨rfl, nofun, fun _ => ⟨add_sext_toNat s.pc d, taken_cycles (s.pc + 2 + sext d) (s.pc + 2)⟩⟩

end Sys2Proof.Machine
end

section
/-! PROOF. Memory and the stack (spec/20_memory.md sections 2 and 5, spec/46_stack.md). The key facts: a push writes the
cell of page 1 that SP indexes before SP moves, and a pull reads the cell that SP indexes after it has moved. -/

namespace Sys2Proof.Machine

open Sys2Proof

/-- Settles O43: it holds, by the laws of a write over a memory in canonical form. -/
theorem memoryReadsBackWhatWasWritten : Obligations.MemoryReadsBackWhatWasWritten :=
  fun s a v hw => ⟨State.read_write_same s a v hw, fun _ hc => State.read_write_other s v hw hc,
    Memory.write_wf s.mem a v hw, _, rfl⟩

/-- Settles O33: it holds, since the pull increments SP back to the cell that the push wrote. -/
theorem pushThenPullGivesTheByteBack : Obligations.PushThenPullGivesTheByteBack := by
  intro s v hw
  have hsp : (s.push v).sp + 1 = s.sp := BitVec.sub_add_cancel s.sp 1
  refine ⟨?_, hsp, push_wf s v hw⟩
  rw [pulled_eq, hsp, read_push_same s v hw]

/-- An Implied instruction whose handler is one push completes with the byte in the cell that SP indexed (R48). -/
theorem exec_push {i : Instr} {opcode : Byte} {base : Nat} {s : State} {v : Byte} (hop : i.opcodeByte = some opcode)
    (hbase : (desc opcode).baseCycles = base) (ho : i.operand = .imp) (hb : s.busConnected = true)
    (hw : s.mem.wf = true)
    (hhandler : handler i (afterImplied opcode base s) = (afterImplied opcode base s).push v) :
    ∃ t, exec i s = .next t ∧ t = { afterImplied opcode base s with sp := s.sp - 1, mem := t.mem } ∧
      t.read (stackAddr s.sp) = v ∧ KeepCells [stackAddr s.sp] s t :=
  ⟨_, (exec_implied hop hbase ho s hb).trans (congrArg _ hhandler), rfl,
    read_push_same (afterImplied opcode base s) v hw, keepCells_push (s := afterImplied opcode base s) v hw⟩

/-- Settles O29: it holds, since the handler of PHA is the push of A. -/
theorem phaPushesAccumulator : Obligations.PhaPushesAccumulator :=
  fun _ hb hw => exec_push rfl rfl rfl hb hw rfl

/-- Settles O30: it holds, since the handler of PHP is the push of P with bits 4 and 5 set. -/
theorem phpPushesStatus : Obligations.PhpPushesStatus :=
  fun _ hb hw => exec_push rfl rfl rfl hb hw rfl

/-- Settles O31: it holds, since the handler of PLA ends in SetZN of the byte that it pulled into A. -/
theorem plaPullsAccumulator : Obligations.PlaPullsAccumulator := by
  intro s hb
  refine exec_implied_setZN (u := { afterImplied 0x68 4 s with sp := s.sp + 1, a := s.read (stackAddr (s.sp + 1)) })
    rfl rfl rfl hb ?_ rfl
  rw [handler, opPla, pulled_eq]
  rfl

/-- Settles O32: it holds, since the handler of PLP is a whole-register write of the byte that it pulled. -/
theorem plpPullsStatus : Obligations.PlpPullsStatus := by
  intro s hb
  have hhandler : handler .plp (afterImplied 0x28 4 s) =
      (afterImplied 0x28 4 s).pull.loadP (s.read (stackAddr (s.sp + 1))) := by
    rw [handler, opPlp, pulled_eq]
    rfl
  have hflag := flag_loadP (afterImplied 0x28 4 s).pull (s.read (stackAddr (s.sp + 1)))
  exact ⟨_, (exec_implied rfl rfl rfl s hb).trans (congrArg _ hhandler), rfl, hflag .u, rfl, hflag .c, hflag .z,
    hflag .i, hflag .d, hflag .b, hflag .v, hflag .n⟩

end Sys2Proof.Machine
end

section
/-! PROOF. Subroutines and exceptions (spec/47_jump_subroutine.md, spec/60_exceptions.md sections 2 and 3). The key
facts: JSR and the entry of an exception leave the return address in two cells of the stack page, high byte first, from
where RTS and RTI take it; BRK, the NMI and the IRQ sequence enter by the same operation. -/

namespace Sys2Proof.Machine

open Sys2Proof

/-- A 16-bit push writes SP and memory, and nothing else (R48). -/
theorem pushAddr_frame (s : State) (v : Addr) :
    s.pushAddr v = { s with sp := s.sp - 2, mem := (s.pushAddr v).mem } := by
  have hsp : s.sp - 1 - 1 = s.sp - 2 := by bv_omega
  rw [← hsp]
  rfl

/-- Settles O35: it holds, since the handler of JSR pushes the address before the following instruction. -/
theorem jsrPushesItsLastByteAddress : Obligations.JsrPushesItsLastByteAddress := by
  intro s w hb hw
  have henc : EncodedAs (.jsr w) (.abs w) 0x20 6 := ⟨rfl, rfl, rfl, by simp [Operand.mode]⟩
  have hret : s.pc + 1 + 2 - 1 = s.pc + 2 := by bv_omega
  have hhandler : handler (.jsr w) (afterAddress (.abs w) 0x20 6 s) =
      { (afterAddress (.abs w) 0x20 6 s).pushAddr (s.pc + 2) with pc := w } := by
    rw [← hret]
    rfl
  obtain ⟨-, hhigh, hlow, -⟩ := pushAddr_spec (afterAddress (.abs w) 0x20 6 s) (s.pc + 2) hw
  exact ⟨_, (henc.exec_eq_baseCount rfl hb).trans (congrArg _ hhandler),
    congrArg (fun u : State => { u with pc := w }) (pushAddr_frame _ _), hhigh, hlow,
    (keepCells_pushAddr (s := afterAddress (.abs w) 0x20 6 s) (s.pc + 2) hw).of_mem_eq rfl rfl⟩

/-- Settles O36: it holds, by the address that two pulls return. -/
theorem rtsReturnsPastThePulledAddress : Obligations.RtsReturnsPastThePulledAddress := by
  intro s hb
  have hsp : s.sp + 1 + 1 = s.sp + 2 := by bv_omega
  refine ⟨_, exec_implied rfl rfl rfl s hb, ?_⟩
  rw [handler, opRts, pulledAddr_eq, ← hsp]
  rfl

/-- Settles O37: it holds, by the byte that the first pull returns and the address that the next two return. -/
theorem rtiRestoresStatusAndPc : Obligations.RtiRestoresStatusAndPc := by
  intro s hb
  have hsp3 : s.sp + 1 + 1 + 1 = s.sp + 3 := by bv_omega
  have hsp2 : s.sp + 1 + 1 = s.sp + 2 := by bv_omega
  refine ⟨_, exec_implied rfl rfl rfl s hb, ?_⟩
  rw [handler, opRti, State.returnFromException, pulled_eq, pulledAddr_eq, ← hsp3, ← hsp2]
  rfl

/-- What taking an exception through a vector outside the stack page leaves (R184, R216). -/
theorem takeException_enters (s : State) (ret : Addr) (status : Byte) {vec : Addr} (hw : s.mem.wf = true)
    (hvec : 512 ≤ vec.toNat) (hnext : 512 ≤ (vec + 1).toNat) :
    ∃ t, s.takeException ret status vec = t ∧
      t = { s with sp := s.sp - 3, p := t.p, mem := t.mem, pc := word (s.read (vec + 1)) (s.read vec) } ∧
      t.flag .i = true ∧ KeepFlags [.i] s t ∧ t.read (stackAddr s.sp) = highByte ret ∧
      t.read (stackAddr (s.sp - 1)) = lowByte ret ∧ t.read (stackAddr (s.sp - 2)) = status ∧
      KeepCells [stackAddr s.sp, stackAddr (s.sp - 1), stackAddr (s.sp - 2)] s t := by
  obtain ⟨-, hhigh, hlow, hstatus, -, hpc⟩ := takeException_spec s ret status vec hw
  refine ⟨_, rfl, ?frame, ?set, (keepFlags_setFlag .i true s).of_p_eq rfl (takeException_p ..), hhigh, hlow, hstatus,
    keepCells_takeException ret status vec hw⟩
  case frame =>
    rw [← hpc hvec hnext, takeException_p]
    exact takeException_frame s ret status vec
  case set => rw [State.flag, takeException_p, flagOf_withFlag_same]

/-- Settles O38: it holds, since the handler of BRK takes an exception with PC past the padding byte. -/
theorem brkTakesTheException : Obligations.BrkTakesTheException := by
  intro s hb hw
  have hpc : s.pc + 1 + 1 = s.pc + 2 := by bv_omega
  obtain ⟨t, ht, hframe, hentered⟩ := takeException_enters { afterImplied 0x00 7 s with pc := s.pc + 2 } (s.pc + 2)
    (pushedByInstruction s.p) (vec := params.vecIrq) hw (by decide) (by decide)
  have hhandler : handler .brk (afterImplied 0x00 7 s) = t := by
    rw [← ht, ← hpc]
    rfl
  exact ⟨t, (exec_implied rfl rfl rfl s hb).trans (congrArg _ hhandler), hframe, hentered⟩

/-- Settles O39: it holds, since RTS pulls from the two cells in which JSR left the address. -/
theorem subroutineCallReturns : Obligations.SubroutineCallReturns := by
  intro s t u w hw ht hmem hsp hb
  obtain ⟨-, -, hsb, -⟩ := (exec_next_iff _ _ _).1 ht
  obtain ⟨t', ht', hframe, hhigh, hlow, -⟩ := jsrPushesItsLastByteAddress s w hsb hw
  obtain rfl := Host.Outcome.next.inj (ht.symm.trans ht')
  obtain ⟨v, hv, hvframe⟩ := rtsReturnsPastThePulledAddress u hb
  have husp : u.sp = s.sp - 2 := by rw [hsp, hframe]
  have h2 : u.sp + 2 = s.sp := by rw [husp, BitVec.sub_add_cancel]
  have h1 : u.sp + 1 = s.sp - 1 := by rw [husp]; bv_omega
  have hpc : v.pc = word (u.read (stackAddr (u.sp + 2))) (u.read (stackAddr (u.sp + 1))) + 1 :=
    congrArg State.pc hvframe
  refine ⟨v, hv, ?_, (congrArg State.sp hvframe).trans h2, (congrArg State.mem hvframe).trans hmem⟩
  rw [hpc, h2, h1, State.read_congr hmem, State.read_congr hmem, hhigh, hlow, word_highByte_lowByte, BitVec.add_assoc]
  rfl

/-- Settles O40: it holds, since RTI pulls from the three cells in which BRK left P and the address. -/
theorem breakReturns : Obligations.BreakReturns := by
  intro s t u hw ht hmem hsp hb
  obtain ⟨-, -, hsb, -⟩ := (exec_next_iff _ _ _).1 ht
  obtain ⟨t', ht', hframe, -, -, hhigh, hlow, hstatus, -⟩ := brkTakesTheException s hsb hw
  obtain rfl := Host.Outcome.next.inj (ht.symm.trans ht')
  obtain ⟨v, hv, hvframe⟩ := rtiRestoresStatusAndPc u hb
  have husp : u.sp = s.sp - 3 := by rw [hsp, hframe]
  have h3 : u.sp + 3 = s.sp := by rw [husp, BitVec.sub_add_cancel]
  have h2 : u.sp + 2 = s.sp - 1 := by rw [husp]; bv_omega
  have h1 : u.sp + 1 = s.sp - 2 := by rw [husp]; bv_omega
  have hpc : v.pc = word (u.read (stackAddr (u.sp + 3))) (u.read (stackAddr (u.sp + 2))) := congrArg State.pc hvframe
  have hp : v.p = u.read (stackAddr (u.sp + 1)) ||| 0x20 := congrArg State.p hvframe
  refine ⟨v, hv, ?pc, ?status, (congrArg State.sp hvframe).trans h3⟩
  case pc => rw [hpc, h3, h2, State.read_congr hmem, State.read_congr hmem, hhigh, hlow, word_highByte_lowByte]
  case status =>
    rw [hp, h1, State.read_congr hmem, hstatus, BitVec.or_assoc]
    rfl

end Sys2Proof.Machine
end

section
/-! PROOF. Ticks and signals (spec/40_clock_dispatch.md section 2, spec/60_exceptions.md section 2,
spec/70_reset_and_hazards.md). The key facts: a fetch tick that services nothing runs the instruction that the bytes at
PC decode to, with the latch of a masked request cleared; the NMI and the IRQ sequence are one entry through two
vectors. -/

namespace Sys2Proof.Machine

open Sys2Proof

/-- The bytes at PC decode to the instruction that a fetch tick fetches (R53, R72). -/
theorem fetchInstr_of_decode {s : State} {i : Instr} {rest : List Byte}
    (h : decode [s.read s.pc, s.read (s.pc + 1), s.read (s.pc + 2)] = .ok (i, rest)) : s.fetchInstr = i := by
  rw [decode_three_bytes] at h
  exact (Prod.mk.inj (Except.ok.inj h)).1

/-- Settles O6: it holds, since a fetch tick that services nothing fetches what the decoder gives. -/
theorem stepRunsTheDecodedInstruction : Obligations.StepRunsTheDecodedInstruction := by
  intro s i rest hruns hdecode
  have hstep := step_instr hruns
  rw [fetchInstr_of_decode hdecode] at hstep
  exact ⟨hstep, fun t ht => by rw [hstep, ht, tickDown], fun r hr => by rw [hstep, hr, tickDown]⟩

/-- Settles O7: it holds, by the idle tick. -/
theorem idleTickOnlyCountsDown : Obligations.IdleTickOnlyCountsDown :=
  fun _ hpos => step_idle hpos

/-- Settles O44: it holds, by the arrival of each signal. -/
theorem signalsOnlySetTheirLatch : Obligations.SignalsOnlySetTheirLatch :=
  fun _ => ⟨rfl, rfl, rfl⟩

/-- Settles O45: it holds, since a pending reset is the first that a fetch tick tests. -/
theorem resetSequenceRestoresPowerOnValues : Obligations.ResetSequenceRestoresPowerOnValues := by
  intro s h0 hreset hb
  rw [step_fetch h0, fetchTick, if_pos hreset, resetSequence, onBus_connected hb]
  rfl

/-- The sequence of a signal with its first decrement: it enters through its vector and leaves 6 cycles (R74, R216). -/
theorem tickDown_intSeq (s : State) {vector : Addr} (hw : s.mem.wf = true) (hvec : 512 ≤ vector.toNat)
    (hnext : 512 ≤ (vector + 1).toNat) :
    ∃ t, tickDown (.next (intSeq vector s)) = .next t ∧
      t = { s with
            sp := s.sp - 3, p := t.p, mem := t.mem
            pc := word (s.read (vector + 1)) (s.read vector), cycles := 6 } ∧
      t.flag .i = true ∧ KeepFlags [.i] s t ∧ t.read (stackAddr s.sp) = highByte s.pc ∧
      t.read (stackAddr (s.sp - 1)) = lowByte s.pc ∧ t.read (stackAddr (s.sp - 2)) = (s.p &&& 0xEF) ||| 0x20 ∧
      KeepCells [stackAddr s.sp, stackAddr (s.sp - 1), stackAddr (s.sp - 2)] s t := by
  obtain ⟨t, ht, hframe, hentered⟩ := takeException_enters s s.pc (pushedBySignal s.p) hw hvec hnext
  refine ⟨{ t with cycles := 6 }, ?_, congrArg (fun u : State => { u with cycles := 6 }) hframe, hentered⟩
  rw [← ht]
  rfl

/-- Settles O46: it holds, since an NMI is serviced where no reset is pending. -/
theorem nmiSequenceTakesTheException : Obligations.NmiSequenceTakesTheException := by
  intro s h0 hreset hnmi hb hw
  have hstep : step s = tickDown (.next (intSeq params.vecNmi { s with nmiPending := false })) := by
    rw [step_fetch h0, fetchTick, if_neg (Bool.eq_false_iff.1 hreset), if_pos hnmi, nmiSequence, onBus_connected hb]
  rw [hstep]
  exact tickDown_intSeq { s with nmiPending := false } (vector := params.vecNmi) hw (by decide) (by decide)

/-- Settles O47: it holds, since an unmasked IRQ is serviced where neither a reset nor an NMI is pending. -/
theorem irqSequenceTakesTheException : Obligations.IrqSequenceTakesTheException := by
  intro s h0 hreset hnmi hirq hmask hb hw
  have hserve : (s.irqPending && !s.flag .i) = true := by rw [hirq, hmask]; rfl
  have hstep : step s = tickDown (.next (intSeq params.vecIrq { s with irqPending := false })) := by
    rw [step_fetch h0, fetchTick, if_neg (Bool.eq_false_iff.1 hreset), if_neg (Bool.eq_false_iff.1 hnmi),
      if_pos hserve, irqSequence, onBus_connected hb]
  rw [hstep]
  exact tickDown_intSeq { s with irqPending := false } (vector := params.vecIrq) hw (by decide) (by decide)

/-- Settles O48: it holds, since the tick clears the latch before it runs the instruction, which does not write it. -/
theorem maskedIrqIsDiscarded : Obligations.MaskedIrqIsDiscarded := by
  intro s h0 hreset hnmi hmask hb
  have hstep := step_instr ⟨h0, hreset, hnmi, .inr hmask⟩
  have hstep' := step_instr (s := { s with irqPending := !s.irqPending }) ⟨h0, hreset, hnmi, .inr hmask⟩
  obtain ⟨t, ht, -⟩ := exec_connected (fetchInstr_wellFormed s) (s := { s with irqPending := false }) hb
  obtain ⟨-, -, -, -, -, -, -, -, hirq, -⟩ := registersHaveOnlyTheirListedWriters _ _ t ht
  refine ⟨{ t with cycles := t.cycles - 1 }, by rw [hstep, ht, tickDown], hirq, ?_⟩
  exact hstep'.trans (congrArg tickDown ht)

/-- Settles O49: it holds, since a fetch tick is one test of the bus, and every other event has a next state. -/
theorem noBusFaultsExactlyTheFetchTicks : Obligations.NoBusFaultsExactlyTheFetchTicks := by
  intro s
  refine ⟨fun r => ⟨fun hfault => ?faults, ?raised⟩, fun e he => ?signal,
    fun i hwf hb => exec_disconnected hwf s hb⟩
  case faults =>
    cases hb : s.busConnected with
    | true =>
      obtain ⟨t, ht, -⟩ := step_connected hb
      exact nomatch ht.symm.trans hfault
    | false =>
      rcases Nat.eq_zero_or_pos s.cycles with h0 | hpos
      · cases r
        exact ⟨rfl, h0, rfl⟩
      · exact nomatch (step_idle hpos).symm.trans hfault
  case raised =>
    rintro ⟨rfl, h0, hb⟩
    obtain ⟨t, ht, -⟩ := fetchTick_eq_onBus s
    rw [step_fetch h0, ht, onBus_disconnected hb, tickDown]
  case signal =>
    cases e with
    | tick => exact absurd rfl he
    | reset | irq | nmi => exact ⟨_, rfl⟩

/-- Settles O58: it holds, by the fields of the power-on state. -/
theorem powerOnValuesAreTheTable : Obligations.PowerOnValuesAreTheTable := by
  have hflags : ∀ f, f ∉ [Flag.i, Flag.u] → State.reset.flag f = false := by
    intro f
    cases f <;> decide
  exact ⟨rfl, rfl, rfl, rfl, rfl, rfl, rfl, hflags, rfl, rfl, rfl, rfl, rfl, rfl, rfl, rfl, rfl, fun _ => rfl⟩

/-- Settles O59: it holds, by the run of the reset sequence and of the six idle ticks after it. -/
theorem resetOnEmptyMachineReturnsToPowerOn : Obligations.ResetOnEmptyMachineReturnsToPowerOn :=
  rfl

end Sys2Proof.Machine
end

section
/-! PROOF. The Decimal flag is inert (spec/10_state.md section 3, spec/43_arithmetic_logic.md). The key fact: a handler
either commutes with a write of D, since it reads no flag but C, Z, N and V and writes other flags bit by bit, or it
overwrites D and does not read it (CLD, SED, PLP, RTI). -/

namespace Sys2Proof.Machine

open Sys2Proof

/-- Writes of two different flags commute (R25). -/
theorem setFlag_comm {f g : Flag} (h : f ≠ g) (b c : Bool) (s : State) :
    (s.setFlag f b).setFlag g c = (s.setFlag g c).setFlag f b := by
  have hp : withFlag g c (withFlag f b s.p) = withFlag f b (withFlag g c s.p) := by
    apply status_ext
    intro k
    simp only [flagOf_withFlag]
    split
    · next hk => rw [if_neg (hk ▸ h.symm)]
    · rfl
  exact congrArg (fun p => { s with p := p }) hp

/-- The later of two writes of one flag counts (R25). -/
theorem setFlag_setFlag (f : Flag) (b c : Bool) (s : State) : (s.setFlag f b).setFlag f c = s.setFlag f c := by
  have hp : withFlag f c (withFlag f b s.p) = withFlag f c s.p := by
    apply status_ext
    intro k
    simp only [flagOf_withFlag]
    split <;> rfl
  exact congrArg (fun p => { s with p := p }) hp

section Commute

variable (d : Bool) (s : State)

/-- A write of another flag does not read or write D. -/
theorem setFlag_setFlag_d {f : Flag} (h : f ≠ .d) (b : Bool) :
    (s.setFlag .d d).setFlag f b = (s.setFlag f b).setFlag .d d :=
  setFlag_comm h.symm d b s

/-- Another flag is read as before. -/
theorem flag_setFlag_d {f : Flag} (h : f ≠ .d) : (s.setFlag .d d).flag f = s.flag f := by
  rw [flag_setFlag, if_neg h]

/-- SetZN does not read or write D (R24): where a state is another one with D written, so it is after SetZN. -/
theorem setZN_setFlag_d {s u : State} (h : u = s.setFlag .d d) (v : Byte) :
    u.setZN v = (s.setZN v).setFlag .d d := by
  rw [h, State.setZN, State.setZN, setFlag_setFlag_d _ _ (by decide), setFlag_setFlag_d _ _ (by decide)]

/-- `Fetch` does not read or write P (R93). -/
theorem fetchOperand_setFlag_d (o : Operand) :
    fetchOperand o (s.setFlag .d d) = (fetchOperand o s).setFlag .d d := by
  cases o <;> rfl

/-- A write-back does not read or write P (R94). -/
theorem writeBack_setFlag_d (o : Operand) (v : Byte) :
    writeBack o v (s.setFlag .d d) = (writeBack o v s).setFlag .d d := by
  cases o <;> rfl

/-- What the frame hands to a handler does not depend on P (R72, R80). -/
theorem resolved_setFlag_d (i : Instr) (opcode : Byte) :
    resolved i opcode (s.setFlag .d d) = (resolved i opcode s).setFlag .d d := by
  rw [resolved, resolved]
  cases i.operand <;> rfl

/-- The page-crossing flag of a mode does not depend on P (R80). -/
theorem pageCross_setFlag_d (o : Operand) : pageCross o (s.setFlag .d d) = pageCross o s := by
  cases o <;> rfl

/-- The addition of ADC and SBC is binary whatever D holds (R126). -/
theorem addToA_setFlag_d (m : Byte) : addToA m (s.setFlag .d d) = (addToA m s).setFlag .d d := by
  rw [addToA, addToA, flag_setFlag_d _ _ (by decide), setFlag_setFlag_d _ _ (by decide),
    setFlag_setFlag_d _ _ (by decide)]
  exact setZN_setFlag_d d (by rfl) _

/-- The end of the shifts (R130 to R133). -/
theorem shiftTo_setFlag_d (o : Operand) (c : Bool) (r : Byte) :
    shiftTo o c r (s.setFlag .d d) = (shiftTo o c r s).setFlag .d d := by
  rw [shiftTo, shiftTo, setFlag_setFlag_d _ _ (by decide), setZN_setFlag_d d rfl, writeBack_setFlag_d]

/-- The compare (R153). -/
theorem compareWith_setFlag_d (reg : Byte) :
    compareWith reg (s.setFlag .d d) = (compareWith reg s).setFlag .d d := by
  rw [compareWith, compareWith, setFlag_setFlag_d _ _ (by decide), setFlag_setFlag_d _ _ (by decide),
    setFlag_setFlag_d _ _ (by decide)]
  rfl

/-- The branch (R154). -/
theorem branchIf_setFlag_d (taken : Bool) :
    branchIf taken (s.setFlag .d d) = (branchIf taken s).setFlag .d d := by
  cases taken <;> rfl

/-- The bit test (R125). -/
theorem opBit_setFlag_d (o : Operand) : opBit o (s.setFlag .d d) = (opBit o s).setFlag .d d := by
  rw [opBit, opBit, fetchOperand_setFlag_d, setFlag_setFlag_d _ _ (by decide), setFlag_setFlag_d _ _ (by decide),
    setFlag_setFlag_d _ _ (by decide)]
  rfl

/-- A handler that neither stores P nor overwrites D commutes with a write of D. -/
theorem handler_setFlag_d (i : Instr) (h : i.operation ∉ [.php, .brk, .cld, .sed, .plp, .rti]) :
    handler i (s.setFlag .d d) = (handler i s).setFlag .d d := by
  cases i with
  | php | brk | cld | sed | plp | rti => simp [Instr.operation] at h
  | lda o | ldx o | ldy o | and o | ora o | eor o | inc o | dec o =>
    simp only [handler, opLda, opLdx, opLdy, opAnd, opOra, opEor, opInc, opDec, fetchOperand_setFlag_d]
    exact setZN_setFlag_d d (by rfl) _
  | tax | tay | txa | tya | tsx | pla | inx | iny | dex | dey => exact setZN_setFlag_d d (by rfl) _
  | adc o | sbc o =>
    simp only [handler, opAdc, opSbc, fetchOperand_setFlag_d]
    exact addToA_setFlag_d d _ _
  | asl o | lsr o =>
    simp only [handler, opAsl, opLsr, fetchOperand_setFlag_d]
    exact shiftTo_setFlag_d d _ _ _ _
  | rol o | ror o =>
    have hc := flag_setFlag_d d (fetchOperand o s) (f := .c) (by decide)
    simp only [handler, opRol, opRor, fetchOperand_setFlag_d, hc]
    exact shiftTo_setFlag_d d _ _ _ _
  | cmp o | cpx o | cpy o =>
    simp only [handler, opCmp, opCpx, opCpy, fetchOperand_setFlag_d]
    exact compareWith_setFlag_d d _ _
  | bit o => exact opBit_setFlag_d d s o
  | bcc | bcs =>
    simp only [handler, opBcc, opBcs, flag_setFlag_d d s (f := .c) (by decide)]
    exact branchIf_setFlag_d d s _
  | beq | bne =>
    simp only [handler, opBeq, opBne, flag_setFlag_d d s (f := .z) (by decide)]
    exact branchIf_setFlag_d d s _
  | bmi | bpl =>
    simp only [handler, opBmi, opBpl, flag_setFlag_d d s (f := .n) (by decide)]
    exact branchIf_setFlag_d d s _
  | bvc | bvs =>
    simp only [handler, opBvc, opBvs, flag_setFlag_d d s (f := .v) (by decide)]
    exact branchIf_setFlag_d d s _
  | clc | sec | cli | sei | clv => exact setFlag_setFlag_d d s (by decide) _
  | _ => rfl

/-- CLD, SED, PLP and RTI overwrite D without reading it. -/
theorem handler_setFlag_d_of_overwrites {i : Instr} (h : i.operation ∈ [.cld, .sed, .plp, .rti]) :
    handler i (s.setFlag .d d) = handler i s := by
  cases i with
  | cld | sed => exact setFlag_setFlag .d d _ s
  | plp | rti => rfl
  | _ => simp [Instr.operation] at h

/-- Whatever D holds before a handler that does not store P, the states after it differ at most in D. -/
theorem handler_eq_but_d {i : Instr} (h : i.operation ∉ [.php, .brk]) (e : Bool) :
    (handler i (s.setFlag .d d)).setFlag .d e = (handler i s).setFlag .d e := by
  by_cases hover : i.operation ∈ [.cld, .sed, .plp, .rti]
  · rw [handler_setFlag_d_of_overwrites d s hover]
  · rw [handler_setFlag_d d s i (by simp_all), setFlag_setFlag]

end Commute

/-- Settles O57: it holds, since neither the frame nor a handler but those of PHP and BRK lets D reach anything else. -/
theorem decimalFlagIsInert : Obligations.DecimalFlagIsInert := by
  intro i s t d hop h
  obtain ⟨opcode, hcode, hb, rfl⟩ := (exec_next_iff i s t).1 h
  refine ⟨_, exec_of_opcode hcode (s.setFlag .d d) hb, fun e => ?_⟩
  rw [pageCross_setFlag_d, resolved_setFlag_d]
  exact congrArg (addExtraCycle (pageCross i.operand s) (opExtra i.operation)) (handler_eq_but_d d _ hop e)

end Sys2Proof.Machine
end
